-- ==== Sys2Proof/Word.lean ====
section
/-! DEFINITION. The word types of RZL-DX: bytes and 16-bit words (`00_scope.md` R8). -/

namespace Sys2Proof

/-- A byte is 8 bits (R8). -/
abbrev Byte := BitVec 8

/-- A 16-bit unsigned value: a control word, a header field, a register-block word, a relocation total. -/
abbrev Word := BitVec 16

end Sys2Proof
end

