-- ==== Sys2Proof/Machine/Bytes.lean ====
section
/-! DEFINITION. Byte order and bit order (`20_memory.md` R62, R66, R67). -/

namespace Sys2Proof.Machine

/-- A little-endian 16-bit word from its byte at the lower address and the next one (R62). -/
def le16 (lo hi : Byte) : Word := hi ++ lo

/-- `lo(v) = v mod 256` (R121). -/
def loByte (v : Word) : Byte := v.extractLsb' 0 8

/-- `hi(v) = v div 256` (R121). -/
def hiByte (v : Word) : Byte := v.extractLsb' 8 8

/-- The two bytes of a word in address order (R66). -/
def wordBytes (v : Word) : List Byte := [loByte v, hiByte v]

/-- A control word from its control bits in the order of delivery, the first one bit 0 (R67, R91). -/
def packBits : List Bool → Word
  | [] => 0
  | b :: bs => (packBits bs <<< 1) ||| (if b then 1 else 0)

end Sys2Proof.Machine
end

