-- ==== Sys2Proof/Syntax.lean ====
section
/-! DEFINITION. The instructions of RZL-DX are the ten tokens of its two byte streams (`00_scope.md` R2,
`30_encoding.md` R111). One constructor per row of `spec/opcode_table.json`, in the table's order; the
arguments are the row's fields, as the encoding spells them. -/

namespace Sys2Proof

/-- A token. `lit` to `lcopyx` stand in the code stream, `rdb` to `rdw` in the relocation stream. -/
inductive Instr where
  /-- `LIT b` (R92, R143): `b` is the raw byte. -/
  | lit (b : Byte)
  /-- `SCOPY` (R93, R144): `c` is the two-bit count field, `db` the distance byte. -/
  | scopy (c : BitVec 2) (db : Byte)
  /-- `LCOPY` (R94, R145): `lo` is `lowbyte`, `hi5` is `highbyte[7:3]`, `c` is `highbyte[2:0]`, not 0. -/
  | lcopy (lo : Byte) (hi5 : BitVec 5) (c : BitVec 3)
  /-- `END` (R95, R149): `lo` and `hi5` are read and ignored. -/
  | endCode (lo : Byte) (hi5 : BitVec 5)
  /-- `ESC` (R95, R147): `lo` and `hi5` are read and ignored. -/
  | esc (lo : Byte) (hi5 : BitVec 5)
  /-- `LCOPYX` (R95, R146): `e` is the extended count byte, at least 2. -/
  | lcopyx (lo : Byte) (hi5 : BitVec 5) (e : Byte)
  /-- `RDB` (R96, R163): `b` is the delta, not 0. -/
  | rdb (b : Byte)
  /-- `RESC` (R97, R165). -/
  | resc
  /-- `REND` (R97, R166). -/
  | rend
  /-- `RDW` (R97, R164): `t` is `total`, at least 2. -/
  | rdw (t : Word)
  deriving DecidableEq, Repr

/-- The two streams (R2). -/
inductive Stream where
  | code
  | reloc
  deriving DecidableEq, Repr

end Sys2Proof
end

