-- ==== Sys2Proof/WellFormed.lean ====
section
/-! DEFINITION. Which terms of `Instr` some bits of a stream spell: the `constraint` column of
`30_encoding.md` R111. -/

namespace Sys2Proof

/-- The constraint of the token's row: `ccc != 000` for `LCOPY` (R94), `e >= 2` for `LCOPYX` (R103),
`b != 0` for `RDB` (R96), `total >= 2` for `RDW` (R97); none for the others. -/
def wellFormed : Instr → Bool
  | .lit _ => true
  | .scopy _ _ => true
  | .lcopy _ _ c => c != 0
  | .endCode _ _ => true
  | .esc _ _ => true
  | .lcopyx _ _ e => 2 ≤ e.toNat
  | .rdb b => b != 0
  | .resc => true
  | .rend => true
  | .rdw t => 2 ≤ t.toNat

/-- The stream a token stands in (R2). -/
def streamOf : Instr → Stream
  | .lit _ => .code
  | .scopy _ _ => .code
  | .lcopy _ _ _ => .code
  | .endCode _ _ => .code
  | .esc _ _ => .code
  | .lcopyx _ _ _ => .code
  | .rdb _ => .reloc
  | .resc => .reloc
  | .rend => .reloc
  | .rdw _ => .reloc

end Sys2Proof
end

