-- ==== Sys2Proof/Decode.lean ====
section
/-! DEFINITION. Decoding a token (`30_encoding.md` R90 to R108, `42_code_tokens.md` R141,
`43_reloc_tokens.md` R160), the encoder and the layout procedure (R113).

The dispatch of each stream is written once, over the stream's read primitives: the machine's fetch runs it
over its registers and `SRC`, the pure decoder below over a list of bytes. -/

namespace Sys2Proof

open Machine (le16 loByte hiByte wordBytes packBits)

/-! ## Dispatch -/

/-- The long-copy family after its two control bits: `lowbyte`, `highbyte` and, when `highbyte[2:0]` is 0,
the extended count byte (R94, R95, R107, R141). -/
def readLongCopy {σ ε : Type} (byte : σ → Except ε (Byte × σ)) (s : σ) : Except ε (Instr × σ) :=
  match byte s with
  | .error e => .error e
  | .ok (lo, s1) =>
    match byte s1 with
    | .error e => .error e
    | .ok (hi, s2) =>
      let hi5 : BitVec 5 := hi.extractLsb' 3 5
      let c : BitVec 3 := hi.extractLsb' 0 3
      if c ≠ 0 then .ok (.lcopy lo hi5 c, s2)
      else
        match byte s2 with
        | .error e => .error e
        | .ok (x, s3) =>
          if x = 0 then .ok (.endCode lo hi5, s3)
          else if x = 1 then .ok (.esc lo hi5, s3)
          else .ok (.lcopyx lo hi5 x, s3)

/-- The short copy after its two selecting control bits: the count field, its more significant bit first
(R105), then the distance byte (R93, R141). -/
def readShortCopy {σ ε : Type} (bit : σ → Except ε (Bool × σ)) (byte : σ → Except ε (Byte × σ)) (s : σ) :
    Except ε (Instr × σ) :=
  match bit s with
  | .error e => .error e
  | .ok (c1, s1) =>
    match bit s1 with
    | .error e => .error e
    | .ok (c0, s2) =>
      match byte s2 with
      | .error e => .error e
      | .ok (db, s3) => .ok (.scopy (BitVec.ofBool c1 ++ BitVec.ofBool c0) db, s3)

/-- One token of the code stream, its control bits and raw bytes read in exactly the order of R141. -/
def readCodeToken {σ ε : Type} (bit : σ → Except ε (Bool × σ)) (byte : σ → Except ε (Byte × σ)) (s : σ) :
    Except ε (Instr × σ) :=
  match bit s with
  | .error e => .error e
  | .ok (true, s1) =>
    match byte s1 with
    | .error e => .error e
    | .ok (b, s2) => .ok (.lit b, s2)
  | .ok (false, s1) =>
    match bit s1 with
    | .error e => .error e
    | .ok (true, s2) => readLongCopy byte s2
    | .ok (false, s2) => readShortCopy bit byte s2

/-- One token of the relocation stream (R107, R160). -/
def readRelocToken {σ ε : Type} (byte : σ → Except ε (Byte × σ)) (word : σ → Except ε (Word × σ)) (s : σ) :
    Except ε (Instr × σ) :=
  match byte s with
  | .error e => .error e
  | .ok (b, s1) =>
    if b ≠ 0 then .ok (.rdb b, s1)
    else
      match word s1 with
      | .error e => .error e
      | .ok (t, s2) =>
        if t = 0 then .ok (.resc, s2)
        else if t = 1 then .ok (.rend, s2)
        else .ok (.rdw t, s2)

/-! ## The pure decoder -/

/-- Why the pure decoder stops. No bits are illegal (R108): the only way to fail is to run out of bytes. -/
inductive DecodeError where
  /-- Fewer bytes are left than the token reads (R107, R137, R161). -/
  | truncated
  deriving DecidableEq, Repr

/-- The position in a code payload (R28): the buffered control bits, how many are unread, the bytes ahead
of the cursor. -/
structure CodePos where
  buf : Word
  cnt : BitVec 5
  bytes : List Byte
  deriving DecidableEq, Repr

/-- `NEXT_BIT` before its refill (R132): the bit delivered, the shifted buffer, the decremented count. -/
def takeBit (buf : Word) (cnt : BitVec 5) : Bool × Word × BitVec 5 :=
  (buf.getLsbD 0, buf >>> 1, cnt - 1)

/-- `NEXT_BIT` over a list of bytes (R132), with its eager refill (R136). -/
def posBit (p : CodePos) : Except DecodeError (Bool × CodePos) :=
  match takeBit p.buf p.cnt with
  | (b, buf, cnt) =>
    if cnt = 0 then
      match p.bytes with
      | lo :: hi :: rest => .ok (b, { buf := le16 lo hi, cnt := 16, bytes := rest })
      | _ => .error .truncated
    else .ok (b, { p with buf := buf, cnt := cnt })

/-- `NEXT_BYTE` over a list of bytes (R133). -/
def posByte (p : CodePos) : Except DecodeError (Byte × CodePos) :=
  match p.bytes with
  | b :: rest => .ok (b, { p with bytes := rest })
  | [] => .error .truncated

/-- `BRD.INIT` over the bytes of a code payload (R131). -/
def posInit : List Byte → Except DecodeError CodePos
  | lo :: hi :: rest => .ok { buf := le16 lo hi, cnt := 16, bytes := rest }
  | _ => .error .truncated

/-- Decode one code token at a position. Total on any bits and bytes (R108). -/
def decodeCode (p : CodePos) : Except DecodeError (Instr × CodePos) :=
  readCodeToken posBit posByte p

/-- `RBYTE` over a list of bytes (R161). -/
def listByte : List Byte → Except DecodeError (Byte × List Byte)
  | b :: rest => .ok (b, rest)
  | [] => .error .truncated

/-- `RWORD` over a list of bytes (R161): all or nothing (R71). -/
def listWord : List Byte → Except DecodeError (Word × List Byte)
  | lo :: hi :: rest => .ok (le16 lo hi, rest)
  | _ => .error .truncated

/-- Decode one relocation token from the bytes ahead of `RCUR`. Total on any bytes (R108). -/
def decodeReloc (bs : List Byte) : Except DecodeError (Instr × List Byte) :=
  readRelocToken listByte listWord bs

/-- Is this the terminator of its stream (R149, R166)? -/
def isTerminator : Instr → Bool
  | .lit _ => false
  | .scopy _ _ => false
  | .lcopy _ _ _ => false
  | .endCode _ _ => true
  | .esc _ _ => false
  | .lcopyx _ _ _ => false
  | .rdb _ => false
  | .resc => false
  | .rend => true
  | .rdw _ => false

/-- The tokens of a code stream up to and with its `END` (the loop of R140); `fuel` bounds their number. -/
def decodeCodeAll : Nat → CodePos → Except DecodeError (List Instr × CodePos)
  | 0, _ => .error .truncated
  | fuel + 1, p =>
    match decodeCode p with
    | .error e => .error e
    | .ok (i, p1) =>
      if isTerminator i then .ok ([i], p1)
      else
        match decodeCodeAll fuel p1 with
        | .error e => .error e
        | .ok (is, p2) => .ok (i :: is, p2)

/-- The tokens of a relocation stream up to and with its `REND` (the loop of R160). -/
def decodeRelocAll : Nat → List Byte → Except DecodeError (List Instr × List Byte)
  | 0, _ => .error .truncated
  | fuel + 1, bs =>
    match decodeReloc bs with
    | .error e => .error e
    | .ok (i, bs1) =>
      if isTerminator i then .ok ([i], bs1)
      else
        match decodeRelocAll fuel bs1 with
        | .error e => .error e
        | .ok (is, bs2) => .ok (i :: is, bs2)

/-! ## The encoder -/

/-- The control bits of a token in the order read (R92 to R97). -/
def controlBits : Instr → List Bool
  | .lit _ => [true]
  | .scopy c _ => [false, false, c.getLsbD 1, c.getLsbD 0]
  | .lcopy _ _ _ => [false, true]
  | .endCode _ _ => [false, true]
  | .esc _ _ => [false, true]
  | .lcopyx _ _ _ => [false, true]
  | .rdb _ => []
  | .resc => []
  | .rend => []
  | .rdw _ => []

/-- The raw bytes of a token in the order read (R92 to R97). -/
def rawBytes : Instr → List Byte
  | .lit b => [b]
  | .scopy _ db => [db]
  | .lcopy lo hi5 c => [lo, hi5 ++ c]
  | .endCode lo hi5 => [lo, hi5 ++ (0 : BitVec 3), 0]
  | .esc lo hi5 => [lo, hi5 ++ (0 : BitVec 3), 1]
  | .lcopyx lo hi5 e => [lo, hi5 ++ (0 : BitVec 3), e]
  | .rdb b => [b]
  | .resc => [0, 0, 0]
  | .rend => [0, 1, 0]
  | .rdw t => [0, loByte t, hiByte t]

/-- The bytes of a token that stands alone: a code token in a control word of its own, then its raw bytes
(R91); a relocation token is its raw bytes (R90). -/
def encode (i : Instr) : List Byte :=
  match streamOf i with
  | .code => wordBytes (packBits (controlBits i)) ++ rawBytes i
  | .reloc => rawBytes i

/-- Decode a token that stands alone in its stream's form; the inverse of `encode`. -/
def decodeAlone : Stream → List Byte → Except DecodeError Instr
  | .code, bs =>
    match posInit bs with
    | .error e => .error e
    | .ok p =>
      match decodeCode p with
      | .error e => .error e
      | .ok (i, _) => .ok i
  | .reloc, bs =>
    match decodeReloc bs with
    | .error e => .error e
    | .ok (i, _) => .ok i

/-- The number of bits of the logical image (R90, column `width` of R111). -/
def imageWidth (i : Instr) : Nat := (controlBits i).length + 8 * (rawBytes i).length

/-- The logical image as a binary number, the first control bit its most significant bit (R90). -/
def imageNat (i : Instr) : Nat :=
  (rawBytes i).foldl (fun acc b => 256 * acc + b.toNat)
    ((controlBits i).foldl (fun acc b => 2 * acc + b.toNat) 0)

/-- What `opcode_table.json` fixes of a row (R111): the logical image's width, `match` and `mask`. -/
structure TableRow where
  width : Nat
  opcode : Nat
  mask : Nat
  deriving DecidableEq, Repr

/-- The row of a token (R111). -/
def tableRow : Instr → TableRow
  | .lit _ => { width := 9, opcode := 0x100, mask := 0x100 }
  | .scopy _ _ => { width := 12, opcode := 0x0, mask := 0xC00 }
  | .lcopy _ _ _ => { width := 18, opcode := 0x10000, mask := 0x30000 }
  | .endCode _ _ => { width := 26, opcode := 0x1000000, mask := 0x30007FF }
  | .esc _ _ => { width := 26, opcode := 0x1000001, mask := 0x30007FF }
  | .lcopyx _ _ _ => { width := 26, opcode := 0x1000000, mask := 0x3000700 }
  | .rdb _ => { width := 8, opcode := 0x0, mask := 0x0 }
  | .resc => { width := 24, opcode := 0x0, mask := 0xFFFFFF }
  | .rend => { width := 24, opcode := 0x100, mask := 0xFFFFFF }
  | .rdw _ => { width := 24, opcode := 0x0, mask := 0xFF0000 }

/-! ## Layout of a code stream (R113) -/

/-- The byte list `P` of R113 split at the open slot: the bytes before it, the bytes after it; the word `w`
and the bit count `k` of the open control word. -/
structure Layout where
  before : List Byte
  after : List Byte
  w : Word
  k : Nat
  deriving DecidableEq, Repr

/-- The start of R113: one open slot. -/
def layoutStart : Layout := { before := [], after := [], w := 0, k := 0 }

/-- Emit one control bit (R113): a sixteenth bit closes the slot and opens the next one after every byte
emitted so far. -/
def layoutBit (l : Layout) (x : Bool) : Layout :=
  let w := l.w ||| ((if x then (1 : Word) else 0) <<< l.k)
  if l.k + 1 = 16 then
    { before := l.before ++ wordBytes w ++ l.after, after := [], w := 0, k := 0 }
  else { l with w := w, k := l.k + 1 }

/-- Emit one token: all its control bits, then all its raw bytes (R113). -/
def layoutToken (l : Layout) (i : Instr) : Layout :=
  let l1 := (controlBits i).foldl layoutBit l
  { l1 with after := l1.after ++ rawBytes i }

/-- Close the last slot (R113). -/
def layoutFinish (l : Layout) : List Byte := l.before ++ wordBytes l.w ++ l.after

/-- The code payload of a list of code tokens (R113). -/
def layoutCode (is : List Instr) : List Byte := layoutFinish (is.foldl layoutToken layoutStart)

/-- The relocation payload of a list of relocation tokens: the concatenation of their bytes (R113). -/
def layoutReloc (is : List Instr) : List Byte := is.flatMap rawBytes

/-! ## Words of the opcode table -/

/-- A token's image laid out as the block reads it: a control word and raw bytes, or raw bytes alone. -/
inductive TableImage where
  | code (ctrl : Word) (bytes : List Byte)
  | reloc (bytes : List Byte)
  deriving DecidableEq, Repr

/-- Bit `k` of `w` as a control bit. -/
def tableBit (w k : Nat) : Bool := w.testBit k

/-- Byte `k` of `w`, byte 0 its least significant one. -/
def tableByte (w k : Nat) : Byte := BitVec.ofNat 8 (w >>> (8 * k))

/-- The `k` control bits above the `8 * m` bits of the raw bytes, most significant first (R90). -/
def tableControl (w m : Nat) : Nat → List Bool
  | 0 => []
  | k + 1 => tableBit w (8 * m + k) :: tableControl w m k

/-- The `m` raw bytes of the image, most significant first (R90). -/
def tableRaw (w : Nat) : Nat → List Byte
  | 0 => []
  | m + 1 => tableByte w m :: tableRaw w m

/-- A code image of `k` control bits and `m` raw bytes; bytes the table gives the row no bits for are 0. -/
def tableCode (k m w : Nat) : Option TableImage :=
  if w < 2 ^ (k + 8 * m) then
    some (.code (packBits (tableControl w m k)) (tableRaw w m ++ List.replicate (3 - m) 0))
  else none

/-- A relocation image of `m` raw bytes, filled with zero bytes up to three. -/
def tableReloc (m w : Nat) : Option TableImage :=
  if w < 2 ^ (8 * m) then some (.reloc (tableRaw w m ++ List.replicate (3 - m) 0)) else none

/-- The image of a table word, from the number of bits the table gives its row (R111: 9, 12, 18, 26, 8 or
24), or that number in whole bytes (log entry 16: 16 bits are a `LIT` when bit 8 is the highest bit set, else
a `SCOPY`; 24 bits are a relocation token when the top byte is 0, else an `LCOPY`). -/
def tableImage (nbits w : Nat) : Option TableImage :=
  match nbits with
  | 8 => tableReloc 1 w
  | 9 => tableCode 1 1 w
  | 12 => tableCode 4 1 w
  | 16 => if w / 256 = 1 then tableCode 1 1 w else tableCode 4 1 w
  | 18 => tableCode 2 2 w
  | 24 => if w / 65536 = 0 then tableReloc 3 w else tableCode 2 2 w
  | 26 => tableCode 2 3 w
  | 32 => tableCode 2 3 w
  | _ => none

/-- The instruction the decoder reads from a word of the opcode table, laid out as the block stores it. -/
def decodeTableWord (nbits w : Nat) : Option Instr :=
  match tableImage nbits w with
  | none => none
  | some (.code ctrl bytes) =>
    match decodeCode { buf := ctrl, cnt := 16, bytes := bytes } with
    | .ok (i, _) => some i
    | .error _ => none
  | some (.reloc bytes) =>
    match decodeReloc bytes with
    | .ok (i, _) => some i
    | .error _ => none

end Sys2Proof
end

