-- ==== Sys2Proof/Machine/Records.lean ====
section
/-! DEFINITION. The named values and the record registers of the block (`10_state.md`, `60_exceptions.md`). -/

namespace Sys2Proof.Machine

/-- The sequencer's position, one of nine values (R22). -/
inductive Phase where
  | idle | sHdr | sCode | sRel | sRegs | sBuild | sEmit | done | fault
  deriving DecidableEq, Repr

/-- The six kinds of fault of the block (R205). Raising one is a next state (`raise`, R214). -/
inductive FaultKind where
  | malformedHeader | truncatedStream | badBackReference | outputOverflow | relocOverflow | fieldOverflow
  deriving DecidableEq, Repr

/-- The units that raise a fault (R206); the bit reader reports as `dce`. -/
inductive UnitId where
  | seq | hdc | dce | rtd | hrc
  deriving DecidableEq, Repr

/-- The four address spaces (R60). -/
inductive Space where
  | src | out | rel | result
  deriving DecidableEq, Repr

/-- The executable header, fourteen fields in serialized order; `magic` is two bytes kept in address order
(R35, R98). -/
structure Header where
  magic0 : Byte
  magic1 : Byte
  lastPageBytes : Word
  pageCount : Word
  relocationItemCount : Word
  headerParagraphs : Word
  minalloc : Word
  maxalloc : Word
  ss : Word
  sp : Word
  checksum : Word
  ip : Word
  cs : Word
  relocationTableOffset : Word
  overlayNumber : Word
  deriving DecidableEq, Repr, Inhabited

/-- The recovered entry-point registers, in the order of the register block (R36, R99). -/
structure EntryRegs where
  ip : Word
  cs : Word
  sp : Word
  ss : Word
  deriving DecidableEq, Repr, Inhabited

/-- The registers but `PHASE`, `CAUSE`, `FUNIT` and `N`: those that hold no value when a job starts (R21) and no
specified one after a fault (R214). -/
structure InternalRegs where
  payBase : Nat
  payLimit : Nat
  regBase : Nat
  relBase : Nat
  relLimit : Nat
  hin : Header
  ep : EntryRegs
  hout : Header
  bitBuf : Word
  bitCnt : BitVec 5
  cur : Nat
  olen : Nat
  rcur : Nat
  acc : BitVec 20
  rcount : Nat
  deriving DecidableEq, Repr, Inhabited

end Sys2Proof.Machine
end

