-- ==== Sys2Proof/Config.lean ====
section
/-! DEFINITION. What the spec leaves open for good: the values of registers and memories that hold no specified
value. The parameters of `00_scope.md` R7 that have a value stand in `Machine/Params.lean`; the OPEN parameters
`OUT_CAP` and `REL_CAP` are the fields `outCap` and `relCap` of `State`, so that a claim holds for every value of
them. -/

namespace Sys2Proof

/-- FREE VALUE (log entries 5, 6). The registers that hold no value when a job starts (R21) or that R214 leaves
"unspecified" after a fault, as a function of the number of the draw. No value of it can be proved: nothing may
depend on them (U9, U10). -/
opaque Config.unspecified : Nat → Machine.InternalRegs

/-- FREE VALUE (log entry 5). The cells of `OUT` that R214 leaves "unspecified" after a fault. -/
opaque Config.unspecifiedOut : Nat → List (Nat × Byte)

/-- FREE VALUE (log entry 5). The entries of `REL` that R214 leaves "unspecified" after a fault. -/
opaque Config.unspecifiedRel : Nat → List (Nat × BitVec 20)

end Sys2Proof
end

