-- ==== Sys2Proof/Machine/State.lean ====
section
/-! DEFINITION. The state of the block (`10_state.md` R20), its reset, and the reasons a step can stop. -/

namespace Sys2Proof.Machine

/-- A memory: its cells that hold a value, addresses strictly rising (`memWf`). A cell not listed holds no
value (R21; log entry 2). -/
abbrev Mem (α : Type) := List (Nat × α)

/-- A byte-addressed memory (R60). -/
abbrev Memory := Mem (BitVec 8)

/-- A move of the host (R246), taken by the block between two of its own steps (log entry 7). -/
inductive HostMove where
  /-- Write bytes of `SRC` from an address up (R243). -/
  | writeSrc (addr : Nat) (bytes : List Byte)
  /-- Write `N` (R25, R243). -/
  | writeN (n : Nat)
  /-- The command `START` (R199). -/
  | start
  /-- Power-on reset (R240). -/
  | reset
  deriving DecidableEq, Repr

/-- The state of the block: exactly the registers and memories of R20, and four fields of the model's own
(`outCap`, `relCap`, `inbox`, `free`). -/
structure State where
  /-- `PHASE` (R22). -/
  phase : Phase
  /-- `CAUSE` (R24). -/
  cause : BitVec 3
  /-- `FUNIT` (R24). -/
  funit : BitVec 3
  /-- `N` (R25). -/
  n : Nat
  /-- `PAY_BASE` (R26). -/
  payBase : Nat
  /-- `PAY_LIMIT` (R26). -/
  payLimit : Nat
  /-- `REG_BASE` (R26). -/
  regBase : Nat
  /-- `REL_BASE` (R26). -/
  relBase : Nat
  /-- `REL_LIMIT` (R26). -/
  relLimit : Nat
  /-- `HIN`, the parsed input header (R35). -/
  hin : Header
  /-- `EP`, the recovered entry-point registers (R36). -/
  ep : EntryRegs
  /-- `HOUT`, the new header (R37). -/
  hout : Header
  /-- `BITBUF` (R27). -/
  bitBuf : Word
  /-- `BITCNT`, 5 bits (R27). -/
  bitCnt : BitVec 5
  /-- `CUR`, the program counter of the code stream (R28). -/
  cur : Nat
  /-- `OLEN` (R30). -/
  olen : Nat
  /-- `RCUR`, the program counter of the relocation stream (R33). -/
  rcur : Nat
  /-- `ACC`, `ACC_W` = 20 bits (R32). -/
  acc : BitVec 20
  /-- `RCOUNT` (R34). -/
  rcount : Nat
  /-- `SRC`, the input image (R61). -/
  src : Memory
  /-- `OUT`, the decompressed code (R63). -/
  out : Memory
  /-- `REL`, the recovered relocation values, entry-addressed (R64). -/
  rel : Mem (BitVec 20)
  /-- `RESULT`, the output image (R65). -/
  result : Memory
  /-- The model's own: the OPEN parameter `OUT_CAP`, `none` when unbounded (R7; log entry 4). -/
  outCap : Option Nat
  /-- The model's own: the OPEN parameter `REL_CAP`, `none` when unbounded (R7; log entry 4). -/
  relCap : Option Nat
  /-- The model's own: host moves the block has not yet seen, oldest first (log entry 7). -/
  inbox : List HostMove
  /-- The model's own: the number of the next free value (log entries 5, 6). -/
  free : Nat
  deriving DecidableEq, Repr

/-- Why a step of the model stops. The block's own six faults are next states (`raise`), not these. -/
inductive Fault where
  /-- A read of a memory cell that holds no value (R21), raised by every read of `SRC`, `OUT` and `REL`. Safe:
  the model stops where the hardware would read something the spec does not name. -/
  | noValue (space : Space) (addr : Nat)
  /-- A read of `SRC` at or above `N`, an address that does not exist (R61), raised by every read of `SRC`.
  Safe: the model stops where the hardware would read something the spec does not name. -/
  | noSuchAddress (space : Space) (addr : Nat)
  deriving DecidableEq, Repr

/-- What the model gives no meaning. -/
inductive Refusal where
  /-- An instruction without a meaning, answered by a refused arm of `exec` alone; no arm answers so now.
  Safe. -/
  | notModelled (mnemonic : String)
  /-- A host write of `SRC` or `N` while `STATUS = RUN`, raised by `hostMove`: R251 gives no meaning to a job
  whose input changed under it (U8, log entry 8). Safe. -/
  | hostWroteDuringJob
  deriving DecidableEq, Repr

/-- DESIGN CHOICE (log entry 1): the value at reset of a header register, which R40 gives none. -/
def Header.zero : Header :=
  { magic0 := 0, magic1 := 0, lastPageBytes := 0, pageCount := 0, relocationItemCount := 0,
    headerParagraphs := 0, minalloc := 0, maxalloc := 0, ss := 0, sp := 0, checksum := 0, ip := 0, cs := 0,
    relocationTableOffset := 0, overlayNumber := 0 }

/-- The block right after power-on reset: `PHASE = IDLE`, `CAUSE = 0`, `FUNIT = 0`, every memory without a
value (R40, R240). The other registers are 0 (DESIGN CHOICE, log entry 1); both capacities are unbounded
(log entry 4), no host move is pending (log entry 7) and no free value is drawn (log entry 5). -/
def State.reset : State :=
  { phase := .idle, cause := 0, funit := 0, n := 0,
    payBase := 0, payLimit := 0, regBase := 0, relBase := 0, relLimit := 0,
    hin := Header.zero, ep := { ip := 0, cs := 0, sp := 0, ss := 0 }, hout := Header.zero,
    bitBuf := 0, bitCnt := 0, cur := 0, olen := 0, rcur := 0, acc := 0, rcount := 0,
    src := [], out := [], rel := [], result := [],
    outCap := none, relCap := none, inbox := [], free := 0 }

end Sys2Proof.Machine
end

