-- ==== Sys2Proof/Machine/Flags.lean ====
section
/-! DEFINITION. The only flags of the block are the two bits of `STATUS` (`10_state.md` R23); no token sets or
reads a flag. -/

namespace Sys2Proof.Machine

/-- `STATUS`, the host-readable view of `PHASE` (R23): 0 `IDLE`, 1 `RUN`, 2 `DONE`, 3 `FAULT`. -/
def statusOf : Phase → BitVec 2
  | .idle => 0
  | .sHdr => 1
  | .sCode => 1
  | .sRel => 1
  | .sRegs => 1
  | .sBuild => 1
  | .sEmit => 1
  | .done => 2
  | .fault => 3

/-- `STATUS = RUN` (R23). -/
def running (s : State) : Bool := statusOf s.phase == 1

/-- The *finished* flag, bit 1 of `STATUS` (R23). -/
def finishedFlag (s : State) : Bool := (statusOf s.phase).getLsbD 1

/-- The *failed* flag, bit 0 of `STATUS`, a flag when bit 1 is set (R23). -/
def failedFlag (s : State) : Bool := finishedFlag s && (statusOf s.phase).getLsbD 0

end Sys2Proof.Machine
end

