-- ==== Sys2Proof/Machine/Params.lean ====
section
/-! DEFINITION. The implementation parameters that have a value (`00_scope.md` R7). -/

namespace Sys2Proof.Machine

/-- `HDR_LEN`: length of the serialized header in bytes. -/
abbrev hdrLen : Nat := 28

/-- `PAGE`: page size of `page_count` and `last_page_bytes`. -/
abbrev pageSize : Nat := 512

/-- `PARA`: paragraph size in bytes. -/
abbrev paraSize : Nat := 16

/-- `REGBLK_LEN`: length of the entry-point register block. -/
abbrev regblkLen : Nat := 8

/-- `REL_TABLE_OFF`: offset of the relocation payload from the loader offset (R192). -/
abbrev relTableOff : Nat := 0x158

/-- `RESC_DELTA`: what the relocation escape adds to the accumulator (R165; log entry 15). -/
abbrev rescDelta : Nat := 0xFFF

/-- `RELENT_LEN`: length of one serialized relocation entry (R100). -/
abbrev relentLen : Nat := 4

/-- `NEW_RELOC_OFF`: the new header's `relocation_table_offset` (R179). -/
abbrev newRelocOff : Word := 28

/-- `MAGIC`, first byte (R179; PRESUMED, log entry 12). -/
abbrev magicByte0 : Byte := 0x4D

/-- `MAGIC`, second byte (R179; PRESUMED, log entry 12). -/
abbrev magicByte1 : Byte := 0x5A

/-- The largest value of `ACC_W` = 20 bits (R162). -/
abbrev accMax : Nat := 0xFFFFF

/-- The largest value of a 16-bit header field (R181). -/
abbrev fieldMax : Nat := 0xFFFF

/-- `PAYLOAD_START(h)`: first byte of the code payload (R191; PRESUMED, log entry 11). -/
def payloadStart (h : Header) : Nat := paraSize * h.headerParagraphs.toNat

/-- `LOADER_OFF(h)`: the loader offset, on unbounded integers (R191; PRESUMED, log entry 11). -/
def loaderOff (h : Header) : Nat := paraSize * (h.headerParagraphs.toNat + h.cs.toNat)

/-- The numeric codes of `CAUSE` (R206). -/
def causeCode : FaultKind → BitVec 3
  | .malformedHeader => 1
  | .truncatedStream => 2
  | .badBackReference => 3
  | .outputOverflow => 4
  | .relocOverflow => 5
  | .fieldOverflow => 6

/-- The numeric codes of `FUNIT` (R206). -/
def unitCode : UnitId → BitVec 3
  | .seq => 1
  | .hdc => 2
  | .dce => 3
  | .rtd => 4
  | .hrc => 5

end Sys2Proof.Machine
end

