-- ==== Sys2Proof/Machine/Ops.lean ====
section
/-! DEFINITION. The named operations over memory and registers, and the fault entry `raise` (`20_memory.md`,
`60_exceptions.md` R214). -/

namespace Sys2Proof.Machine

/-! ## Memory -/

/-- The canonical form: the addresses strictly rise. An unlisted cell holds no value, so no entry is equal to
what an unlisted address reads as. -/
abbrev memWf {α : Type} (m : Mem α) : Prop := (m.map Prod.fst).Pairwise (· < ·)

/-- The value of one cell; `none` where it holds none (R21). -/
def memRead {α : Type} : Mem α → Nat → Option α
  | [], _ => none
  | (k, v) :: rest, a => if a = k then some v else memRead rest a

/-- Write one cell, keeping the addresses strictly rising. -/
def memWrite {α : Type} : Mem α → Nat → α → Mem α
  | [], a, x => [(a, x)]
  | (k, v) :: rest, a, x =>
    if a < k then (a, x) :: (k, v) :: rest
    else if a = k then (a, x) :: rest
    else (k, v) :: memWrite rest a x

/-- Write a sequence of values from an address up. -/
def memWriteList {α : Type} : Mem α → Nat → List α → Mem α
  | m, _, [] => m
  | m, a, x :: xs => memWriteList (memWrite m a x) (a + 1) xs

/-- The memory that holds exactly a sequence of values, from address 0 up. -/
def memOfList {α : Type} (xs : List α) : Mem α := memWriteList [] 0 xs

/-- The memory that holds the listed cells, in canonical form; of two cells at one address the first counts. -/
def memOfCells {α : Type} : List (Nat × α) → Mem α
  | [] => []
  | (a, x) :: cells => memWrite (memOfCells cells) a x

/-- A read of `OUT` or `REL`: a cell that holds no value stops the model (R21). -/
def cellRead {α : Type} (sp : Space) (m : Mem α) (a : Nat) : Except Fault α :=
  match memRead m a with
  | some v => .ok v
  | none => .error (.noValue sp a)

/-- A read of `len` cells from an address up, in ascending order. -/
def cellReadRange {α : Type} (sp : Space) (m : Mem α) : Nat → Nat → Except Fault (List α)
  | _, 0 => .ok []
  | a, len + 1 =>
    match cellRead sp m a with
    | .error f => .error f
    | .ok v =>
      match cellReadRange sp m (a + 1) len with
      | .error f => .error f
      | .ok vs => .ok (v :: vs)

/-- `MemRead(SRC, a, 1)` (R62). Addresses `N` and above do not exist (R61). -/
def srcRead8 (s : State) (a : Nat) : Except Fault Byte :=
  if s.n ≤ a then .error (.noSuchAddress .src a) else cellRead .src s.src a

/-- `MemRead(SRC, a, 2)`: the byte at the lower address is the low byte (R62); no alignment (R69). -/
def srcRead16 (s : State) (a : Nat) : Except Fault Word :=
  match srcRead8 s a with
  | .error f => .error f
  | .ok lo =>
    match srcRead8 s (a + 1) with
    | .error f => .error f
    | .ok hi => .ok (le16 lo hi)

/-- `len` bytes of `SRC` from an address up, in ascending order. -/
def srcReadRange (s : State) : Nat → Nat → Except Fault (List Byte)
  | _, 0 => .ok []
  | a, len + 1 =>
    match srcRead8 s a with
    | .error f => .error f
    | .ok b =>
      match srcReadRange s (a + 1) len with
      | .error f => .error f
      | .ok bs => .ok (b :: bs)

/-- Does a length stay within a capacity (`OUT_CAP`, `REL_CAP`; `none` is unbounded, R63, R64)? -/
def withinCap (len : Nat) : Option Nat → Bool
  | none => true
  | some cap => len ≤ cap

/-! ## Outcomes -/

/-- The outcome of a step of this block. -/
abbrev Result := Host.Outcome State Fault Refusal

/-- A read that a step performs: its value and the state after it, or the outcome the step ends in. -/
abbrev Read (α : Type) := Except Result (α × State)

/-- One part of a step: the state it hands to the next part, or the outcome the step ends in. -/
abbrev Part := Except Result State

/-! ## Values that are not specified, and the fault entry -/

/-- Every register but `PHASE`, `CAUSE`, `FUNIT` and `N` takes a free value (log entries 5, 6). -/
def forgetRegs (s : State) : State :=
  let r := Config.unspecified s.free
  { s with
    free := s.free + 1,
    payBase := r.payBase, payLimit := r.payLimit, regBase := r.regBase, relBase := r.relBase,
    relLimit := r.relLimit, hin := r.hin, ep := r.ep, hout := r.hout, bitBuf := r.bitBuf,
    bitCnt := r.bitCnt, cur := r.cur, olen := r.olen, rcur := r.rcur, acc := r.acc, rcount := r.rcount }

/-- `raise F(u)` (R214), one atomic step: `CAUSE`, `FUNIT`, `PHASE = FAULT`; `RESULT` holds no value; every other
register and memory of the block is unspecified, so it takes a free value (log entry 5); `SRC` and `N` are the
host's. There is no vector, no handler and no return (R214, R216). -/
def raise (k : FaultKind) (u : UnitId) (s : State) : State :=
  { forgetRegs s with
    phase := .fault, cause := causeCode k, funit := unitCode u, result := [],
    out := memOfCells (Config.unspecifiedOut s.free), rel := memOfCells (Config.unspecifiedRel s.free) }

/-- `raise F(u)` by a token: faults are precise at token grain, so that `OUT`, `REL`, `OLEN`, `RCOUNT` and `ACC`
are as the token found them (R215; log entry 5). -/
def raiseToken (k : FaultKind) (u : UnitId) (s : State) : State :=
  { raise k u s with out := s.out, rel := s.rel, olen := s.olen, rcount := s.rcount, acc := s.acc }

/-- The outcome of a unit operation that raises: the next state is the one after the fault entry. -/
def raised (k : FaultKind) (u : UnitId) (s : State) : Result := .next (raise k u s)

/-- The outcome of a token that raises. -/
def raisedToken (k : FaultKind) (u : UnitId) (s : State) : Result := .next (raiseToken k u s)

/-! ## Writes of the two decoders -/

/-- The state after one byte is appended to `OUT` (R63, R142), capacity aside. -/
def pushOut (s : State) (v : Byte) : State :=
  { s with out := memWrite s.out s.olen v, olen := s.olen + 1 }

/-- `APPEND(v)` (R142). -/
def append (v : Byte) (s : State) : Result :=
  if withinCap (s.olen + 1) s.outCap then .next (pushOut s v) else raisedToken .outputOverflow .dce s

/-- The loop of `COPY` (R148): `k` bytes, each read from `OUT` after the one before it is appended (R84).
`a` is the address of the next source byte. -/
def copyLoop : Nat → Nat → State → Result
  | 0, _, s => .next s
  | k + 1, a, s =>
    match cellRead .out s.out a with
    | .error f => .fault f
    | .ok v => copyLoop k (a + 1) (pushOut s v)

/-- `COPY(d, n)` (R148): both checks, `BadBackReference` first (R220), come before the first byte. -/
def copy (d : Int) (n : Nat) (s : State) : Result :=
  if (s.olen : Int) + d < 0 then raisedToken .badBackReference .dce s
  else if !withinCap (s.olen + n) s.outCap then raisedToken .outputOverflow .dce s
  else copyLoop n ((s.olen : Int) + d).toNat s

/-- One chunk of a copy done in bulk (R150): `k` bytes read at `a` at once, then appended. -/
def copyChunk (k a : Nat) (s : State) : Result :=
  match cellReadRange .out s.out a k with
  | .error f => .fault f
  | .ok vs => .next (vs.foldl pushOut s)

/-- A copy done in chunks of the given sizes (R150), the source position moving on by each size. -/
def copyInChunks : List Nat → Nat → State → Result
  | [], _, s => .next s
  | k :: ks, a, s =>
    match copyChunk k a s with
    | .next s1 => copyInChunks ks (a + k) s1
    | .fault f => .fault f
    | .refused r => .refused r

/-- `ADD(x)` (R162): `ACC` never wraps. -/
def accumulate (x : Nat) (s : State) : Result :=
  if accMax < s.acc.toNat + x then raisedToken .relocOverflow .rtd s
  else .next { s with acc := BitVec.ofNat 20 (s.acc.toNat + x) }

/-- `ADD(x)` then `EMIT()` (R162, R167), the checks of both before the first write, so that a faulting token
leaves `ACC` and `REL` alone (R215, R220; log entry 10). -/
def accumulateEmit (x : Nat) (s : State) : Result :=
  if accMax < s.acc.toNat + x then raisedToken .relocOverflow .rtd s
  else if !withinCap (s.rcount + 1) s.relCap then raisedToken .outputOverflow .rtd s
  else
    let v := BitVec.ofNat 20 (s.acc.toNat + x)
    .next { s with acc := v, rel := memWrite s.rel s.rcount v, rcount := s.rcount + 1 }

/-! ## Leaving and entering the phases of the two decoders (R193) -/

/-- Enter `S_REL` (R193 step 4): the start of `RTD.RUN` (R160). -/
def enterReloc (s : State) : State :=
  { s with phase := .sRel, rcur := s.relBase, acc := 0, rcount := 0, rel := [] }

/-- Enter `S_REGS` (R193 step 5). -/
def enterRegs (s : State) : State := { s with phase := .sRegs }

end Sys2Proof.Machine
end

