-- ==== Sys2Proof/Machine/BitReader.lean ====
section
/-! DEFINITION. The bit reader (`41_bit_reader.md`) and the fetch of one code token (`42_code_tokens.md`
R141). -/

namespace Sys2Proof.Machine

/-- `FETCH16` (R134): all or nothing at `PAY_LIMIT` (R71, R83). `fail` is how its caller raises: `raised` in
`BRD.INIT`, `raisedToken` in a token's refill (R215). -/
def fetch16 (fail : FaultKind → UnitId → State → Result) (s : State) : Read Word :=
  if s.payLimit < s.cur + 2 then .error (fail .truncatedStream .dce s)
  else
    match srcRead16 s s.cur with
    | .error f => .error (.fault f)
    | .ok v => .ok (v, { s with cur := s.cur + 2 })

/-- `BRD.INIT` (R131): the start of a code payload; `BITBUF` is its first word, `BITCNT` 16. -/
def initBits (s : State) : Part :=
  match fetch16 raised { s with cur := s.payBase } with
  | .error o => .error o
  | .ok (w, s1) => .ok { s1 with bitBuf := w, bitCnt := 16 }

/-- `NEXT_BIT` (R132). The refill is eager: it is done by the call that delivers the sixteenth bit, and a
refill that cannot be done raises in that call (R136, R137). -/
def nextBit (s : State) : Read Bool :=
  match takeBit s.bitBuf s.bitCnt with
  | (b, buf, cnt) =>
    if cnt = 0 then
      match fetch16 raisedToken { s with bitBuf := buf, bitCnt := cnt } with
      | .error o => .error o
      | .ok (w, s1) => .ok (b, { s1 with bitBuf := w, bitCnt := 16 })
    else .ok (b, { s with bitBuf := buf, bitCnt := cnt })

/-- `NEXT_BYTE` (R133). -/
def nextByte (s : State) : Read Byte :=
  if s.payLimit < s.cur + 1 then .error (raisedToken .truncatedStream .dce s)
  else
    match srcRead8 s s.cur with
    | .error f => .error (.fault f)
    | .ok v => .ok (v, { s with cur := s.cur + 1 })

/-- Fetch one token of the code stream: every read of the token, before any of its effects (R141). -/
def fetchCode (s : State) : Read Instr := readCodeToken nextBit nextByte s

end Sys2Proof.Machine
end

