-- ==== Sys2Proof/Machine/Operands.lean ====
section
/-! DEFINITION. How the operands of the tokens are assembled (`30_encoding.md` R101 to R106). -/

namespace Sys2Proof.Machine

/-- `sext_16` (R9): a 16-bit pattern read as two's complement. -/
def sext16 (v : Word) : Int := v.toInt

/-- `highbyte` from its two fields (R94, R95). -/
def highByte (hi5 : BitVec 5) (c : BitVec 3) : Byte := hi5 ++ c

/-- The 16-bit pattern of a long distance (R101); `highbyte << 5` is not truncated before the mask. -/
def longPattern (lo hi : Byte) : Word :=
  0xE000#16 ||| ((hi.setWidth 16 <<< 5) &&& 0xFF00#16) ||| lo.setWidth 16

/-- The long distance `d`, -8192 to -1 (R101). -/
def longDistance (lo hi : Byte) : Int := sext16 (longPattern lo hi)

/-- The long count `n`, 3 to 9 (R102). -/
def longCount (hi : Byte) : Nat := (hi &&& 0x07#8).toNat + 2

/-- The extended count `n`, 3 to 256 (R103). -/
def extendedCount (e : Byte) : Nat := e.toNat + 1

/-- The short distance `d`, -256 to -1 (R104). -/
def shortDistance (db : Byte) : Int := sext16 (0xFF00#16 + db.setWidth 16)

/-- The short count `n`, 2 to 5 (R105). -/
def shortCount (c : BitVec 2) : Nat := c.toNat + 2

/-- The delta of `RDB`, zero-extended (R106). -/
def byteDelta (b : Byte) : Nat := b.toNat

/-- The delta of `RDW`, `total` (R106). -/
def wordDelta (t : Word) : Nat := t.toNat

end Sys2Proof.Machine
end

