-- ==== Sys2Proof/Machine/CodeTokens.lean ====
section
/-! DEFINITION. The meanings of the code-stream tokens (`42_code_tokens.md` R143 to R149), from the state the
fetch leaves: the token's reads are done (R141). -/

namespace Sys2Proof.Machine

/-- `LIT b` (R143). -/
def execLit (b : Byte) (s : State) : Result := append b s

/-- `SCOPY` (R144). -/
def execScopy (c : BitVec 2) (db : Byte) (s : State) : Result := copy (shortDistance db) (shortCount c) s

/-- `LCOPY` (R145). -/
def execLcopy (lo : Byte) (hi5 : BitVec 5) (c : BitVec 3) (s : State) : Result :=
  copy (longDistance lo (highByte hi5 c)) (longCount (highByte hi5 c)) s

/-- `LCOPYX` (R146): `highbyte[2:0]` is 0. -/
def execLcopyx (lo : Byte) (hi5 : BitVec 5) (e : Byte) (s : State) : Result :=
  copy (longDistance lo (highByte hi5 0)) (extendedCount e) s

/-- `ESC` (R147): consumed and ignored; its distance is not computed into anything. -/
def execEsc (_lo : Byte) (_hi5 : BitVec 5) (s : State) : Result := .next s

/-- `END` (R149): the loop of `DCE.RUN` ends and the sequencer moves `PHASE` from `S_CODE` to `S_REL`, where
`RTD.RUN` starts (R193 step 4; log entry 9). -/
def execEndCode (_lo : Byte) (_hi5 : BitVec 5) (s : State) : Result := .next (enterReloc s)

end Sys2Proof.Machine
end

