-- ==== Sys2Proof/Machine/RelocTokens.lean ====
section
/-! DEFINITION. The meanings of the relocation-stream tokens (`43_reloc_tokens.md` R163 to R166) and the
post-processing `RTD.POST` (R168). -/

namespace Sys2Proof.Machine

/-- `RDB v` (R163). -/
def execRdb (b : Byte) (s : State) : Result := accumulateEmit (byteDelta b) s

/-- `RDW t` (R164). -/
def execRdw (t : Word) (s : State) : Result := accumulateEmit (wordDelta t) s

/-- `RESC` (R165): no entry is emitted. -/
def execResc (s : State) : Result := accumulate rescDelta s

/-- `REND` (R166): the loop of `RTD.RUN` ends and the sequencer moves `PHASE` to `S_REGS` (R193 step 5). -/
def execRend (s : State) : Result := .next (enterRegs s)

/-- One serialized relocation entry (R68, R100, R168): offset `v & 0xF`, segment `v >> 4`. -/
def relocEntryBytes (v : BitVec 20) : List Byte :=
  let offset : Byte := (v &&& 0xF#20).setWidth 8
  let segment : Word := (v >>> 4).setWidth 16
  [offset, 0, loByte segment, hiByte segment]

/-- `RTD.POST` (R168): the entries' bytes, in the order recovered. -/
def relocBlock (vs : List (BitVec 20)) : List Byte := vs.flatMap relocEntryBytes

end Sys2Proof.Machine
end

