-- ==== Sys2Proof/Machine/Dispatch.lean ====
section
/-! DEFINITION. The dispatch of a decoded token to its meaning. -/

namespace Sys2Proof.Machine

def exec (i : Instr) (s : State) : Host.Outcome State Fault Refusal :=
  match i with
  | .lit b => Sys2Proof.Machine.execLit b s
  | .scopy c db => Sys2Proof.Machine.execScopy c db s
  | .lcopy lo hi5 c => Sys2Proof.Machine.execLcopy lo hi5 c s
  | .endCode lo hi5 => Sys2Proof.Machine.execEndCode lo hi5 s
  | .esc lo hi5 => Sys2Proof.Machine.execEsc lo hi5 s
  | .lcopyx lo hi5 e => Sys2Proof.Machine.execLcopyx lo hi5 e s
  | .rdb b => Sys2Proof.Machine.execRdb b s
  | .resc => Sys2Proof.Machine.execResc s
  | .rend => Sys2Proof.Machine.execRend s
  | .rdw t => Sys2Proof.Machine.execRdw t s

end Sys2Proof.Machine
end

