-- ==== Sys2Proof/Machine/Fetch.lean ====
section
/-! DEFINITION. Placing a word of the opcode table where the next step fetches it (log entries 16, 17). -/

namespace Sys2Proof.Machine

/-- Place a token's image. A code token: `PHASE = S_CODE`, its control bits in `BITBUF` with `BITCNT = 16`, its
raw bytes in `SRC` at `CUR`, `PAY_LIMIT` and `N` past them. A relocation token: `PHASE = S_REL`, its bytes in
`SRC` at `RCUR`, `REL_LIMIT` and `N` past them. No host move is pending. -/
def placeTableWord (s : State) (nbits w : Nat) : State :=
  match tableImage nbits w with
  | none => s
  | some (.code ctrl bytes) =>
    { s with
      inbox := [], phase := .sCode, bitBuf := ctrl, bitCnt := 16,
      src := memWriteList s.src s.cur bytes, payLimit := s.cur + bytes.length,
      n := max s.n (s.cur + bytes.length) }
  | some (.reloc bytes) =>
    { s with
      inbox := [], phase := .sRel,
      src := memWriteList s.src s.rcur bytes, relLimit := s.rcur + bytes.length,
      n := max s.n (s.rcur + bytes.length) }

end Sys2Proof.Machine
end

