-- ==== Sys2Proof/Machine/HostInterface.lean ====
section
/-! DEFINITION. The host interface (`70_reset_and_hazards.md` R240 to R254, `10_state.md` R43): the host's moves
and what it can read. -/

namespace Sys2Proof.Machine

/-- The effect of an accepted `START` (R199): `CAUSE` and `FUNIT` are 0, `OUT`, `REL` and `RESULT` lose their
values, `PHASE = S_HDR`. The registers that no rule of the job has yet written hold no value (R21, R41): each
takes a free value (log entry 6). -/
def startJob (s : State) : State :=
  { forgetRegs s with phase := .sHdr, cause := 0, funit := 0, out := [], rel := [], result := [] }

/-- Power-on reset (R240), at any time; a running job is abandoned. The parameters, the pending host moves
and the count of free values are not the block's registers and stay (log entry 7). -/
def powerOnReset (s : State) : State :=
  { State.reset with outCap := s.outCap, relCap := s.relCap, inbox := s.inbox, free := s.free }

/-- One move of the host (R246). While `STATUS = RUN` a `START` is ignored (R199) and a write of `SRC` or `N` is
outside the model (R251). -/
def hostMove (m : HostMove) (s : State) : Result :=
  match m with
  | .writeSrc a bs =>
    if running s then .refused .hostWroteDuringJob else .next { s with src := memWriteList s.src a bs }
  | .writeN n => if running s then .refused .hostWroteDuringJob else .next { s with n := n }
  | .start => if running s then .next s else .next (startJob s)
  | .reset => .next (powerOnReset s)

/-- What the host can read (R43, R246): `STATUS`, `CAUSE`, `FUNIT` at any time; `N` and `SRC[0 .. N - 1]` (a cell
without a value is `none`) only while `STATUS` is not `RUN`; `RESULT`, its bytes in address order and with them its
length, only when `STATUS = DONE`. -/
structure HostView where
  status : BitVec 2
  cause : BitVec 3
  funit : BitVec 3
  n : Option Nat
  src : Option (List (Option Byte))
  result : Option (List Byte)
  deriving DecidableEq, Repr

/-- The host's view of a state (R43). -/
def hostView (s : State) : HostView :=
  { status := statusOf s.phase, cause := s.cause, funit := s.funit,
    n := if running s then none else some s.n,
    src := if running s then none else some ((List.range s.n).map (memRead s.src)),
    result := if s.phase = .done then some (s.result.map Prod.snd) else none }

end Sys2Proof.Machine
end

