-- ==== Sys2Proof/Machine/RelocReader.lean ====
section
/-! DEFINITION. The reads of the relocation decoder (`43_reloc_tokens.md` R161) and the fetch of one
relocation token (R160). -/

namespace Sys2Proof.Machine

/-- `RBYTE` (R161). -/
def relocByte (s : State) : Read Byte :=
  if s.relLimit < s.rcur + 1 then .error (raisedToken .truncatedStream .rtd s)
  else
    match srcRead8 s s.rcur with
    | .error f => .error (.fault f)
    | .ok v => .ok (v, { s with rcur := s.rcur + 1 })

/-- `RWORD` (R161): low byte first, all or nothing (R71). -/
def relocWord (s : State) : Read Word :=
  if s.relLimit < s.rcur + 2 then .error (raisedToken .truncatedStream .rtd s)
  else
    match srcRead16 s s.rcur with
    | .error f => .error (.fault f)
    | .ok v => .ok (v, { s with rcur := s.rcur + 2 })

/-- Fetch one token of the relocation stream (R160). -/
def fetchReloc (s : State) : Read Instr := readRelocToken relocByte relocWord s

end Sys2Proof.Machine
end

