-- ==== Sys2Proof/Machine/HeaderCodec.lean ====
section
/-! DEFINITION. The fixed-layout header codec (`40_header_codec.md`), on the layout of `30_encoding.md` R98. -/

namespace Sys2Proof.Machine

/-- The parse of 28 bytes (R120); `none` for another number of bytes. -/
def parseHeader : List Byte → Option Header
  | [b0, b1, b2, b3, b4, b5, b6, b7, b8, b9, b10, b11, b12, b13, b14, b15, b16, b17, b18, b19, b20, b21, b22,
     b23, b24, b25, b26, b27] =>
    some
      { magic0 := b0, magic1 := b1,
        lastPageBytes := le16 b2 b3,
        pageCount := le16 b4 b5,
        relocationItemCount := le16 b6 b7,
        headerParagraphs := le16 b8 b9,
        minalloc := le16 b10 b11,
        maxalloc := le16 b12 b13,
        ss := le16 b14 b15,
        sp := le16 b16 b17,
        checksum := le16 b18 b19,
        ip := le16 b20 b21,
        cs := le16 b22 b23,
        relocationTableOffset := le16 b24 b25,
        overlayNumber := le16 b26 b27 }
  | _ => none

/-- `HDC.SER` (R121): always 28 bytes. -/
def serializeHeader (h : Header) : List Byte :=
  [h.magic0, h.magic1] ++ wordBytes h.lastPageBytes ++ wordBytes h.pageCount ++
    wordBytes h.relocationItemCount ++ wordBytes h.headerParagraphs ++ wordBytes h.minalloc ++
    wordBytes h.maxalloc ++ wordBytes h.ss ++ wordBytes h.sp ++ wordBytes h.checksum ++ wordBytes h.ip ++
    wordBytes h.cs ++ wordBytes h.relocationTableOffset ++ wordBytes h.overlayNumber

/-- `HDC.DESER` (R120): `MalformedHeader` when `N < 28`, before any byte is read; then `HIN` from the first 28
bytes of `SRC`. No field is validated (R123). (A range read of 28 bytes has 28 bytes, so the last arm is not
reached.) -/
def deserHeader (s : State) : Part :=
  if s.n < hdrLen then .error (raised .malformedHeader .hdc s)
  else
    match srcReadRange s 0 hdrLen with
    | .error f => .error (.fault f)
    | .ok bs =>
      match parseHeader bs with
      | some h => .ok { s with hin := h }
      | none => .error (raised .malformedHeader .hdc s)

end Sys2Proof.Machine
end

