-- ==== Sys2Proof/Machine/HeaderReconstructor.lean ====
section
/-! DEFINITION. The header reconstructor (`44_header_reconstructor.md` R175 to R182). -/

namespace Sys2Proof.Machine

/-- `ceil(a / b)` (R8). -/
def ceilDiv (a b : Nat) : Nat := (a + b - 1) / b

/-- The computed fields (R176 to R178): `page_count` of the decompressed length. -/
def pagesOf (olen : Nat) : Nat := ceilDiv olen pageSize

/-- `last_page_bytes` of the decompressed length (R176). -/
def lastPageOf (olen : Nat) : Nat := olen % pageSize

/-- `relocation_item_count` of the relocation block's length in bytes (R177). -/
def relocItemsOf (rlen : Nat) : Nat := rlen / relentLen

/-- `header_paragraphs` of the relocation block's length in bytes (R178). -/
def headerParasOf (rlen : Nat) : Nat := ceilDiv (hdrLen + rlen) paraSize

/-- `FieldOverflow`'s condition (R175, R181). -/
def fieldsOverflow (olen rlen : Nat) : Bool :=
  fieldMax < pagesOf olen || fieldMax < relocItemsOf rlen || fieldMax < headerParasOf rlen

/-- The new header (R175, R179, R180), a pure function (R182). -/
def newHeader (minalloc maxalloc : Word) (olen rlen : Nat) (ep : EntryRegs) : Header :=
  { magic0 := magicByte0, magic1 := magicByte1,
    lastPageBytes := BitVec.ofNat 16 (lastPageOf olen),
    pageCount := BitVec.ofNat 16 (pagesOf olen),
    relocationItemCount := BitVec.ofNat 16 (relocItemsOf rlen),
    headerParagraphs := BitVec.ofNat 16 (headerParasOf rlen),
    minalloc := minalloc, maxalloc := maxalloc,
    ss := ep.ss, sp := ep.sp, checksum := 0, ip := ep.ip, cs := ep.cs,
    relocationTableOffset := newRelocOff, overlayNumber := 0 }

/-- `HRC.BUILD` (R175) with `RLEN = 4 * RCOUNT`: it writes only `HOUT` (R182). -/
def buildHeader (s : State) : Part :=
  if fieldsOverflow s.olen (relentLen * s.rcount) then .error (raised .fieldOverflow .hrc s)
  else
    .ok { s with hout := newHeader s.hin.minalloc s.hin.maxalloc s.olen (relentLen * s.rcount) s.ep }

end Sys2Proof.Machine
end

