-- ==== Sys2Proof/Machine/Sequencer.lean ====
section
/-! DEFINITION. The sequencer (`45_sequencer.md`): the steps of `SEQ.RUN` that are not token steps. -/

namespace Sys2Proof.Machine

/-- The region descriptors from `HIN` and `N` (R191). -/
def deriveRegions (s : State) : State :=
  { s with
    payBase := payloadStart s.hin, payLimit := loaderOff s.hin, regBase := loaderOff s.hin,
    relBase := loaderOff s.hin + relTableOff, relLimit := s.n }

/-- The region checks (R194), all before any decoding. -/
def checkRegions (s : State) : Part :=
  if loaderOff s.hin < payloadStart s.hin then .error (raised .malformedHeader .seq s)
  else if s.n < loaderOff s.hin + regblkLen then .error (raised .malformedHeader .seq s)
  else if s.n < loaderOff s.hin + relTableOff then .error (raised .malformedHeader .seq s)
  else .ok (deriveRegions s)

/-- Enter `S_CODE` (R193 step 3): the start of `DCE.RUN` (R140), with its `BRD.INIT`. -/
def enterCode (s : State) : Part := initBits { s with phase := .sCode, olen := 0, out := [] }

/-- The outcome of a step whose last part this is. -/
def finish (p : Part) : Result :=
  match p with
  | .error o => o
  | .ok s => .next s

/-- Phase `S_HDR` (R193 steps 1 and 2) and the start of `S_CODE` (log entry 9). -/
def stepHdr (s : State) : Result :=
  match deserHeader s with
  | .error o => o
  | .ok s1 =>
    match checkRegions s1 with
    | .error o => o
    | .ok s2 => finish (enterCode s2)

/-- Phase `S_REGS` (R195): `EP` from the register block (R99; log entry 13); then `PHASE = S_BUILD`. -/
def stepRegs (s : State) : Result :=
  match srcRead16 s s.regBase, srcRead16 s (s.regBase + 2), srcRead16 s (s.regBase + 4),
      srcRead16 s (s.regBase + 6) with
  | .ok ip, .ok cs, .ok sp, .ok ss =>
    .next { s with ep := { ip := ip, cs := cs, sp := sp, ss := ss }, phase := .sBuild }
  | .error f, _, _, _ => .fault f
  | _, .error f, _, _ => .fault f
  | _, _, .error f, _ => .fault f
  | _, _, _, .error f => .fault f

/-- Phase `S_BUILD` (R193 step 6); then `PHASE = S_EMIT`. -/
def stepBuild (s : State) : Result :=
  match buildHeader s with
  | .error o => o
  | .ok s1 => .next { s1 with phase := .sEmit }

/-- The bytes of the output image (R75, R196): no padding anywhere (R76). -/
def outputImage (h : Header) (rel : List (BitVec 20)) (out : List Byte) : List Byte :=
  serializeHeader h ++ relocBlock rel ++ out

/-- Phase `S_EMIT` (R193 step 7, R196): write `RESULT`; then `PHASE = DONE`. -/
def stepEmit (s : State) : Result :=
  match cellReadRange .rel s.rel 0 s.rcount, cellReadRange .out s.out 0 s.olen with
  | .ok rel, .ok out => .next { s with result := memOfList (outputImage s.hout rel out), phase := .done }
  | .error f, _ => .fault f
  | _, .error f => .fault f

end Sys2Proof.Machine
end

