-- ==== Sys2Proof/Machine/Step.lean ====
section
/-! DEFINITION. One step of the block: a pending host move, or one token step, or one sequencer step
(`45_sequencer.md` R193; D15). -/

namespace Sys2Proof.Machine

/-- Run the token a fetch delivers, or end as the fetch did. -/
def runFetched (r : Read Instr) : Result :=
  match r with
  | .error o => o
  | .ok (i, s) => exec i s

/-- One step of the block's own, by its phase (R193). Between jobs the block waits for the host (R254). -/
def blockStep (s : State) : Result :=
  match s.phase with
  | .idle => .next s
  | .sHdr => stepHdr s
  | .sCode => runFetched (fetchCode s)
  | .sRel => runFetched (fetchReloc s)
  | .sRegs => stepRegs s
  | .sBuild => stepBuild s
  | .sEmit => stepEmit s
  | .done => .next s
  | .fault => .next s

/-- One step: the oldest pending host move if there is one (log entry 7), else the block's own. -/
def step (s : State) : Host.Outcome State Fault Refusal :=
  match s.inbox with
  | m :: rest => hostMove m { s with inbox := rest }
  | [] => blockStep s

/-- `s` with a word of the opcode table where `step` fetches its next instruction (log entries 16, 17). -/
def State.withFetchWord (s : State) (nbits w : Nat) : State := placeTableWord s nbits w

end Sys2Proof.Machine
end

