-- ==== Sys2Proof/Machine/Assembler.lean ====
section
/-! DEFINITION. The operand forms and pseudo-instructions of the assembly notation (`30_encoding.md` R112,
R114): what each spells, `none` where it spells nothing. -/

namespace Sys2Proof.Machine

/-- `LIT b` (R112). -/
def asmLit (b : Nat) : Option Instr := if b ≤ 255 then some (.lit (BitVec.ofNat 8 b)) else none

/-- `SCOPY d, n` (R112): `db = d + 256`, `c = n - 2`. -/
def asmScopy (d : Int) (n : Nat) : Option Instr :=
  if -256 ≤ d ∧ d ≤ -1 ∧ 2 ≤ n ∧ n ≤ 5 then
    some (.scopy (BitVec.ofNat 2 (n - 2)) (BitVec.ofNat 8 (d + 256).toNat))
  else none

/-- `LCOPY d, n` (R112): `lowbyte = (d + 8192) mod 256`, `highbyte = 8 * ((d + 8192) div 256) + (n - 2)`. -/
def asmLcopy (d : Int) (n : Nat) : Option Instr :=
  if -8192 ≤ d ∧ d ≤ -1 ∧ 3 ≤ n ∧ n ≤ 9 then
    some (.lcopy (BitVec.ofNat 8 ((d + 8192).toNat % 256)) (BitVec.ofNat 5 ((d + 8192).toNat / 256))
      (BitVec.ofNat 3 (n - 2)))
  else none

/-- `LCOPYX d, n` (R112): `e = n - 1`. -/
def asmLcopyx (d : Int) (n : Nat) : Option Instr :=
  if -8192 ≤ d ∧ d ≤ -1 ∧ 3 ≤ n ∧ n ≤ 256 then
    some (.lcopyx (BitVec.ofNat 8 ((d + 8192).toNat % 256)) (BitVec.ofNat 5 ((d + 8192).toNat / 256))
      (BitVec.ofNat 8 (n - 1)))
  else none

/-- `ESC lo, hi5` (R112). -/
def asmEsc (lo hi5 : Nat) : Option Instr :=
  if lo ≤ 255 ∧ hi5 ≤ 31 then some (.esc (BitVec.ofNat 8 lo) (BitVec.ofNat 5 hi5)) else none

/-- `END lo, hi5` (R112). -/
def asmEnd (lo hi5 : Nat) : Option Instr :=
  if lo ≤ 255 ∧ hi5 ≤ 31 then some (.endCode (BitVec.ofNat 8 lo) (BitVec.ofNat 5 hi5)) else none

/-- `RDB v` (R112). -/
def asmRdb (v : Nat) : Option Instr := if 1 ≤ v ∧ v ≤ 255 then some (.rdb (BitVec.ofNat 8 v)) else none

/-- `RDW v` (R112). -/
def asmRdw (v : Nat) : Option Instr := if 2 ≤ v ∧ v ≤ 65535 then some (.rdw (BitVec.ofNat 16 v)) else none

/-- The pseudo-instruction `COPY d, n` (R114): the shortest token that spells the copy. -/
def asmCopy (d : Int) (n : Nat) : Option Instr :=
  if -256 ≤ d ∧ 2 ≤ n ∧ n ≤ 5 then asmScopy d n
  else if 3 ≤ n ∧ n ≤ 9 then asmLcopy d n
  else if 10 ≤ n ∧ n ≤ 256 then asmLcopyx d n
  else none

/-- The pseudo-instruction `RDELTA v` (R114). -/
def asmRdelta (v : Nat) : Option Instr :=
  if 1 ≤ v ∧ v ≤ 255 then asmRdb v else if 256 ≤ v ∧ v ≤ 65535 then asmRdw v else none

/-- `.pad k` (R114): `k` zero bytes after the finished layout. -/
def asmPad (payload : List Byte) (k : Nat) : List Byte := payload ++ List.replicate k 0

end Sys2Proof.Machine
end

