-- ==== Sys2Proof/Safety.lean ====
section
/-! DEFINITION. The terms in which claims about the block are stated: its invariant, the host's duties, frames,
the host's view of a run. -/

namespace Sys2Proof.Machine

/-! ## Memories -/

/-- The memory holds exactly the cells 0 to `len - 1` (R63, R64, R65). -/
abbrev covers {α : Type} (m : Mem α) (len : Nat) : Prop := m.map Prod.fst = List.range len

/-- Every address of the input image holds a value: the host has written it whole (R243). -/
abbrev srcLoaded (s : State) : Prop := ∀ a < s.n, (memRead s.src a).isSome

/-! ## The invariant of the block -/

/-- The regions of `SRC` as the checks of R194 leave them. -/
abbrev regionsOk (s : State) : Prop :=
  s.payBase ≤ s.payLimit ∧ s.regBase = s.payLimit ∧ s.regBase + regblkLen ≤ s.n ∧
    s.relBase = s.payLimit + relTableOff ∧ s.relBase ≤ s.n ∧ s.relLimit = s.n

/-- The bit reader between two operations (R27, R28, R135). -/
abbrev readerOk (s : State) : Prop :=
  1 ≤ s.bitCnt.toNat ∧ s.bitCnt.toNat ≤ 16 ∧ s.bitBuf.toNat < 2 ^ s.bitCnt.toNat ∧
    s.payBase + 2 ≤ s.cur ∧ s.cur ≤ s.payLimit

/-- No failure is recorded (R24). -/
abbrev noFailure (s : State) : Prop := s.cause = 0 ∧ s.funit = 0

/-- `OUT` is the bytes 0 to `OLEN - 1` and within its capacity (R63). -/
abbrev outOk (s : State) : Prop := covers s.out s.olen ∧ withinCap s.olen s.outCap = true

/-- Every entry of `REL` is strictly greater than the one before it (R169). -/
abbrev relRises (s : State) : Prop := (s.rel.map fun c => c.2.toNat).Pairwise (· < ·)

/-- No entry of `REL` is greater than `ACC` (R162, R167). -/
abbrev relBelowAcc (s : State) : Prop := ∀ c ∈ s.rel, c.2.toNat ≤ s.acc.toNat

/-- `REL` is the entries 0 to `RCOUNT - 1`, within its capacity (R64), and they rise (R169). -/
abbrev relOk (s : State) : Prop :=
  covers s.rel s.rcount ∧ withinCap s.rcount s.relCap = true ∧ relRises s

/-- What holds in each phase. -/
def phaseInv (s : State) : Prop :=
  match s.phase with
  | .idle => noFailure s
  | .sHdr => noFailure s ∧ s.result = [] ∧ s.out = [] ∧ s.rel = []
  | .sCode => noFailure s ∧ s.result = [] ∧ regionsOk s ∧ readerOk s ∧ outOk s
  | .sRel =>
    noFailure s ∧ s.result = [] ∧ regionsOk s ∧ outOk s ∧ relOk s ∧ relBelowAcc s ∧
      s.relBase ≤ s.rcur ∧ s.rcur ≤ s.relLimit
  | .sRegs => noFailure s ∧ s.result = [] ∧ regionsOk s ∧ outOk s ∧ relOk s
  | .sBuild => noFailure s ∧ s.result = [] ∧ outOk s ∧ relOk s
  | .sEmit => noFailure s ∧ s.result = [] ∧ outOk s ∧ relOk s
  | .done => noFailure s ∧ covers s.result (hdrLen + relentLen * s.rcount + s.olen)
  | .fault =>
    s.result = [] ∧ 1 ≤ s.cause.toNat ∧ s.cause.toNat ≤ 6 ∧ 1 ≤ s.funit.toNat ∧ s.funit.toNat ≤ 5

/-- The invariant every step keeps: the memories are in canonical form, and what `phaseInv` says of the phase. -/
def blockInv (s : State) : Prop :=
  memWf s.src ∧ memWf s.out ∧ memWf s.rel ∧ memWf s.result ∧ phaseInv s

/-! ## Frames -/

/-- Nothing but `OUT` and `OLEN` differs. -/
abbrev onlyOut (s t : State) : Prop := t = { s with out := t.out, olen := t.olen }

/-- Nothing but `ACC`, `REL` and `RCOUNT` differs. -/
abbrev onlyReloc (s t : State) : Prop := t = { s with acc := t.acc, rel := t.rel, rcount := t.rcount }

/-- What is not the block's to write: its input, its parameters, the host's pending moves. -/
abbrev inputKept (s t : State) : Prop :=
  t.src = s.src ∧ t.n = s.n ∧ t.outCap = s.outCap ∧ t.relCap = s.relCap ∧ t.inbox = s.inbox

/-- What a fault leaves as the faulting token found it (R215), and what is not the block's to write. -/
abbrev faultKeeps (s t : State) : Prop :=
  t.out = s.out ∧ t.olen = s.olen ∧ t.rel = s.rel ∧ t.rcount = s.rcount ∧ t.acc = s.acc ∧ inputKept s t

/-- The fault entry of R214 as the host sees it, with the code numbers of R206. -/
abbrev faulted (t : State) (cause : BitVec 3) (funit : BitVec 3) : Prop :=
  t.phase = .fault ∧ t.cause = cause ∧ t.funit = funit ∧ t.result = []

/-- The result of an overlap copy in closed form (R148): byte `i` of the copy is the old byte at
`OLEN + d + (i mod |d|)`; nothing else changes. -/
def copied (d : Int) (n : Nat) (s t : State) : Prop :=
  t.olen = s.olen + n ∧
  (∀ i < n, memRead t.out (s.olen + i) = memRead s.out (((s.olen : Int) + d).toNat + i % d.natAbs)) ∧
  (∀ a, (a < s.olen ∨ s.olen + n ≤ a) → memRead t.out a = memRead s.out a) ∧
  onlyOut s t

/-- The result of an emitting relocation token of delta `x` (R162, R167). -/
def emitted (x : Nat) (s t : State) : Prop :=
  t.acc.toNat = s.acc.toNat + x ∧ t.rcount = s.rcount + 1 ∧ memRead t.rel s.rcount = some t.acc ∧
  (∀ a, a ≠ s.rcount → memRead t.rel a = memRead s.rel a) ∧ onlyReloc s t

/-- Every chunk of a copy is no longer than the bytes between its source position and the `OLEN` it finds
(R150). -/
def chunksFit : List Nat → Nat → Nat → Prop
  | [], _, _ => True
  | k :: ks, a, olen => a + k ≤ olen ∧ chunksFit ks (a + k) (olen + k)

/-- The distance and the count of a copy token (R112). -/
def copyOperands : Instr → Option (Int × Nat)
  | .lit _ => none
  | .scopy c db => some (shortDistance db, shortCount c)
  | .lcopy lo hi5 c => some (longDistance lo (highByte hi5 c), longCount (highByte hi5 c))
  | .endCode _ _ => none
  | .esc _ _ => none
  | .lcopyx lo hi5 e => some (longDistance lo (highByte hi5 0), extendedCount e)
  | .rdb _ => none
  | .resc => none
  | .rend => none
  | .rdw _ => none

/-! ## Runs -/

/-- The order of the phases of a job (R193). -/
def nextPhase : Phase → Phase
  | .idle => .idle
  | .sHdr => .sCode
  | .sCode => .sRel
  | .sRel => .sRegs
  | .sRegs => .sBuild
  | .sBuild => .sEmit
  | .sEmit => .done
  | .done => .done
  | .fault => .fault

/-- The pairs (`CAUSE`, `FUNIT`) a fault records: the rows of the table of R206. -/
def faultTable : List (BitVec 3 × BitVec 3) :=
  [(1, 2), (1, 1), (2, 3), (2, 4), (3, 3), (4, 3), (4, 4), (5, 4), (6, 5)]

/-- What the host sees of an outcome. -/
def viewOf : Result → Host.Outcome HostView Fault Refusal
  | .next s => .next (hostView s)
  | .fault f => .fault f
  | .refused r => .refused r

/-- `k` steps of the machine. -/
abbrev runSteps (k : Nat) (s : State) : Result := Host.Core.run Sys2Proof.core k s

end Sys2Proof.Machine
end

