-- ==== Sys2Proof/Certificates/Slice0/Obligations.lean ====
section
/-! DEFINITION. The statements for the provers. A rule number R<n> is one of `spec/`; log entries are
`notes/assumptions/<n>.md`. A statement about one of the block's own steps has `inbox = []`: no host move is
pending (the inbox is the model's own, log entry 7). `faultKeeps` says what a faulting token leaves as it found it:
that is R215, which the model takes over R214's "unspecified" (log entry 5). A fault of a unit operation keeps only
what is not the block's to write (`inputKept`). -/

open Sys2Proof Sys2Proof.Machine

/-! ## Encoding -/

/-- Words written out from the spec's encodings (R92 to R97, R111) decode to the tokens they stand for. -/
def Obligations.TableWordsDecodeToTheirTokens : Prop :=
  decodeTableWord 9 0b1_01000001 = some (.lit 0x41) ∧
  decodeTableWord 12 0b0010_11111101 = some (.scopy 2 0xFD) ∧
  decodeTableWord 18 0b01_11111110_11111_110 = some (.lcopy 0xFE 31 6) ∧
  decodeTableWord 26 0b01_10011001_11111_000_00000000 = some (.endCode 0x99 31) ∧
  decodeTableWord 26 0b01_00010010_00111_000_00000001 = some (.esc 0x12 7) ∧
  decodeTableWord 26 0b01_11111111_11111_000_11111111 = some (.lcopyx 0xFF 31 0xFF) ∧
  decodeTableWord 8 0b00000101 = some (.rdb 5) ∧
  decodeTableWord 24 0b00000000_00000000_00000000 = some .resc ∧
  decodeTableWord 24 0b00000000_00000001_00000000 = some .rend ∧
  decodeTableWord 24 0b00000000_00110100_00010010 = some (.rdw 0x1234)

/-- Every well-formed code token, laid out in a control word of its own (R91), decodes to itself, whatever bytes
follow; the decoder has read exactly its control bits and its raw bytes. -/
def Obligations.CodeTokenRoundTrip : Prop :=
  ∀ (i : Instr) (rest : List Byte), wellFormed i = true → streamOf i = .code →
    ∃ p q, posInit (encode i ++ rest) = .ok p ∧ decodeCode p = .ok (i, q) ∧ q.bytes = rest ∧
      q.cnt.toNat = 16 - (controlBits i).length

/-- Every well-formed relocation token's bytes decode to itself, whatever bytes follow (R96, R97). -/
def Obligations.RelocTokenRoundTrip : Prop :=
  ∀ (i : Instr) (rest : List Byte), wellFormed i = true → streamOf i = .reloc →
    decodeReloc (encode i ++ rest) = .ok (i, rest)

/-- The layout procedure of R113 and the decoder with its eager refill (R136) agree: the payload of any list of
well-formed code tokens ended by `END` decodes to that list, and the bytes after it are not read (R153). -/
def Obligations.CodeLayoutDecodesToItsTokens : Prop :=
  ∀ (is : List Instr) (lo : Byte) (hi5 : BitVec 5) (rest : List Byte),
    (∀ i ∈ is, wellFormed i = true ∧ streamOf i = .code ∧ isTerminator i = false) →
    ∃ p q, posInit (layoutCode (is ++ [.endCode lo hi5]) ++ rest) = .ok p ∧
      decodeCodeAll (is.length + 1) p = .ok (is ++ [.endCode lo hi5], q) ∧ q.bytes = rest

/-- A relocation stream is the concatenation of its tokens' bytes (R113) and decodes to its tokens. -/
def Obligations.RelocLayoutDecodesToItsTokens : Prop :=
  ∀ (is : List Instr) (rest : List Byte),
    (∀ i ∈ is, wellFormed i = true ∧ streamOf i = .reloc ∧ isTerminator i = false) →
    decodeRelocAll (is.length + 1) (layoutReloc (is ++ [.rend]) ++ rest) = .ok (is ++ [.rend], rest)

/-- No encoding is illegal or reserved (R108): at any position a token is decoded once five bytes are left in a
code payload (a refill of two, three raw bytes) or three in a relocation payload. -/
def Obligations.NoEncodingIsIllegal : Prop :=
  (∀ p : CodePos, 5 ≤ p.bytes.length → ∃ i q, decodeCode p = .ok (i, q)) ∧
  (∀ bs : List Byte, 3 ≤ bs.length → ∃ i rest, decodeReloc bs = .ok (i, rest))

/-- The decoder answers only well-formed tokens of its own stream, and each takes at least one raw byte (R107,
R151, R170). -/
def Obligations.DecodedTokensAreWellFormed : Prop :=
  (∀ p i q, decodeCode p = .ok (i, q) →
    wellFormed i = true ∧ streamOf i = .code ∧ q.bytes.length + 1 ≤ p.bytes.length) ∧
  (∀ bs i rest, decodeReloc bs = .ok (i, rest) →
    wellFormed i = true ∧ streamOf i = .reloc ∧ rest.length + 1 ≤ bs.length)

/-- The logical image of a token (R90) has its row's width, fits it as a number, matches its row's `match` under
its `mask`, and read as a table word decodes to the token (R111). -/
def Obligations.ImagesMatchTheOpcodeTable : Prop :=
  ∀ i : Instr,
    imageWidth i = (tableRow i).width ∧ imageNat i < 2 ^ (tableRow i).width ∧
    imageNat i &&& (tableRow i).mask = (tableRow i).opcode ∧
    (wellFormed i = true → decodeTableWord (tableRow i).width (imageNat i) = some i)

/-! ## Operands -/

/-- R101: the bits of the pattern, the distance, its range. -/
def Obligations.LongDistanceOfItsBytes : Prop :=
  ∀ lo hi : Byte,
    (longPattern lo hi).extractLsb' 13 3 = 7 ∧
    (longPattern lo hi).extractLsb' 8 5 = hi.extractLsb' 3 5 ∧
    (longPattern lo hi).extractLsb' 0 8 = lo ∧
    longDistance lo hi = ((longPattern lo hi).toNat : Int) - 0x10000 ∧
    longDistance lo hi = -8192 + 256 * ((hi.extractLsb' 3 5).toNat : Int) + (lo.toNat : Int) ∧
    -8192 ≤ longDistance lo hi ∧ longDistance lo hi ≤ -1

/-- R102, R104, R106: the long count, the short distance, the relocation deltas, with their ranges. -/
def Obligations.CountsDistancesAndDeltas : Prop :=
  (∀ hi : Byte, longCount hi = (hi.extractLsb' 0 3).toNat + 2 ∧
    (hi.extractLsb' 0 3 ≠ 0 → 3 ≤ longCount hi ∧ longCount hi ≤ 9)) ∧
  (∀ db : Byte, shortDistance db = (db.toNat : Int) - 256 ∧
    -256 ≤ shortDistance db ∧ shortDistance db ≤ -1) ∧
  (∀ tl th : Byte, wordDelta (le16 tl th) = tl.toNat + 256 * th.toNat) ∧
  (∀ b : Byte, byteDelta b = b.toNat)

/-- The pseudo-instruction `COPY d, n` (R114) spells a token with exactly that distance and count, and has no
expansion exactly when no well-formed token has them, which is in the three cases R114 gives. -/
def Obligations.CopyPseudoInstructionSpellsTheCopy : Prop :=
  ∀ (d : Int) (n : Nat), d ≤ -1 → 2 ≤ n →
    (asmCopy d n = none ↔ ¬ ∃ i, wellFormed i = true ∧ copyOperands i = some (d, n)) ∧
    (asmCopy d n = none ↔ ((n = 2 ∧ d < -256) ∨ 256 < n ∨ d < -8192)) ∧
    (∀ i, asmCopy d n = some i → wellFormed i = true ∧ copyOperands i = some (d, n))

/-! ## The bit reader -/

/-- `FETCH16` (R134): two bytes, the first the low one, and `CUR` moves by 2; with fewer than two bytes left
before `PAY_LIMIT` it raises `TruncatedStream` from `DCE` (R206, R214), in a token's refill with the precision
of R215 (log entry 5), in `BRD.INIT` without it. -/
def Obligations.FetchSixteenReadsOrRaises : Prop :=
  ∀ s : State,
    (s.payLimit < s.cur + 2 →
      (∃ t, fetch16 raisedToken s = .error (.next t) ∧ faulted t 2 3 ∧ faultKeeps s t) ∧
      (∃ t, fetch16 raised s = .error (.next t) ∧ faulted t 2 3 ∧ inputKept s t)) ∧
    (∀ lo hi, s.cur + 2 ≤ s.payLimit → s.payLimit ≤ s.n →
      memRead s.src s.cur = some lo → memRead s.src (s.cur + 1) = some hi →
      ∃ w : Word, w.toNat = lo.toNat + 256 * hi.toNat ∧
        ∀ fail, fetch16 fail s = .ok (w, { s with cur := s.cur + 2 }))

/-- `NEXT_BIT` (R132): the bit, the shift, the count; the eager refill by the call that delivers the sixteenth
bit, from `CUR` as it stands; `TruncatedStream` (R206, R214) when that refill cannot be done, with the precision
of R215 (log entry 5). -/
def Obligations.NextBitDeliversAndRefills : Prop :=
  ∀ s : State,
    (2 ≤ s.bitCnt.toNat → s.bitCnt.toNat ≤ 16 →
      nextBit s =
        .ok (s.bitBuf.getLsbD 0, { s with bitBuf := s.bitBuf >>> 1, bitCnt := s.bitCnt - 1 })) ∧
    (∀ lo hi, s.bitCnt.toNat = 1 → s.cur + 2 ≤ s.payLimit → s.payLimit ≤ s.n →
      memRead s.src s.cur = some lo → memRead s.src (s.cur + 1) = some hi →
      ∃ w : Word, w.toNat = lo.toNat + 256 * hi.toNat ∧
        nextBit s = .ok (s.bitBuf.getLsbD 0, { s with bitBuf := w, bitCnt := 16, cur := s.cur + 2 })) ∧
    (s.bitCnt.toNat = 1 → s.payLimit < s.cur + 2 →
      ∃ t, nextBit s = .error (.next t) ∧ faulted t 2 3 ∧ faultKeeps s t)

/-- `NEXT_BYTE` (R133): the byte at `CUR`, which moves by 1, the buffered bits untouched; `TruncatedStream`
(R206, R214) when no byte is left before `PAY_LIMIT`, with the precision of R215 (log entry 5). -/
def Obligations.NextByteReadsOrRaises : Prop :=
  ∀ s : State,
    (s.payLimit < s.cur + 1 → ∃ t, nextByte s = .error (.next t) ∧ faulted t 2 3 ∧ faultKeeps s t) ∧
    (∀ b, s.cur + 1 ≤ s.payLimit → s.payLimit ≤ s.n → memRead s.src s.cur = some b →
      nextByte s = .ok (b, { s with cur := s.cur + 1 }))

/-- `BRD.INIT` establishes the bit reader's invariant and every completed `NEXT_BIT` and `NEXT_BYTE` keeps it
(R135, which the spec marks as derived). -/
def Obligations.BitReaderInvariantKept : Prop :=
  (∀ s t, initBits s = .ok t → readerOk t) ∧
  (∀ s t b, readerOk s → nextBit s = .ok (b, t) → readerOk t) ∧
  (∀ s t b, readerOk s → nextByte s = .ok (b, t) → readerOk t)

/-! ## The code tokens -/

/-- `APPEND(v)` (R142): one byte written at `OLEN`, which grows by 1; `OutputOverflow` from `DCE` (R206, R214)
when it would pass `OUT_CAP`, with the precision of R215 (log entry 5). -/
def Obligations.AppendWritesOrOverflows : Prop :=
  ∀ (v : Byte) (s : State),
    (withinCap (s.olen + 1) s.outCap = true →
      ∃ t, append v s = .next t ∧ t.olen = s.olen + 1 ∧ memRead t.out s.olen = some v ∧
        (∀ a, a ≠ s.olen → memRead t.out a = memRead s.out a) ∧ onlyOut s t) ∧
    (withinCap (s.olen + 1) s.outCap = false →
      ∃ t, append v s = .next t ∧ faulted t 4 3 ∧ faultKeeps s t)

/-- `COPY(d, n)` (R148): `BadBackReference` first, then `OutputOverflow`, neither appending anything (R215, log
entry 5); else the overlap copy in its closed form, which the spec marks as derived. -/
def Obligations.OverlapCopyInClosedForm : Prop :=
  ∀ (d : Int) (n : Nat) (s : State), d < 0 → covers s.out s.olen →
    ((s.olen : Int) + d < 0 → ∃ t, copy d n s = .next t ∧ faulted t 3 3 ∧ faultKeeps s t) ∧
    (0 ≤ (s.olen : Int) + d → withinCap (s.olen + n) s.outCap = false →
      ∃ t, copy d n s = .next t ∧ faulted t 4 3 ∧ faultKeeps s t) ∧
    (0 ≤ (s.olen : Int) + d → withinCap (s.olen + n) s.outCap = true →
      ∃ t, copy d n s = .next t ∧ copied d n s t ∧ covers t.out t.olen)

/-- Any copy done in chunks, each no longer than the bytes between its source position and the `OLEN` it finds,
ends in the very state of the byte-by-byte loop (R150). -/
def Obligations.ChunkedCopyEqualsByteLoop : Prop :=
  ∀ (ks : List Nat) (a : Nat) (s : State), covers s.out s.olen → chunksFit ks a s.olen →
    copyInChunks ks a s = copyLoop ks.sum a s

/-- `LIT b` (R143) completes within `OUT_CAP`: `b` stands at the old `OLEN`, which grows by 1; every other byte
of `OUT` and all else is unchanged. -/
def Obligations.LitAppendsItsByte : Prop :=
  ∀ (b : Byte) (s : State), withinCap (s.olen + 1) s.outCap = true →
    ∃ t, exec (.lit b) s = .next t ∧ t.olen = s.olen + 1 ∧ memRead t.out s.olen = some b ∧
      (∀ a, a ≠ s.olen → memRead t.out a = memRead s.out a) ∧ onlyOut s t

/-- `SCOPY` (R144) completes: `n = 2 c1 + c0 + 2` bytes (the bits' order is the spec's decision, log entry 14)
from distance `d = db - 256`. -/
def Obligations.ScopyCopiesItsBytes : Prop :=
  ∀ (c : BitVec 2) (db : Byte) (s : State), covers s.out s.olen →
    256 ≤ s.olen + db.toNat →
    withinCap (s.olen + (2 * (c.getLsbD 1).toNat + (c.getLsbD 0).toNat + 2)) s.outCap = true →
    ∃ t, exec (.scopy c db) s = .next t ∧
      copied ((db.toNat : Int) - 256) (2 * (c.getLsbD 1).toNat + (c.getLsbD 0).toNat + 2) s t

/-- `LCOPY` (R145) completes: `n = c + 2` bytes from distance `d = -8192 + 256 hi5 + lo`. -/
def Obligations.LcopyCopiesItsBytes : Prop :=
  ∀ (lo : Byte) (hi5 : BitVec 5) (c : BitVec 3) (s : State), covers s.out s.olen →
    8192 ≤ s.olen + 256 * hi5.toNat + lo.toNat →
    withinCap (s.olen + (c.toNat + 2)) s.outCap = true →
    ∃ t, exec (.lcopy lo hi5 c) s = .next t ∧
      copied (-8192 + 256 * (hi5.toNat : Int) + (lo.toNat : Int)) (c.toNat + 2) s t

/-- `LCOPYX` (R146) completes: `n = e + 1` bytes from distance `d = -8192 + 256 hi5 + lo`. -/
def Obligations.LcopyxCopiesItsBytes : Prop :=
  ∀ (lo : Byte) (hi5 : BitVec 5) (e : Byte) (s : State), covers s.out s.olen →
    8192 ≤ s.olen + 256 * hi5.toNat + lo.toNat →
    withinCap (s.olen + (e.toNat + 1)) s.outCap = true →
    ∃ t, exec (.lcopyx lo hi5 e) s = .next t ∧
      copied (-8192 + 256 * (hi5.toNat : Int) + (lo.toNat : Int)) (e.toNat + 1) s t

/-- Where the output tokens trap (R220): `BadBackReference` when the distance reaches before byte 0, whatever
the capacity; else `OutputOverflow` when the capacity would be passed; `OUT` and the rest as found (R215, log
entry 5). -/
def Obligations.OutputTokensTrap : Prop :=
  ∀ (s : State) (lo db b e : Byte) (hi5 : BitVec 5) (c2 : BitVec 2) (c3 : BitVec 3),
    (withinCap (s.olen + 1) s.outCap = false →
      ∃ t, exec (.lit b) s = .next t ∧ faulted t 4 3 ∧ faultKeeps s t) ∧
    (s.olen + db.toNat < 256 → ∃ t, exec (.scopy c2 db) s = .next t ∧ faulted t 3 3 ∧ faultKeeps s t) ∧
    (256 ≤ s.olen + db.toNat → withinCap (s.olen + (c2.toNat + 2)) s.outCap = false →
      ∃ t, exec (.scopy c2 db) s = .next t ∧ faulted t 4 3 ∧ faultKeeps s t) ∧
    (s.olen + 256 * hi5.toNat + lo.toNat < 8192 →
      (∃ t, exec (.lcopy lo hi5 c3) s = .next t ∧ faulted t 3 3 ∧ faultKeeps s t) ∧
      (∃ t, exec (.lcopyx lo hi5 e) s = .next t ∧ faulted t 3 3 ∧ faultKeeps s t)) ∧
    (8192 ≤ s.olen + 256 * hi5.toNat + lo.toNat →
      (withinCap (s.olen + (c3.toNat + 2)) s.outCap = false →
        ∃ t, exec (.lcopy lo hi5 c3) s = .next t ∧ faulted t 4 3 ∧ faultKeeps s t) ∧
      (withinCap (s.olen + (e.toNat + 1)) s.outCap = false →
        ∃ t, exec (.lcopyx lo hi5 e) s = .next t ∧ faulted t 4 3 ∧ faultKeeps s t))

/-- `ESC` (R147) changes nothing, whatever its operands: its distance is not checked against `OLEN`. -/
def Obligations.EscHasNoEffect : Prop :=
  ∀ (lo : Byte) (hi5 : BitVec 5) (s : State), exec (.esc lo hi5) s = .next s

/-- `END` (R149), whatever its operands, leaves the loop of `DCE.RUN`: `PHASE` moves to `S_REL` and the
relocation decoder starts with `RCUR = REL_BASE`, `ACC = 0`, `RCOUNT = 0` and `REL` empty (R160); nothing else
changes. That both happen in one step is the model's reading (log entry 9). -/
def Obligations.EndStartsTheRelocationDecoder : Prop :=
  ∀ (lo : Byte) (hi5 : BitVec 5) (s : State),
    exec (.endCode lo hi5) s =
      .next { s with phase := .sRel, rcur := s.relBase, acc := 0, rcount := 0, rel := [] }

/-! ## The relocation tokens -/

/-- `RDB v` (R163) and `RDW t` (R164) complete when the sum fits 20 bits and `REL_CAP` is not passed: `ACC`
grows by the delta and is appended to `REL`. -/
def Obligations.RdbAndRdwEmitTheSum : Prop :=
  ∀ (b : Byte) (w : Word) (s : State), withinCap (s.rcount + 1) s.relCap = true →
    (s.acc.toNat + b.toNat ≤ 0xFFFFF → ∃ t, exec (.rdb b) s = .next t ∧ emitted b.toNat s t) ∧
    (s.acc.toNat + w.toNat ≤ 0xFFFFF → ∃ t, exec (.rdw w) s = .next t ∧ emitted w.toNat s t)

/-- `RESC` (R165) completes when the sum fits 20 bits: `ACC` grows by `0xFFF`, no entry is emitted, nothing else
changes. -/
def Obligations.RescAddsWithoutEmitting : Prop :=
  ∀ s : State, s.acc.toNat + 0xFFF ≤ 0xFFFFF →
    ∃ t, exec .resc s = .next t ∧ t.acc.toNat = s.acc.toNat + 0xFFF ∧ t = { s with acc := t.acc }

/-- `REND` (R166) leaves the loop of `RTD.RUN`: `PHASE` moves to `S_REGS` (R193), nothing else changes. That the
move of `PHASE` is `REND`'s own step is the model's reading (log entry 9). -/
def Obligations.RendEndsTheRelocationDecoder : Prop :=
  ∀ s : State, exec .rend s = .next { s with phase := .sRegs }

/-- Where the relocation tokens trap (R220): `RelocOverflow` when the sum does not fit 20 bits, whatever the
capacity; else `OutputOverflow` when `REL_CAP` would be passed; `ACC`, `REL` and the rest as found (R215, log
entries 5 and 10). -/
def Obligations.RelocTokensTrap : Prop :=
  ∀ (b : Byte) (w : Word) (s : State),
    (0xFFFFF < s.acc.toNat + b.toNat →
      ∃ t, exec (.rdb b) s = .next t ∧ faulted t 5 4 ∧ faultKeeps s t) ∧
    (0xFFFFF < s.acc.toNat + w.toNat →
      ∃ t, exec (.rdw w) s = .next t ∧ faulted t 5 4 ∧ faultKeeps s t) ∧
    (0xFFFFF < s.acc.toNat + 0xFFF →
      ∃ t, exec .resc s = .next t ∧ faulted t 5 4 ∧ faultKeeps s t) ∧
    (withinCap (s.rcount + 1) s.relCap = false →
      (s.acc.toNat + b.toNat ≤ 0xFFFFF →
        ∃ t, exec (.rdb b) s = .next t ∧ faulted t 4 4 ∧ faultKeeps s t) ∧
      (s.acc.toNat + w.toNat ≤ 0xFFFFF →
        ∃ t, exec (.rdw w) s = .next t ∧ faulted t 4 4 ∧ faultKeeps s t))

/-- `ACC` never decreases; a token that emits an entry emits a value greater than `ACC` was; and the entries of `REL`,
each greater than the one before it and none greater than `ACC`, stay so (R169, which the spec marks as derived).
Where the token faults this holds because its fault keeps `ACC`, `REL` and `RCOUNT`: that is R215, which the model
takes over R214's "unspecified" (log entry 5). -/
def Obligations.EmittedValuesIncrease : Prop :=
  ∀ (i : Instr) (s t : State), streamOf i = .reloc → wellFormed i = true → exec i s = .next t →
    s.acc.toNat ≤ t.acc.toNat ∧
    ((t.rcount = s.rcount ∧ t.rel = s.rel) ∨
      (t.rcount = s.rcount + 1 ∧ memRead t.rel s.rcount = some t.acc ∧ s.acc.toNat < t.acc.toNat)) ∧
    (covers s.rel s.rcount → relRises s → relBelowAcc s → relRises t ∧ relBelowAcc t)

/-! ## A step runs the decoded token -/

/-- In the two stream phases a step fetches a token and is `exec` of it at the state the fetch leaves. -/
def Obligations.StepRunsTheFetchedToken : Prop :=
  ∀ (s t : State) (i : Instr), s.inbox = [] →
    (s.phase = .sCode → fetchCode s = .ok (i, t) → step s = exec i t) ∧
    (s.phase = .sRel → fetchReloc s = .ok (i, t) → step s = exec i t)

/-- When the bits in `BITBUF` and the bytes from `CUR` to `PAY_LIMIT` decode to a token, a step is `exec` of it
at the state with the bit reader moved past it, all else as before (R141). -/
def Obligations.StepRunsTheCodeTokenAtCur : Prop :=
  ∀ (s : State) (bs : List Byte) (i : Instr) (p : CodePos), s.inbox = [] → s.phase = .sCode →
    s.cur ≤ s.payLimit → srcReadRange s s.cur (s.payLimit - s.cur) = .ok bs →
    decodeCode { buf := s.bitBuf, cnt := s.bitCnt, bytes := bs } = .ok (i, p) →
    step s = exec i { s with bitBuf := p.buf, bitCnt := p.cnt, cur := s.payLimit - p.bytes.length }

/-- When the bytes from `RCUR` to `REL_LIMIT` decode to a token, a step is `exec` of it at the state with `RCUR`
moved past it, all else as before (R160). -/
def Obligations.StepRunsTheRelocTokenAtRcur : Prop :=
  ∀ (s : State) (bs rest : List Byte) (i : Instr), s.inbox = [] → s.phase = .sRel →
    s.rcur ≤ s.relLimit → srcReadRange s s.rcur (s.relLimit - s.rcur) = .ok bs →
    decodeReloc bs = .ok (i, rest) →
    step s = exec i { s with rcur := s.relLimit - rest.length }

/-- When the bytes before the region's limit end inside a token, a step raises `TruncatedStream` from the unit
that reads (R137, R161, R208), `OUT`, `REL`, `OLEN`, `RCOUNT` and `ACC` as the previous token left them (R215,
log entry 5). -/
def Obligations.TruncatedStreamsRaise : Prop :=
  (∀ (s : State) (bs : List Byte), s.inbox = [] → s.phase = .sCode → s.cur ≤ s.payLimit →
    srcReadRange s s.cur (s.payLimit - s.cur) = .ok bs →
    decodeCode { buf := s.bitBuf, cnt := s.bitCnt, bytes := bs } = .error .truncated →
    ∃ t, step s = .next t ∧ faulted t 2 3 ∧ faultKeeps s t) ∧
  (∀ (s : State) (bs : List Byte), s.inbox = [] → s.phase = .sRel → s.rcur ≤ s.relLimit →
    srcReadRange s s.rcur (s.relLimit - s.rcur) = .ok bs → decodeReloc bs = .error .truncated →
    ∃ t, step s = .next t ∧ faulted t 2 4 ∧ faultKeeps s t)

/-! ## The unit operations and the sequencer -/

/-- `HDC.SER` (R121): the magic's two bytes in address order, then the thirteen fields as little-endian words at
the offsets of record `HDR` (R98). -/
def Obligations.HeaderFieldsStandAtTheirOffsets : Prop :=
  ∀ (h : Header) (wordAt : Nat → Nat),
    (∀ k, wordAt k = ((serializeHeader h).getD k 0).toNat + 256 * ((serializeHeader h).getD (k + 1) 0).toNat) →
    (serializeHeader h).length = 28 ∧
    (serializeHeader h).getD 0 0 = h.magic0 ∧ (serializeHeader h).getD 1 0 = h.magic1 ∧
    wordAt 2 = h.lastPageBytes.toNat ∧ wordAt 4 = h.pageCount.toNat ∧ wordAt 6 = h.relocationItemCount.toNat ∧
    wordAt 8 = h.headerParagraphs.toNat ∧ wordAt 10 = h.minalloc.toNat ∧ wordAt 12 = h.maxalloc.toNat ∧
    wordAt 14 = h.ss.toNat ∧ wordAt 16 = h.sp.toNat ∧ wordAt 18 = h.checksum.toNat ∧ wordAt 20 = h.ip.toNat ∧
    wordAt 22 = h.cs.toNat ∧ wordAt 24 = h.relocationTableOffset.toNat ∧ wordAt 26 = h.overlayNumber.toNat

/-- The codec is a bijection between header records and 28-byte sequences (R122, which the spec marks as derived
in its second half). -/
def Obligations.HeaderCodecIsABijection : Prop :=
  (∀ h : Header, (serializeHeader h).length = 28 ∧ parseHeader (serializeHeader h) = some h) ∧
  (∀ bs : List Byte, bs.length = 28 → ∃ h, parseHeader bs = some h ∧ serializeHeader h = bs)

/-- An input shorter than 28 bytes ends in `MalformedHeader` from `HDC` before any byte is read (R120). -/
def Obligations.ShortInputIsMalformed : Prop :=
  ∀ s : State, s.inbox = [] → s.phase = .sHdr → s.n < 28 →
    ∃ t, step s = .next t ∧ faulted t 1 2 ∧ inputKept s t

/-- A header whose loader offset `L` (the spec's formula from general knowledge, log entry 11) puts the register
block or the start of the relocation payload past `N` ends in `MalformedHeader` from `SEQ` (R194). -/
def Obligations.RegionsPastTheInputAreMalformed : Prop :=
  ∀ (s : State) (bs : List Byte) (h : Header), s.inbox = [] → s.phase = .sHdr → 28 ≤ s.n →
    srcReadRange s 0 28 = .ok bs → parseHeader bs = some h →
    (s.n < 16 * (h.headerParagraphs.toNat + h.cs.toNat) + 8 ∨
      s.n < 16 * (h.headerParagraphs.toNat + h.cs.toNat) + 0x158) →
    ∃ t, step s = .next t ∧ faulted t 1 1 ∧ inputKept s t

/-- The other end of phase `S_HDR`: the regions of R191 (log entry 11), `HIN`, and the bit reader started on the
first control word (R131, R140; one step, log entry 9); `TruncatedStream` when the payload has fewer than two
bytes. -/
def Obligations.HeaderStepStartsTheCodeStream : Prop :=
  ∀ (s : State) (bs : List Byte) (h : Header) (p l : Nat), s.inbox = [] → s.phase = .sHdr → 28 ≤ s.n →
    srcReadRange s 0 28 = .ok bs → parseHeader bs = some h →
    p = 16 * h.headerParagraphs.toNat → l = 16 * (h.headerParagraphs.toNat + h.cs.toNat) →
    l + 0x158 ≤ s.n →
    (l < p + 2 → ∃ t, step s = .next t ∧ faulted t 2 3 ∧ inputKept s t) ∧
    (∀ lo hi, p + 2 ≤ l → memRead s.src p = some lo → memRead s.src (p + 1) = some hi →
      ∃ w : Word, w.toNat = lo.toNat + 256 * hi.toNat ∧
        step s = .next { s with
          phase := .sCode, hin := h, payBase := p, payLimit := l, regBase := l, relBase := l + 0x158,
          relLimit := s.n, olen := 0, out := [], cur := p + 2, bitBuf := w, bitCnt := 16 })

/-- Phase `S_REGS` reads the four little-endian words `ip`, `cs`, `sp`, `ss` of the register block, in that
order (R195; the order is the spec's decision, log entry 13). -/
def Obligations.RegisterBlockIsReadInOrder : Prop :=
  ∀ (s : State) (b0 b1 b2 b3 b4 b5 b6 b7 : Byte), s.inbox = [] → s.phase = .sRegs →
    s.regBase + 8 ≤ s.n → srcReadRange s s.regBase 8 = .ok [b0, b1, b2, b3, b4, b5, b6, b7] →
    ∃ t, step s = .next t ∧ t = { s with ep := t.ep, phase := .sBuild } ∧
      t.ep.ip.toNat = b0.toNat + 256 * b1.toNat ∧ t.ep.cs.toNat = b2.toNat + 256 * b3.toNat ∧
      t.ep.sp.toNat = b4.toNat + 256 * b5.toNat ∧ t.ep.ss.toNat = b6.toNat + 256 * b7.toNat

/-- Phase `S_BUILD` computes every field of the new header (R175 to R180; the magic is the spec's from general
knowledge, log entry 12) and changes nothing else but `PHASE`. -/
def Obligations.NewHeaderFields : Prop :=
  ∀ s : State, s.inbox = [] → s.phase = .sBuild → s.olen ≤ 33553920 → s.rcount ≤ 65535 →
    ∃ t, step s = .next t ∧ t = { s with hout := t.hout, phase := .sEmit } ∧
      t.hout.magic0 = 0x4D ∧ t.hout.magic1 = 0x5A ∧
      t.hout.lastPageBytes.toNat = s.olen % 512 ∧
      t.hout.pageCount.toNat = (s.olen + 511) / 512 ∧
      t.hout.relocationItemCount.toNat = s.rcount ∧
      t.hout.headerParagraphs.toNat = (28 + 4 * s.rcount + 15) / 16 ∧
      t.hout.minalloc = s.hin.minalloc ∧ t.hout.maxalloc = s.hin.maxalloc ∧
      t.hout.ss = s.ep.ss ∧ t.hout.sp = s.ep.sp ∧ t.hout.ip = s.ep.ip ∧ t.hout.cs = s.ep.cs ∧
      t.hout.checksum = 0 ∧ t.hout.relocationTableOffset = 28 ∧ t.hout.overlayNumber = 0

/-- `FieldOverflow` from `HRC` exactly past the bounds R181 gives: `OLEN > 33553920` or `RCOUNT > 65535`. -/
def Obligations.FieldOverflowPastItsBounds : Prop :=
  ∀ s : State, s.inbox = [] → s.phase = .sBuild → (33553920 < s.olen ∨ 65535 < s.rcount) →
    ∃ t, step s = .next t ∧ faulted t 6 5 ∧ inputKept s t

/-- Phase `S_EMIT` writes `HDC.SER(HOUT)`, the relocation block and the code, one after another with nothing
between them, `28 + 4 * RCOUNT + OLEN` bytes, and the job is `DONE` (R196). -/
def Obligations.OutputImageIsTheConcatenation : Prop :=
  ∀ s : State, s.inbox = [] → s.phase = .sEmit → covers s.out s.olen → covers s.rel s.rcount →
    ∃ t, step s = .next t ∧ t = { s with result := t.result, phase := .done } ∧
      covers t.result (28 + 4 * s.rcount + s.olen) ∧
      t.result.map Prod.snd =
        serializeHeader s.hout ++ relocBlock (s.rel.map Prod.snd) ++ s.out.map Prod.snd

/-- A relocation entry is the 32-bit value `(segment << 16) | offset` in four little-endian bytes (R68,
R168). -/
def Obligations.RelocEntryIsLittleEndian : Prop :=
  ∀ v : BitVec 20, ∃ b0 b2 b3 : Byte, relocEntryBytes v = [b0, 0, b2, b3] ∧
    b0.toNat = v.toNat % 16 ∧ b2.toNat + 256 * b3.toNat = v.toNat / 16 ∧
    b0.toNat + 65536 * b2.toNat + 16777216 * b3.toNat = (v.toNat / 16) * 65536 + v.toNat % 16

/-! ## The host interface -/

/-- `START` (R199): ignored while `STATUS = RUN`, else it begins a job: `CAUSE`, `FUNIT` and the three memories
the block writes are cleared, `PHASE = S_HDR`; the registers hold no value then (R21), so nothing is said of
them (log entry 6). That the oldest move leaves the inbox and the others stay is the model's choice (log entry
7). -/
def Obligations.StartBeginsAJobOrIsIgnored : Prop :=
  ∀ (s : State) (rest : List HostMove), s.inbox = .start :: rest →
    (statusOf s.phase = 1 → step s = .next { s with inbox := rest }) ∧
    (statusOf s.phase ≠ 1 →
      ∃ t, step s = .next t ∧ t.phase = .sHdr ∧ t.cause = 0 ∧ t.funit = 0 ∧ t.out = [] ∧ t.rel = [] ∧
        t.result = [] ∧ t.inbox = rest ∧ t.src = s.src ∧ t.n = s.n ∧ t.outCap = s.outCap ∧ t.relCap = s.relCap)

/-- A reset at any time abandons what runs (R240): `PHASE = IDLE`, `CAUSE = 0`, `FUNIT = 0`, no memory holds a
value. That the parameters and the moves still pending stay is the model's choice (log entry 7). -/
def Obligations.PowerOnResetAbandonsAnyJob : Prop :=
  ∀ (s : State) (rest : List HostMove), s.inbox = .reset :: rest →
    ∃ t, step s = .next t ∧ t.phase = .idle ∧ t.cause = 0 ∧ t.funit = 0 ∧
      t.src = [] ∧ t.out = [] ∧ t.rel = [] ∧ t.result = [] ∧
      t.inbox = rest ∧ t.outCap = s.outCap ∧ t.relCap = s.relCap

/-- A host write of `SRC` or `N` (R243) lands between jobs; during a job it is outside the model (R251) and the
model refuses it by name (log entry 8). -/
def Obligations.HostWritesOnlyBetweenJobs : Prop :=
  ∀ (s : State) (rest : List HostMove) (a len : Nat) (bs : List Byte),
    (s.inbox = .writeN len :: rest → statusOf s.phase ≠ 1 → step s = .next { s with inbox := rest, n := len }) ∧
    (s.inbox = .writeSrc a bs :: rest → statusOf s.phase ≠ 1 →
      ∃ t, step s = .next t ∧ t = { s with inbox := rest, src := t.src } ∧
        (∀ k : Nat, (h : k < bs.length) → memRead t.src (a + k) = some bs[k]) ∧
        (∀ k, (k < a ∨ a + bs.length ≤ k) → memRead t.src k = memRead s.src k)) ∧
    (statusOf s.phase = 1 → (s.inbox = .writeN len :: rest ∨ s.inbox = .writeSrc a bs :: rest) →
      step s = .refused .hostWroteDuringJob)

/-- What power-on reset leaves (R40): the values the spec gives, and no memory cell with a value. The values of
the other registers are the model's (log entry 1) and are not stated. -/
def Obligations.ResetState : Prop :=
  State.reset.phase = .idle ∧ statusOf State.reset.phase = 0 ∧ State.reset.cause = 0 ∧ State.reset.funit = 0 ∧
    (∀ a, memRead State.reset.src a = none ∧ memRead State.reset.out a = none ∧
      memRead State.reset.rel a = none ∧ memRead State.reset.result a = none)

/-- `STATUS` as a function of `PHASE`, and its two flags (R23); the host reads `STATUS`, `CAUSE` and `FUNIT` at
any time, `N` and the bytes of `SRC` exactly when `STATUS` is not `RUN`, `RESULT` exactly when it is `DONE`
(R43, R65, R246). -/
def Obligations.StatusAndHostView : Prop :=
  ∀ s : State,
    (statusOf s.phase = 0 ↔ s.phase = .idle) ∧ (statusOf s.phase = 2 ↔ s.phase = .done) ∧
    (statusOf s.phase = 3 ↔ s.phase = .fault) ∧
    (statusOf s.phase = 1 ↔ s.phase ≠ .idle ∧ s.phase ≠ .done ∧ s.phase ≠ .fault) ∧
    (finishedFlag s = true ↔ s.phase = .done ∨ s.phase = .fault) ∧ (failedFlag s = true ↔ s.phase = .fault) ∧
    (hostView s).status = statusOf s.phase ∧ (hostView s).cause = s.cause ∧ (hostView s).funit = s.funit ∧
    (statusOf s.phase = 1 → (hostView s).n = none ∧ (hostView s).src = none) ∧
    (statusOf s.phase ≠ 1 →
      (hostView s).n = some s.n ∧
      ∃ bs, (hostView s).src = some bs ∧ bs.length = s.n ∧ ∀ a < s.n, bs[a]? = some (memRead s.src a)) ∧
    (hostView s).result = (if s.phase = .done then some (s.result.map Prod.snd) else none)

/-- Between jobs the block waits: `DONE` and `FAULT` are kept, with `RESULT`, `CAUSE` and `FUNIT`, until the
host acts (R254). That a step then answers the very same state, in `IDLE` too, is the model's reading (log entry
20). -/
def Obligations.BlockWaitsBetweenJobs : Prop :=
  ∀ s : State, s.inbox = [] → (s.phase = .idle ∨ s.phase = .done ∨ s.phase = .fault) → step s = .next s

/-! ## The whole machine -/

/-- The invariant holds after reset. -/
def Obligations.InvariantHoldsAtReset : Prop := blockInv State.reset

/-- Every step keeps the invariant, from every state that has it: canonical memories, `OUT` and `REL` segments
within their capacities, the bit reader and the cursors inside their regions, rising entries of `REL` none
greater than `ACC`, the regions inside the input, no output in a failed job, a complete `RESULT` in a finished
one. -/
def Obligations.EveryStepKeepsTheInvariant : Prop :=
  ∀ s t : State, blockInv s → step s = .next t → blockInv t

/-- With the host's duty kept (`SRC` written whole before the job, R243) no step of the block stops: no read of
a cell without a value, no read at or above `N` (R83). -/
def Obligations.NoStepStopsUnderTheHostDuty : Prop :=
  ∀ s : State, blockInv s → s.inbox = [] → (statusOf s.phase = 1 → srcLoaded s) → ∃ t, step s = .next t

/-- No job hangs (R255): on an input written whole, a job from `START` is in `DONE` or `FAULT` after `N + 4`
steps of the model (its grain of a step is log entry 9). -/
def Obligations.EveryJobEnds : Prop :=
  ∀ s : State, s.inbox = [] → srcLoaded s →
    ∃ t, runSteps (s.n + 4) (startJob s) = .next t ∧ (t.phase = .done ∨ t.phase = .fault)

/-- A job's course as the host sees it is a function of `N`, `SRC[0 .. N - 1]` and the parameters alone (R198):
nothing carries over from before `START` (R241), whatever the other registers hold (so the values named in log
entries 1 and 6 are not seen). -/
def Obligations.JobDependsOnlyOnItsInput : Prop :=
  ∀ (s1 s2 : State) (k : Nat), s1.inbox = [] → s2.inbox = [] → s1.n = s2.n →
    (∀ a < s1.n, memRead s1.src a = memRead s2.src a) →
    s1.outCap = s2.outCap → s1.relCap = s2.relCap →
    viewOf (runSteps k (startJob s1)) = viewOf (runSteps k (startJob s2))

/-- The block never writes `SRC` or `N` (R61, R79), nor its parameters. -/
def Obligations.BlockNeverWritesItsInput : Prop :=
  ∀ s t : State, s.inbox = [] → step s = .next t →
    t.src = s.src ∧ t.n = s.n ∧ t.outCap = s.outCap ∧ t.relCap = s.relCap ∧ t.inbox = []

/-- `PHASE = FAULT` is entered only from a running job and only with a pair of the table of R206. -/
def Obligations.FaultsAreThoseOfTheTable : Prop :=
  ∀ s t : State, step s = .next t → t.phase = .fault → s.phase ≠ .fault →
    (t.cause, t.funit) ∈ faultTable ∧ statusOf s.phase = 1

/-- A step of the block moves `PHASE` only as R193 orders, or to `FAULT` from a running job; only the two stream
phases and the waiting phases may last more than one step. That each of the others is one step is the model's
reading (log entry 9). -/
def Obligations.PhasesFollowTheJobOrder : Prop :=
  ∀ s t : State, s.inbox = [] → step s = .next t →
    (t.phase = nextPhase s.phase ∨ (t.phase = s.phase ∧ (s.phase = .sCode ∨ s.phase = .sRel)) ∨
      (t.phase = .fault ∧ statusOf s.phase = 1))

/-- A token that ends in a fault leaves `OUT`, `REL`, `OLEN`, `RCOUNT` and `ACC` as they were (R215, log entry
5), and no output (R197). -/
def Obligations.FaultingTokenHasNoEffect : Prop :=
  ∀ s t : State, s.inbox = [] → (s.phase = .sCode ∨ s.phase = .sRel) → step s = .next t → t.phase = .fault →
    faultKeeps s t ∧ t.result = []

/-- A stream of literals and the terminator, laid out by R113 at `PAY_BASE`, reproduces exactly the literal
bytes, in order (R154). That `END`'s own step, the last one counted, moves `PHASE` to `S_REL` is the model's
reading (log entry 9). -/
def Obligations.LiteralStreamReproducesItsBytes : Prop :=
  ∀ (s : State) (bs pl : List Byte) (lo : Byte) (hi5 : BitVec 5), s.inbox = [] →
    pl = layoutCode (bs.map Instr.lit ++ [.endCode lo hi5]) →
    s.payBase + pl.length ≤ s.payLimit → srcReadRange s s.payBase pl.length = .ok pl →
    withinCap bs.length s.outCap = true →
    ∃ s0 t, enterCode s = .ok s0 ∧ runSteps (bs.length + 1) s0 = .next t ∧ t.phase = .sRel ∧
      t.olen = bs.length ∧ covers t.out bs.length ∧ t.out.map Prod.snd = bs
end

