-- ==== Sys2Proof/Laws/Memory.lean ====
section
/-! SUPPORT. The laws of the memories: read after write, and the canonical form is kept. -/

namespace Sys2Proof.Machine

variable {α : Type}

@[simp] theorem memRead_memWrite_self (m : Mem α) (a : Nat) (x : α) : memRead (memWrite m a x) a = some x := by
  induction m with
  | nil => simp [memWrite, memRead]
  | cons c rest ih =>
    obtain ⟨k, v⟩ := c
    simp only [memWrite]
    split
    · simp [memRead]
    · split
      · simp [memRead]
      · rename_i h; simp [memRead, h, ih]

theorem memRead_memWrite_ne (m : Mem α) {a b : Nat} (x : α) (h : b ≠ a) :
    memRead (memWrite m a x) b = memRead m b := by
  induction m with
  | nil => simp [memWrite, memRead, h]
  | cons c rest ih =>
    obtain ⟨k, v⟩ := c
    simp only [memWrite]
    split
    · simp [memRead, h]
    · split
      · rename_i hk; subst hk; simp [memRead, h]
      · simp [memRead, ih]

/-- Where the addresses of a write can stand. -/
theorem mem_addrs_memWrite (m : Mem α) (a : Nat) (x : α) {b : Nat}
    (h : b ∈ (memWrite m a x).map Prod.fst) : b = a ∨ b ∈ m.map Prod.fst := by
  induction m with
  | nil => simpa [memWrite] using h
  | cons c rest ih =>
    obtain ⟨k, v⟩ := c
    simp only [memWrite] at h
    split at h
    · simpa using h
    · split at h
      · simp only [List.map_cons, List.mem_cons] at h ⊢; tauto
      · simp only [List.map_cons, List.mem_cons] at h ⊢
        rcases h with h | h
        · exact .inr (.inl h)
        · rcases ih h with h | h <;> simp [h]

/-- A write keeps the canonical form. -/
theorem memWrite_wf (m : Mem α) (a : Nat) (x : α) (h : memWf m) : memWf (memWrite m a x) := by
  induction m with
  | nil => simp [memWrite, memWf]
  | cons c rest ih =>
    obtain ⟨k, v⟩ := c
    have hk : ∀ b ∈ rest.map Prod.fst, k < b := (List.pairwise_cons.1 h).1
    have hr : memWf rest := (List.pairwise_cons.1 h).2
    simp only [memWrite]
    split
    · rename_i hlt
      refine List.pairwise_cons.2 ⟨fun b hb => ?_, h⟩
      rcases List.mem_cons.1 hb with rfl | hb
      · exact hlt
      · exact lt_trans hlt (hk b hb)
    · split
      · rename_i heq; subst heq; exact List.pairwise_cons.2 ⟨hk, hr⟩
      · rename_i hlt hne
        refine List.pairwise_cons.2 ⟨fun b hb => ?_, ih hr⟩
        rcases mem_addrs_memWrite rest a x hb with rfl | hb
        · show k < b; omega
        · exact hk b hb

/-- A write of several cells keeps the canonical form. -/
theorem memWriteList_wf (xs : List α) : ∀ (m : Mem α) (a : Nat), memWf m → memWf (memWriteList m a xs) := by
  induction xs with
  | nil => intro m a h; simpa [memWriteList] using h
  | cons x xs ih => intro m a h; exact ih _ _ (memWrite_wf m a x h)

/-- The empty memory is canonical: it is what `State.reset` holds. -/
theorem memWf_nil : memWf ([] : Mem α) := List.Pairwise.nil

/-- A write above every address held appends one cell. -/
theorem memWrite_append (m : Mem α) (a : Nat) (x : α) (h : ∀ b ∈ m.map Prod.fst, b < a) :
    memWrite m a x = m ++ [(a, x)] := by
  induction m with
  | nil => simp [memWrite]
  | cons c rest ih =>
    obtain ⟨k, v⟩ := c
    have hk : k < a := h k (by simp)
    have hr : ∀ b ∈ rest.map Prod.fst, b < a := fun b hb => h b (by simp [hb])
    simp [memWrite, ih hr, show ¬ a < k by omega, show a ≠ k by omega]

/-- A memory that covers a length, written at that length, is the memory with one cell appended. -/
theorem covers_memWrite_eq {m : Mem α} {len : Nat} (h : covers m len) (x : α) :
    memWrite m len x = m ++ [(len, x)] :=
  memWrite_append m len x fun b hb => by
    have : b ∈ List.range len := h ▸ hb
    simpa using this

/-- An append keeps a memory a segment from address 0 up (R63, R64). -/
theorem covers_memWrite {m : Mem α} {len : Nat} (h : covers m len) (x : α) :
    covers (memWrite m len x) (len + 1) := by
  rw [covers_memWrite_eq h, covers, List.map_append, h]; simp [List.range_succ]

theorem covers_nil : covers ([] : Mem α) 0 := rfl

/-- A memory that covers a length is canonical. -/
theorem memWf_of_covers {m : Mem α} {len : Nat} (h : covers m len) : memWf m := by
  rw [memWf, h]; exact List.pairwise_lt_range

/-- Every memory of `State.reset` is canonical. -/
theorem reset_memories_wf :
    memWf State.reset.src ∧ memWf State.reset.out ∧ memWf State.reset.rel ∧ memWf State.reset.result :=
  ⟨memWf_nil, memWf_nil, memWf_nil, memWf_nil⟩

/-- A memory made of listed cells is canonical, whatever the cells. -/
theorem memOfCells_wf (cells : List (Nat × α)) : memWf (memOfCells cells) := by
  induction cells with
  | nil => exact memWf_nil
  | cons c cells ih => exact memWrite_wf _ c.1 c.2 ih

/-- A memory made of a sequence is canonical. -/
theorem memOfList_wf (xs : List α) : memWf (memOfList xs) := memWriteList_wf xs [] 0 memWf_nil

/-- A cell is held exactly if its address is listed. -/
theorem memRead_isSome_iff (m : Mem α) (a : Nat) : (memRead m a).isSome ↔ a ∈ m.map Prod.fst := by
  induction m with
  | nil => simp [memRead]
  | cons c rest ih =>
    obtain ⟨k, v⟩ := c
    simp only [memRead, List.map_cons, List.mem_cons]
    split
    · simp_all
    · simp_all

/-- In a memory that covers a length, exactly the addresses below it hold a value. -/
theorem covers_isSome {m : Mem α} {len : Nat} (h : covers m len) (a : Nat) :
    (memRead m a).isSome ↔ a < len := by
  rw [memRead_isSome_iff, h, List.mem_range]

/-- Several cells written from the covered length up. -/
theorem covers_memWriteList (xs : List α) : ∀ (m : Mem α) (len : Nat), covers m len →
    covers (memWriteList m len xs) (len + xs.length) := by
  induction xs with
  | nil => intro m len h; simpa [memWriteList] using h
  | cons x xs ih =>
    intro m len h
    have := ih _ _ (covers_memWrite h x)
    simpa [memWriteList, Nat.add_assoc, Nat.add_comm 1] using this

/-- `memOfList` holds a list's values at 0, 1, 2, and so on. -/
theorem covers_memOfList (xs : List α) : covers (memOfList xs) xs.length := by
  simpa [memOfList] using covers_memWriteList xs [] 0 covers_nil

/-- A range read gives as many values as it is asked for. -/
theorem cellReadRange_length {sp : Space} {m : Mem α} : ∀ {len a : Nat} {vs : List α},
    cellReadRange sp m a len = .ok vs → vs.length = len := by
  intro len
  induction len with
  | zero => intro a vs h; cases h; rfl
  | succ len ih =>
    intro a vs h
    simp only [cellReadRange] at h
    split at h
    · cases h
    · split at h
      · cases h
      · rename_i hvs; cases h; simp [ih hvs]

/-- A range read of `SRC` gives as many bytes as it is asked for. -/
theorem srcReadRange_length {s : State} : ∀ {len a : Nat} {bs : List Byte},
    srcReadRange s a len = .ok bs → bs.length = len := by
  intro len
  induction len with
  | zero => intro a bs h; cases h; rfl
  | succ len ih =>
    intro a bs h
    simp only [srcReadRange] at h
    split at h
    · cases h
    · split at h
      · cases h
      · rename_i hbs; cases h; simp [ih hbs]

end Sys2Proof.Machine
end

