-- ==== Sys2Proof/Laws/State.lean ====
section
/-! SUPPORT. One lemma per field per named update of `State`, each true by unfolding the record update. -/

namespace Sys2Proof.Machine

/-! ### `pushOut` : one byte appended to `OUT` (R142) -/

@[simp] theorem pushOut_phase (s : State) (v : Byte) : (pushOut s v).phase = s.phase := rfl
@[simp] theorem pushOut_cause (s : State) (v : Byte) : (pushOut s v).cause = s.cause := rfl
@[simp] theorem pushOut_funit (s : State) (v : Byte) : (pushOut s v).funit = s.funit := rfl
@[simp] theorem pushOut_n (s : State) (v : Byte) : (pushOut s v).n = s.n := rfl
@[simp] theorem pushOut_payBase (s : State) (v : Byte) : (pushOut s v).payBase = s.payBase := rfl
@[simp] theorem pushOut_payLimit (s : State) (v : Byte) : (pushOut s v).payLimit = s.payLimit := rfl
@[simp] theorem pushOut_regBase (s : State) (v : Byte) : (pushOut s v).regBase = s.regBase := rfl
@[simp] theorem pushOut_relBase (s : State) (v : Byte) : (pushOut s v).relBase = s.relBase := rfl
@[simp] theorem pushOut_relLimit (s : State) (v : Byte) : (pushOut s v).relLimit = s.relLimit := rfl
@[simp] theorem pushOut_hin (s : State) (v : Byte) : (pushOut s v).hin = s.hin := rfl
@[simp] theorem pushOut_ep (s : State) (v : Byte) : (pushOut s v).ep = s.ep := rfl
@[simp] theorem pushOut_hout (s : State) (v : Byte) : (pushOut s v).hout = s.hout := rfl
@[simp] theorem pushOut_bitBuf (s : State) (v : Byte) : (pushOut s v).bitBuf = s.bitBuf := rfl
@[simp] theorem pushOut_bitCnt (s : State) (v : Byte) : (pushOut s v).bitCnt = s.bitCnt := rfl
@[simp] theorem pushOut_cur (s : State) (v : Byte) : (pushOut s v).cur = s.cur := rfl
@[simp] theorem pushOut_olen (s : State) (v : Byte) : (pushOut s v).olen = s.olen + 1 := rfl
@[simp] theorem pushOut_rcur (s : State) (v : Byte) : (pushOut s v).rcur = s.rcur := rfl
@[simp] theorem pushOut_acc (s : State) (v : Byte) : (pushOut s v).acc = s.acc := rfl
@[simp] theorem pushOut_rcount (s : State) (v : Byte) : (pushOut s v).rcount = s.rcount := rfl
@[simp] theorem pushOut_src (s : State) (v : Byte) : (pushOut s v).src = s.src := rfl
@[simp] theorem pushOut_out (s : State) (v : Byte) : (pushOut s v).out = memWrite s.out s.olen v := rfl
@[simp] theorem pushOut_rel (s : State) (v : Byte) : (pushOut s v).rel = s.rel := rfl
@[simp] theorem pushOut_result (s : State) (v : Byte) : (pushOut s v).result = s.result := rfl
@[simp] theorem pushOut_outCap (s : State) (v : Byte) : (pushOut s v).outCap = s.outCap := rfl
@[simp] theorem pushOut_relCap (s : State) (v : Byte) : (pushOut s v).relCap = s.relCap := rfl
@[simp] theorem pushOut_inbox (s : State) (v : Byte) : (pushOut s v).inbox = s.inbox := rfl
@[simp] theorem pushOut_free (s : State) (v : Byte) : (pushOut s v).free = s.free := rfl

/-! ### `forgetRegs` : the registers take free values (R21, R214) -/

@[simp] theorem forgetRegs_phase (s : State) : (forgetRegs s).phase = s.phase := rfl
@[simp] theorem forgetRegs_cause (s : State) : (forgetRegs s).cause = s.cause := rfl
@[simp] theorem forgetRegs_funit (s : State) : (forgetRegs s).funit = s.funit := rfl
@[simp] theorem forgetRegs_n (s : State) : (forgetRegs s).n = s.n := rfl
@[simp] theorem forgetRegs_payBase (s : State) : (forgetRegs s).payBase = (Config.unspecified s.free).payBase := rfl
@[simp] theorem forgetRegs_payLimit (s : State) : (forgetRegs s).payLimit = (Config.unspecified s.free).payLimit := rfl
@[simp] theorem forgetRegs_regBase (s : State) : (forgetRegs s).regBase = (Config.unspecified s.free).regBase := rfl
@[simp] theorem forgetRegs_relBase (s : State) : (forgetRegs s).relBase = (Config.unspecified s.free).relBase := rfl
@[simp] theorem forgetRegs_relLimit (s : State) : (forgetRegs s).relLimit = (Config.unspecified s.free).relLimit := rfl
@[simp] theorem forgetRegs_hin (s : State) : (forgetRegs s).hin = (Config.unspecified s.free).hin := rfl
@[simp] theorem forgetRegs_ep (s : State) : (forgetRegs s).ep = (Config.unspecified s.free).ep := rfl
@[simp] theorem forgetRegs_hout (s : State) : (forgetRegs s).hout = (Config.unspecified s.free).hout := rfl
@[simp] theorem forgetRegs_bitBuf (s : State) : (forgetRegs s).bitBuf = (Config.unspecified s.free).bitBuf := rfl
@[simp] theorem forgetRegs_bitCnt (s : State) : (forgetRegs s).bitCnt = (Config.unspecified s.free).bitCnt := rfl
@[simp] theorem forgetRegs_cur (s : State) : (forgetRegs s).cur = (Config.unspecified s.free).cur := rfl
@[simp] theorem forgetRegs_olen (s : State) : (forgetRegs s).olen = (Config.unspecified s.free).olen := rfl
@[simp] theorem forgetRegs_rcur (s : State) : (forgetRegs s).rcur = (Config.unspecified s.free).rcur := rfl
@[simp] theorem forgetRegs_acc (s : State) : (forgetRegs s).acc = (Config.unspecified s.free).acc := rfl
@[simp] theorem forgetRegs_rcount (s : State) : (forgetRegs s).rcount = (Config.unspecified s.free).rcount := rfl
@[simp] theorem forgetRegs_src (s : State) : (forgetRegs s).src = s.src := rfl
@[simp] theorem forgetRegs_out (s : State) : (forgetRegs s).out = s.out := rfl
@[simp] theorem forgetRegs_rel (s : State) : (forgetRegs s).rel = s.rel := rfl
@[simp] theorem forgetRegs_result (s : State) : (forgetRegs s).result = s.result := rfl
@[simp] theorem forgetRegs_outCap (s : State) : (forgetRegs s).outCap = s.outCap := rfl
@[simp] theorem forgetRegs_relCap (s : State) : (forgetRegs s).relCap = s.relCap := rfl
@[simp] theorem forgetRegs_inbox (s : State) : (forgetRegs s).inbox = s.inbox := rfl
@[simp] theorem forgetRegs_free (s : State) : (forgetRegs s).free = s.free + 1 := rfl

/-! ### `raise` : the fault entry (R214) -/

@[simp] theorem raise_phase (k : FaultKind) (u : UnitId) (s : State) : (raise k u s).phase = .fault := rfl
@[simp] theorem raise_cause (k : FaultKind) (u : UnitId) (s : State) : (raise k u s).cause = causeCode k := rfl
@[simp] theorem raise_funit (k : FaultKind) (u : UnitId) (s : State) : (raise k u s).funit = unitCode u := rfl
@[simp] theorem raise_n (k : FaultKind) (u : UnitId) (s : State) : (raise k u s).n = s.n := rfl
@[simp] theorem raise_payBase (k : FaultKind) (u : UnitId) (s : State) : (raise k u s).payBase = (Config.unspecified s.free).payBase := rfl
@[simp] theorem raise_payLimit (k : FaultKind) (u : UnitId) (s : State) : (raise k u s).payLimit = (Config.unspecified s.free).payLimit := rfl
@[simp] theorem raise_regBase (k : FaultKind) (u : UnitId) (s : State) : (raise k u s).regBase = (Config.unspecified s.free).regBase := rfl
@[simp] theorem raise_relBase (k : FaultKind) (u : UnitId) (s : State) : (raise k u s).relBase = (Config.unspecified s.free).relBase := rfl
@[simp] theorem raise_relLimit (k : FaultKind) (u : UnitId) (s : State) : (raise k u s).relLimit = (Config.unspecified s.free).relLimit := rfl
@[simp] theorem raise_hin (k : FaultKind) (u : UnitId) (s : State) : (raise k u s).hin = (Config.unspecified s.free).hin := rfl
@[simp] theorem raise_ep (k : FaultKind) (u : UnitId) (s : State) : (raise k u s).ep = (Config.unspecified s.free).ep := rfl
@[simp] theorem raise_hout (k : FaultKind) (u : UnitId) (s : State) : (raise k u s).hout = (Config.unspecified s.free).hout := rfl
@[simp] theorem raise_bitBuf (k : FaultKind) (u : UnitId) (s : State) : (raise k u s).bitBuf = (Config.unspecified s.free).bitBuf := rfl
@[simp] theorem raise_bitCnt (k : FaultKind) (u : UnitId) (s : State) : (raise k u s).bitCnt = (Config.unspecified s.free).bitCnt := rfl
@[simp] theorem raise_cur (k : FaultKind) (u : UnitId) (s : State) : (raise k u s).cur = (Config.unspecified s.free).cur := rfl
@[simp] theorem raise_olen (k : FaultKind) (u : UnitId) (s : State) : (raise k u s).olen = (Config.unspecified s.free).olen := rfl
@[simp] theorem raise_rcur (k : FaultKind) (u : UnitId) (s : State) : (raise k u s).rcur = (Config.unspecified s.free).rcur := rfl
@[simp] theorem raise_acc (k : FaultKind) (u : UnitId) (s : State) : (raise k u s).acc = (Config.unspecified s.free).acc := rfl
@[simp] theorem raise_rcount (k : FaultKind) (u : UnitId) (s : State) : (raise k u s).rcount = (Config.unspecified s.free).rcount := rfl
@[simp] theorem raise_src (k : FaultKind) (u : UnitId) (s : State) : (raise k u s).src = s.src := rfl
@[simp] theorem raise_out (k : FaultKind) (u : UnitId) (s : State) : (raise k u s).out = memOfCells (Config.unspecifiedOut s.free) := rfl
@[simp] theorem raise_rel (k : FaultKind) (u : UnitId) (s : State) : (raise k u s).rel = memOfCells (Config.unspecifiedRel s.free) := rfl
@[simp] theorem raise_result (k : FaultKind) (u : UnitId) (s : State) : (raise k u s).result = [] := rfl
@[simp] theorem raise_outCap (k : FaultKind) (u : UnitId) (s : State) : (raise k u s).outCap = s.outCap := rfl
@[simp] theorem raise_relCap (k : FaultKind) (u : UnitId) (s : State) : (raise k u s).relCap = s.relCap := rfl
@[simp] theorem raise_inbox (k : FaultKind) (u : UnitId) (s : State) : (raise k u s).inbox = s.inbox := rfl
@[simp] theorem raise_free (k : FaultKind) (u : UnitId) (s : State) : (raise k u s).free = s.free + 1 := rfl

/-! ### `raiseToken` : the fault entry of a token (R215) -/

@[simp] theorem raiseToken_phase (k : FaultKind) (u : UnitId) (s : State) : (raiseToken k u s).phase = .fault := rfl
@[simp] theorem raiseToken_cause (k : FaultKind) (u : UnitId) (s : State) : (raiseToken k u s).cause = causeCode k := rfl
@[simp] theorem raiseToken_funit (k : FaultKind) (u : UnitId) (s : State) : (raiseToken k u s).funit = unitCode u := rfl
@[simp] theorem raiseToken_n (k : FaultKind) (u : UnitId) (s : State) : (raiseToken k u s).n = s.n := rfl
@[simp] theorem raiseToken_payBase (k : FaultKind) (u : UnitId) (s : State) : (raiseToken k u s).payBase = (Config.unspecified s.free).payBase := rfl
@[simp] theorem raiseToken_payLimit (k : FaultKind) (u : UnitId) (s : State) : (raiseToken k u s).payLimit = (Config.unspecified s.free).payLimit := rfl
@[simp] theorem raiseToken_regBase (k : FaultKind) (u : UnitId) (s : State) : (raiseToken k u s).regBase = (Config.unspecified s.free).regBase := rfl
@[simp] theorem raiseToken_relBase (k : FaultKind) (u : UnitId) (s : State) : (raiseToken k u s).relBase = (Config.unspecified s.free).relBase := rfl
@[simp] theorem raiseToken_relLimit (k : FaultKind) (u : UnitId) (s : State) : (raiseToken k u s).relLimit = (Config.unspecified s.free).relLimit := rfl
@[simp] theorem raiseToken_hin (k : FaultKind) (u : UnitId) (s : State) : (raiseToken k u s).hin = (Config.unspecified s.free).hin := rfl
@[simp] theorem raiseToken_ep (k : FaultKind) (u : UnitId) (s : State) : (raiseToken k u s).ep = (Config.unspecified s.free).ep := rfl
@[simp] theorem raiseToken_hout (k : FaultKind) (u : UnitId) (s : State) : (raiseToken k u s).hout = (Config.unspecified s.free).hout := rfl
@[simp] theorem raiseToken_bitBuf (k : FaultKind) (u : UnitId) (s : State) : (raiseToken k u s).bitBuf = (Config.unspecified s.free).bitBuf := rfl
@[simp] theorem raiseToken_bitCnt (k : FaultKind) (u : UnitId) (s : State) : (raiseToken k u s).bitCnt = (Config.unspecified s.free).bitCnt := rfl
@[simp] theorem raiseToken_cur (k : FaultKind) (u : UnitId) (s : State) : (raiseToken k u s).cur = (Config.unspecified s.free).cur := rfl
@[simp] theorem raiseToken_olen (k : FaultKind) (u : UnitId) (s : State) : (raiseToken k u s).olen = s.olen := rfl
@[simp] theorem raiseToken_rcur (k : FaultKind) (u : UnitId) (s : State) : (raiseToken k u s).rcur = (Config.unspecified s.free).rcur := rfl
@[simp] theorem raiseToken_acc (k : FaultKind) (u : UnitId) (s : State) : (raiseToken k u s).acc = s.acc := rfl
@[simp] theorem raiseToken_rcount (k : FaultKind) (u : UnitId) (s : State) : (raiseToken k u s).rcount = s.rcount := rfl
@[simp] theorem raiseToken_src (k : FaultKind) (u : UnitId) (s : State) : (raiseToken k u s).src = s.src := rfl
@[simp] theorem raiseToken_out (k : FaultKind) (u : UnitId) (s : State) : (raiseToken k u s).out = s.out := rfl
@[simp] theorem raiseToken_rel (k : FaultKind) (u : UnitId) (s : State) : (raiseToken k u s).rel = s.rel := rfl
@[simp] theorem raiseToken_result (k : FaultKind) (u : UnitId) (s : State) : (raiseToken k u s).result = [] := rfl
@[simp] theorem raiseToken_outCap (k : FaultKind) (u : UnitId) (s : State) : (raiseToken k u s).outCap = s.outCap := rfl
@[simp] theorem raiseToken_relCap (k : FaultKind) (u : UnitId) (s : State) : (raiseToken k u s).relCap = s.relCap := rfl
@[simp] theorem raiseToken_inbox (k : FaultKind) (u : UnitId) (s : State) : (raiseToken k u s).inbox = s.inbox := rfl
@[simp] theorem raiseToken_free (k : FaultKind) (u : UnitId) (s : State) : (raiseToken k u s).free = s.free + 1 := rfl

/-! ### `enterReloc` : the start of `RTD.RUN` (R160) -/

@[simp] theorem enterReloc_phase (s : State) : (enterReloc s).phase = .sRel := rfl
@[simp] theorem enterReloc_cause (s : State) : (enterReloc s).cause = s.cause := rfl
@[simp] theorem enterReloc_funit (s : State) : (enterReloc s).funit = s.funit := rfl
@[simp] theorem enterReloc_n (s : State) : (enterReloc s).n = s.n := rfl
@[simp] theorem enterReloc_payBase (s : State) : (enterReloc s).payBase = s.payBase := rfl
@[simp] theorem enterReloc_payLimit (s : State) : (enterReloc s).payLimit = s.payLimit := rfl
@[simp] theorem enterReloc_regBase (s : State) : (enterReloc s).regBase = s.regBase := rfl
@[simp] theorem enterReloc_relBase (s : State) : (enterReloc s).relBase = s.relBase := rfl
@[simp] theorem enterReloc_relLimit (s : State) : (enterReloc s).relLimit = s.relLimit := rfl
@[simp] theorem enterReloc_hin (s : State) : (enterReloc s).hin = s.hin := rfl
@[simp] theorem enterReloc_ep (s : State) : (enterReloc s).ep = s.ep := rfl
@[simp] theorem enterReloc_hout (s : State) : (enterReloc s).hout = s.hout := rfl
@[simp] theorem enterReloc_bitBuf (s : State) : (enterReloc s).bitBuf = s.bitBuf := rfl
@[simp] theorem enterReloc_bitCnt (s : State) : (enterReloc s).bitCnt = s.bitCnt := rfl
@[simp] theorem enterReloc_cur (s : State) : (enterReloc s).cur = s.cur := rfl
@[simp] theorem enterReloc_olen (s : State) : (enterReloc s).olen = s.olen := rfl
@[simp] theorem enterReloc_rcur (s : State) : (enterReloc s).rcur = s.relBase := rfl
@[simp] theorem enterReloc_acc (s : State) : (enterReloc s).acc = 0 := rfl
@[simp] theorem enterReloc_rcount (s : State) : (enterReloc s).rcount = 0 := rfl
@[simp] theorem enterReloc_src (s : State) : (enterReloc s).src = s.src := rfl
@[simp] theorem enterReloc_out (s : State) : (enterReloc s).out = s.out := rfl
@[simp] theorem enterReloc_rel (s : State) : (enterReloc s).rel = [] := rfl
@[simp] theorem enterReloc_result (s : State) : (enterReloc s).result = s.result := rfl
@[simp] theorem enterReloc_outCap (s : State) : (enterReloc s).outCap = s.outCap := rfl
@[simp] theorem enterReloc_relCap (s : State) : (enterReloc s).relCap = s.relCap := rfl
@[simp] theorem enterReloc_inbox (s : State) : (enterReloc s).inbox = s.inbox := rfl
@[simp] theorem enterReloc_free (s : State) : (enterReloc s).free = s.free := rfl

/-! ### `enterRegs` : `PHASE = S_REGS` (R193) -/

@[simp] theorem enterRegs_phase (s : State) : (enterRegs s).phase = .sRegs := rfl
@[simp] theorem enterRegs_cause (s : State) : (enterRegs s).cause = s.cause := rfl
@[simp] theorem enterRegs_funit (s : State) : (enterRegs s).funit = s.funit := rfl
@[simp] theorem enterRegs_n (s : State) : (enterRegs s).n = s.n := rfl
@[simp] theorem enterRegs_payBase (s : State) : (enterRegs s).payBase = s.payBase := rfl
@[simp] theorem enterRegs_payLimit (s : State) : (enterRegs s).payLimit = s.payLimit := rfl
@[simp] theorem enterRegs_regBase (s : State) : (enterRegs s).regBase = s.regBase := rfl
@[simp] theorem enterRegs_relBase (s : State) : (enterRegs s).relBase = s.relBase := rfl
@[simp] theorem enterRegs_relLimit (s : State) : (enterRegs s).relLimit = s.relLimit := rfl
@[simp] theorem enterRegs_hin (s : State) : (enterRegs s).hin = s.hin := rfl
@[simp] theorem enterRegs_ep (s : State) : (enterRegs s).ep = s.ep := rfl
@[simp] theorem enterRegs_hout (s : State) : (enterRegs s).hout = s.hout := rfl
@[simp] theorem enterRegs_bitBuf (s : State) : (enterRegs s).bitBuf = s.bitBuf := rfl
@[simp] theorem enterRegs_bitCnt (s : State) : (enterRegs s).bitCnt = s.bitCnt := rfl
@[simp] theorem enterRegs_cur (s : State) : (enterRegs s).cur = s.cur := rfl
@[simp] theorem enterRegs_olen (s : State) : (enterRegs s).olen = s.olen := rfl
@[simp] theorem enterRegs_rcur (s : State) : (enterRegs s).rcur = s.rcur := rfl
@[simp] theorem enterRegs_acc (s : State) : (enterRegs s).acc = s.acc := rfl
@[simp] theorem enterRegs_rcount (s : State) : (enterRegs s).rcount = s.rcount := rfl
@[simp] theorem enterRegs_src (s : State) : (enterRegs s).src = s.src := rfl
@[simp] theorem enterRegs_out (s : State) : (enterRegs s).out = s.out := rfl
@[simp] theorem enterRegs_rel (s : State) : (enterRegs s).rel = s.rel := rfl
@[simp] theorem enterRegs_result (s : State) : (enterRegs s).result = s.result := rfl
@[simp] theorem enterRegs_outCap (s : State) : (enterRegs s).outCap = s.outCap := rfl
@[simp] theorem enterRegs_relCap (s : State) : (enterRegs s).relCap = s.relCap := rfl
@[simp] theorem enterRegs_inbox (s : State) : (enterRegs s).inbox = s.inbox := rfl
@[simp] theorem enterRegs_free (s : State) : (enterRegs s).free = s.free := rfl

/-! ### `deriveRegions` : the region descriptors (R191) -/

@[simp] theorem deriveRegions_phase (s : State) : (deriveRegions s).phase = s.phase := rfl
@[simp] theorem deriveRegions_cause (s : State) : (deriveRegions s).cause = s.cause := rfl
@[simp] theorem deriveRegions_funit (s : State) : (deriveRegions s).funit = s.funit := rfl
@[simp] theorem deriveRegions_n (s : State) : (deriveRegions s).n = s.n := rfl
@[simp] theorem deriveRegions_payBase (s : State) : (deriveRegions s).payBase = payloadStart s.hin := rfl
@[simp] theorem deriveRegions_payLimit (s : State) : (deriveRegions s).payLimit = loaderOff s.hin := rfl
@[simp] theorem deriveRegions_regBase (s : State) : (deriveRegions s).regBase = loaderOff s.hin := rfl
@[simp] theorem deriveRegions_relBase (s : State) : (deriveRegions s).relBase = loaderOff s.hin + relTableOff := rfl
@[simp] theorem deriveRegions_relLimit (s : State) : (deriveRegions s).relLimit = s.n := rfl
@[simp] theorem deriveRegions_hin (s : State) : (deriveRegions s).hin = s.hin := rfl
@[simp] theorem deriveRegions_ep (s : State) : (deriveRegions s).ep = s.ep := rfl
@[simp] theorem deriveRegions_hout (s : State) : (deriveRegions s).hout = s.hout := rfl
@[simp] theorem deriveRegions_bitBuf (s : State) : (deriveRegions s).bitBuf = s.bitBuf := rfl
@[simp] theorem deriveRegions_bitCnt (s : State) : (deriveRegions s).bitCnt = s.bitCnt := rfl
@[simp] theorem deriveRegions_cur (s : State) : (deriveRegions s).cur = s.cur := rfl
@[simp] theorem deriveRegions_olen (s : State) : (deriveRegions s).olen = s.olen := rfl
@[simp] theorem deriveRegions_rcur (s : State) : (deriveRegions s).rcur = s.rcur := rfl
@[simp] theorem deriveRegions_acc (s : State) : (deriveRegions s).acc = s.acc := rfl
@[simp] theorem deriveRegions_rcount (s : State) : (deriveRegions s).rcount = s.rcount := rfl
@[simp] theorem deriveRegions_src (s : State) : (deriveRegions s).src = s.src := rfl
@[simp] theorem deriveRegions_out (s : State) : (deriveRegions s).out = s.out := rfl
@[simp] theorem deriveRegions_rel (s : State) : (deriveRegions s).rel = s.rel := rfl
@[simp] theorem deriveRegions_result (s : State) : (deriveRegions s).result = s.result := rfl
@[simp] theorem deriveRegions_outCap (s : State) : (deriveRegions s).outCap = s.outCap := rfl
@[simp] theorem deriveRegions_relCap (s : State) : (deriveRegions s).relCap = s.relCap := rfl
@[simp] theorem deriveRegions_inbox (s : State) : (deriveRegions s).inbox = s.inbox := rfl
@[simp] theorem deriveRegions_free (s : State) : (deriveRegions s).free = s.free := rfl

/-! ### `startJob` : an accepted `START` (R199) -/

@[simp] theorem startJob_phase (s : State) : (startJob s).phase = .sHdr := rfl
@[simp] theorem startJob_cause (s : State) : (startJob s).cause = 0 := rfl
@[simp] theorem startJob_funit (s : State) : (startJob s).funit = 0 := rfl
@[simp] theorem startJob_n (s : State) : (startJob s).n = s.n := rfl
@[simp] theorem startJob_payBase (s : State) : (startJob s).payBase = (Config.unspecified s.free).payBase := rfl
@[simp] theorem startJob_payLimit (s : State) : (startJob s).payLimit = (Config.unspecified s.free).payLimit := rfl
@[simp] theorem startJob_regBase (s : State) : (startJob s).regBase = (Config.unspecified s.free).regBase := rfl
@[simp] theorem startJob_relBase (s : State) : (startJob s).relBase = (Config.unspecified s.free).relBase := rfl
@[simp] theorem startJob_relLimit (s : State) : (startJob s).relLimit = (Config.unspecified s.free).relLimit := rfl
@[simp] theorem startJob_hin (s : State) : (startJob s).hin = (Config.unspecified s.free).hin := rfl
@[simp] theorem startJob_ep (s : State) : (startJob s).ep = (Config.unspecified s.free).ep := rfl
@[simp] theorem startJob_hout (s : State) : (startJob s).hout = (Config.unspecified s.free).hout := rfl
@[simp] theorem startJob_bitBuf (s : State) : (startJob s).bitBuf = (Config.unspecified s.free).bitBuf := rfl
@[simp] theorem startJob_bitCnt (s : State) : (startJob s).bitCnt = (Config.unspecified s.free).bitCnt := rfl
@[simp] theorem startJob_cur (s : State) : (startJob s).cur = (Config.unspecified s.free).cur := rfl
@[simp] theorem startJob_olen (s : State) : (startJob s).olen = (Config.unspecified s.free).olen := rfl
@[simp] theorem startJob_rcur (s : State) : (startJob s).rcur = (Config.unspecified s.free).rcur := rfl
@[simp] theorem startJob_acc (s : State) : (startJob s).acc = (Config.unspecified s.free).acc := rfl
@[simp] theorem startJob_rcount (s : State) : (startJob s).rcount = (Config.unspecified s.free).rcount := rfl
@[simp] theorem startJob_src (s : State) : (startJob s).src = s.src := rfl
@[simp] theorem startJob_out (s : State) : (startJob s).out = [] := rfl
@[simp] theorem startJob_rel (s : State) : (startJob s).rel = [] := rfl
@[simp] theorem startJob_result (s : State) : (startJob s).result = [] := rfl
@[simp] theorem startJob_outCap (s : State) : (startJob s).outCap = s.outCap := rfl
@[simp] theorem startJob_relCap (s : State) : (startJob s).relCap = s.relCap := rfl
@[simp] theorem startJob_inbox (s : State) : (startJob s).inbox = s.inbox := rfl
@[simp] theorem startJob_free (s : State) : (startJob s).free = s.free + 1 := rfl

/-! ### `powerOnReset` : power-on reset (R240) -/

@[simp] theorem powerOnReset_phase (s : State) : (powerOnReset s).phase = State.reset.phase := rfl
@[simp] theorem powerOnReset_cause (s : State) : (powerOnReset s).cause = State.reset.cause := rfl
@[simp] theorem powerOnReset_funit (s : State) : (powerOnReset s).funit = State.reset.funit := rfl
@[simp] theorem powerOnReset_n (s : State) : (powerOnReset s).n = State.reset.n := rfl
@[simp] theorem powerOnReset_payBase (s : State) : (powerOnReset s).payBase = State.reset.payBase := rfl
@[simp] theorem powerOnReset_payLimit (s : State) : (powerOnReset s).payLimit = State.reset.payLimit := rfl
@[simp] theorem powerOnReset_regBase (s : State) : (powerOnReset s).regBase = State.reset.regBase := rfl
@[simp] theorem powerOnReset_relBase (s : State) : (powerOnReset s).relBase = State.reset.relBase := rfl
@[simp] theorem powerOnReset_relLimit (s : State) : (powerOnReset s).relLimit = State.reset.relLimit := rfl
@[simp] theorem powerOnReset_hin (s : State) : (powerOnReset s).hin = State.reset.hin := rfl
@[simp] theorem powerOnReset_ep (s : State) : (powerOnReset s).ep = State.reset.ep := rfl
@[simp] theorem powerOnReset_hout (s : State) : (powerOnReset s).hout = State.reset.hout := rfl
@[simp] theorem powerOnReset_bitBuf (s : State) : (powerOnReset s).bitBuf = State.reset.bitBuf := rfl
@[simp] theorem powerOnReset_bitCnt (s : State) : (powerOnReset s).bitCnt = State.reset.bitCnt := rfl
@[simp] theorem powerOnReset_cur (s : State) : (powerOnReset s).cur = State.reset.cur := rfl
@[simp] theorem powerOnReset_olen (s : State) : (powerOnReset s).olen = State.reset.olen := rfl
@[simp] theorem powerOnReset_rcur (s : State) : (powerOnReset s).rcur = State.reset.rcur := rfl
@[simp] theorem powerOnReset_acc (s : State) : (powerOnReset s).acc = State.reset.acc := rfl
@[simp] theorem powerOnReset_rcount (s : State) : (powerOnReset s).rcount = State.reset.rcount := rfl
@[simp] theorem powerOnReset_src (s : State) : (powerOnReset s).src = State.reset.src := rfl
@[simp] theorem powerOnReset_out (s : State) : (powerOnReset s).out = State.reset.out := rfl
@[simp] theorem powerOnReset_rel (s : State) : (powerOnReset s).rel = State.reset.rel := rfl
@[simp] theorem powerOnReset_result (s : State) : (powerOnReset s).result = State.reset.result := rfl
@[simp] theorem powerOnReset_outCap (s : State) : (powerOnReset s).outCap = s.outCap := rfl
@[simp] theorem powerOnReset_relCap (s : State) : (powerOnReset s).relCap = s.relCap := rfl
@[simp] theorem powerOnReset_inbox (s : State) : (powerOnReset s).inbox = s.inbox := rfl
@[simp] theorem powerOnReset_free (s : State) : (powerOnReset s).free = s.free := rfl

end Sys2Proof.Machine
end

