-- ==== Sys2Proof/Laws/Ops.lean ====
section
/-! SUPPORT. What each shared operation can do, said once: every later proof about a token or a step cites
these. -/

namespace Sys2Proof.Machine

/-! ## Reads of `SRC` -/

/-- A byte read of `SRC` answers a value only below `N`, and it is the one held there (R61, R62). -/
theorem srcRead8_ok {s : State} {a : Nat} {b : Byte} (h : srcRead8 s a = .ok b) :
    a < s.n ∧ memRead s.src a = some b := by
  unfold srcRead8 cellRead at h
  split at h
  · cases h
  · rename_i hn
    split at h
    · cases h; exact ⟨by omega, by assumption⟩
    · cases h

/-- A byte read of `SRC` where a value is held (R62). -/
theorem srcRead8_of_mem {s : State} {a : Nat} {b : Byte} (hn : a < s.n) (h : memRead s.src a = some b) :
    srcRead8 s a = .ok b := by
  simp [srcRead8, cellRead, h, show ¬ s.n ≤ a by omega]

/-- A word read of `SRC` is two byte reads, the lower address the low byte (R62). -/
theorem srcRead16_ok {s : State} {a : Nat} {w : Word} (h : srcRead16 s a = .ok w) :
    ∃ lo hi, srcRead8 s a = .ok lo ∧ srcRead8 s (a + 1) = .ok hi ∧ w = le16 lo hi := by
  unfold srcRead16 at h
  split at h
  · cases h
  · split at h
    · cases h
    · cases h; exact ⟨_, _, by assumption, by assumption, rfl⟩

/-- A byte below `N` of a loaded image can be read (R243). -/
theorem srcRead8_loaded {s : State} (h : srcLoaded s) {a : Nat} (ha : a < s.n) : ∃ b, srcRead8 s a = .ok b := by
  obtain ⟨b, hb⟩ := Option.isSome_iff_exists.1 (h a ha)
  exact ⟨b, srcRead8_of_mem ha hb⟩

/-- A word below `N` of a loaded image can be read (R243). -/
theorem srcRead16_loaded {s : State} (h : srcLoaded s) {a : Nat} (ha : a + 1 < s.n) :
    ∃ w, srcRead16 s a = .ok w := by
  obtain ⟨lo, hlo⟩ := srcRead8_loaded h (show a < s.n by omega)
  obtain ⟨hi, hhi⟩ := srcRead8_loaded h ha
  exact ⟨le16 lo hi, by simp only [srcRead16, hlo, hhi]⟩

/-! ## The reads of the two decoders -/

/-- `FETCH16` answers a word only inside the payload, and moves `CUR` by 2 (R134). -/
theorem fetch16_ok {fail : FaultKind → UnitId → State → Result} {s t : State} {w : Word}
    (h : fetch16 fail s = .ok (w, t)) :
    s.cur + 2 ≤ s.payLimit ∧ srcRead16 s s.cur = .ok w ∧ t = { s with cur := s.cur + 2 } := by
  unfold fetch16 at h
  split at h
  · cases h
  · split at h
    · cases h
    · cases h; exact ⟨by omega, by assumption, rfl⟩

/-- What a completed `NEXT_BIT` does: a bit without a refill, or the last bit of its word and the refill that
comes with it (R132). -/
theorem nextBit_ok {s t : State} {b : Bool} (h : nextBit s = .ok (b, t)) :
    b = s.bitBuf.getLsbD 0 ∧
    ((s.bitCnt - 1 ≠ 0 ∧ t = { s with bitBuf := s.bitBuf >>> 1, bitCnt := s.bitCnt - 1 }) ∨
     (s.bitCnt - 1 = 0 ∧ s.cur + 2 ≤ s.payLimit ∧
      ∃ w, srcRead16 s s.cur = .ok w ∧ t = { s with bitBuf := w, bitCnt := 16, cur := s.cur + 2 })) := by
  unfold nextBit takeBit at h
  simp only at h
  split at h
  · rename_i hc
    split at h
    · cases h
    · rename_i w s1 hf
      obtain ⟨h1, h2, rfl⟩ := fetch16_ok hf
      cases h
      exact ⟨rfl, .inr ⟨hc, h1, w, h2, rfl⟩⟩
  · rename_i hc
    cases h
    exact ⟨rfl, .inl ⟨hc, rfl⟩⟩

/-- What a completed `NEXT_BYTE` does (R133). -/
theorem nextByte_ok {s t : State} {b : Byte} (h : nextByte s = .ok (b, t)) :
    s.cur + 1 ≤ s.payLimit ∧ srcRead8 s s.cur = .ok b ∧ t = { s with cur := s.cur + 1 } := by
  unfold nextByte at h
  split at h
  · cases h
  · split at h
    · cases h
    · cases h; exact ⟨by omega, by assumption, rfl⟩

/-- What a completed `RBYTE` does (R161). -/
theorem relocByte_ok {s t : State} {b : Byte} (h : relocByte s = .ok (b, t)) :
    s.rcur + 1 ≤ s.relLimit ∧ srcRead8 s s.rcur = .ok b ∧ t = { s with rcur := s.rcur + 1 } := by
  unfold relocByte at h
  split at h
  · cases h
  · split at h
    · cases h
    · cases h; exact ⟨by omega, by assumption, rfl⟩

/-- What a completed `RWORD` does (R161). -/
theorem relocWord_ok {s t : State} {w : Word} (h : relocWord s = .ok (w, t)) :
    s.rcur + 2 ≤ s.relLimit ∧ srcRead16 s s.rcur = .ok w ∧ t = { s with rcur := s.rcur + 2 } := by
  unfold relocWord at h
  split at h
  · cases h
  · split at h
    · cases h
    · cases h; exact ⟨by omega, by assumption, rfl⟩

/-! ## The writes of the two decoders -/

/-- `APPEND` answers a next state: the byte appended, or the fault entry (R142). -/
theorem append_next {s t : State} {v : Byte} (h : append v s = .next t) :
    (withinCap (s.olen + 1) s.outCap = true ∧ t = pushOut s v) ∨
    (withinCap (s.olen + 1) s.outCap = false ∧ t = raiseToken .outputOverflow .dce s) := by
  unfold append raisedToken at h
  split at h
  · rename_i hc; cases h; exact .inl ⟨hc, rfl⟩
  · rename_i hc; cases h; exact .inr ⟨by simpa using hc, rfl⟩

/-- What the copy loop changes (R148): `OLEN` by its count, `OUT`, nothing else; a segment stays a segment. -/
theorem copyLoop_next : ∀ {k a : Nat} {s t : State}, copyLoop k a s = .next t →
    t.olen = s.olen + k ∧ onlyOut s t ∧ (covers s.out s.olen → covers t.out t.olen) := by
  intro k
  induction k with
  | zero => intro a s t h; cases h; exact ⟨rfl, rfl, id⟩
  | succ k ih =>
    intro a s t h
    simp only [copyLoop] at h
    split at h
    · cases h
    · obtain ⟨h1, h2, h3⟩ := ih h
      refine ⟨by simp [h1]; omega, ?_, fun hc => h3 (covers_memWrite hc _)⟩
      rw [onlyOut] at h2 ⊢
      rw [h2]; rfl

/-- The copy loop runs to its end when its source starts inside a segment that `OUT` is (R63, R148). -/
theorem copyLoop_runs : ∀ {k a : Nat} {s : State}, covers s.out s.olen → a < s.olen →
    ∃ t, copyLoop k a s = .next t := by
  intro k
  induction k with
  | zero => intro a s _ _; exact ⟨s, rfl⟩
  | succ k ih =>
    intro a s hc ha
    obtain ⟨v, hv⟩ := Option.isSome_iff_exists.1 ((covers_isSome hc a).2 ha)
    obtain ⟨t, ht⟩ := ih (s := pushOut s v) (a := a + 1) (covers_memWrite hc v) (by simp; omega)
    exact ⟨t, by simp only [copyLoop, cellRead, hv]; exact ht⟩

/-- `COPY` answers a next state: one of its two fault entries, in the order of R220, or the loop's end. -/
theorem copy_next {s t : State} {d : Int} {n : Nat} (h : copy d n s = .next t) :
    ((s.olen : Int) + d < 0 ∧ t = raiseToken .badBackReference .dce s) ∨
    (0 ≤ (s.olen : Int) + d ∧ withinCap (s.olen + n) s.outCap = false ∧ t = raiseToken .outputOverflow .dce s) ∨
    (0 ≤ (s.olen : Int) + d ∧ withinCap (s.olen + n) s.outCap = true ∧
      copyLoop n ((s.olen : Int) + d).toNat s = .next t) := by
  unfold copy raisedToken at h
  split at h
  · rename_i hd; cases h; exact .inl ⟨hd, rfl⟩
  · rename_i hd
    split at h
    · rename_i hc; cases h; exact .inr (.inl ⟨by omega, by simpa using hc, rfl⟩)
    · rename_i hc; exact .inr (.inr ⟨by omega, by simpa using hc, h⟩)

/-- `ADD` answers a next state: the sum, which fits 20 bits, or the fault entry (R162). -/
theorem accumulate_next {s t : State} {x : Nat} (h : accumulate x s = .next t) :
    (accMax < s.acc.toNat + x ∧ t = raiseToken .relocOverflow .rtd s) ∨
    (s.acc.toNat + x ≤ accMax ∧ t = { s with acc := BitVec.ofNat 20 (s.acc.toNat + x) }) := by
  unfold accumulate raisedToken at h
  split at h
  · rename_i hc; cases h; exact .inl ⟨hc, rfl⟩
  · rename_i hc; cases h; exact .inr ⟨by omega, rfl⟩

/-- `ADD` then `EMIT` answers a next state: one of the two fault entries, in the order of R220, or both
written (R162, R167). -/
theorem accumulateEmit_next {s t : State} {x : Nat} (h : accumulateEmit x s = .next t) :
    (accMax < s.acc.toNat + x ∧ t = raiseToken .relocOverflow .rtd s) ∨
    (s.acc.toNat + x ≤ accMax ∧ withinCap (s.rcount + 1) s.relCap = false ∧
      t = raiseToken .outputOverflow .rtd s) ∨
    (s.acc.toNat + x ≤ accMax ∧ withinCap (s.rcount + 1) s.relCap = true ∧
      t = { s with
        acc := BitVec.ofNat 20 (s.acc.toNat + x),
        rel := memWrite s.rel s.rcount (BitVec.ofNat 20 (s.acc.toNat + x)), rcount := s.rcount + 1 }) := by
  unfold accumulateEmit raisedToken at h
  split at h
  · rename_i hc; cases h; exact .inl ⟨hc, rfl⟩
  · rename_i hc
    split at h
    · rename_i he; cases h; exact .inr (.inl ⟨by omega, by simpa using he, rfl⟩)
    · rename_i he; cases h; exact .inr (.inr ⟨by omega, by simpa using he, rfl⟩)

/-! ## The parts of the sequencer -/

/-- `HDC.DESER` hands on only `HIN` changed (R120). -/
theorem deserHeader_ok {s t : State} (h : deserHeader s = .ok t) :
    hdrLen ≤ s.n ∧ ∃ bs hd, srcReadRange s 0 hdrLen = .ok bs ∧ parseHeader bs = some hd ∧
      t = { s with hin := hd } := by
  unfold deserHeader at h
  split at h
  · cases h
  · rename_i hn
    split at h
    · cases h
    · rename_i bs hbs
      split at h
      · rename_i hd hp; cases h; exact ⟨by omega, bs, hd, hbs, hp, rfl⟩
      · cases h

/-- The region checks hand on the derived regions, which fit the input (R191, R194). -/
theorem checkRegions_ok {s t : State} (h : checkRegions s = .ok t) :
    t = deriveRegions s ∧ payloadStart s.hin ≤ loaderOff s.hin ∧ loaderOff s.hin + regblkLen ≤ s.n ∧
      loaderOff s.hin + relTableOff ≤ s.n := by
  unfold checkRegions at h
  split at h
  · cases h
  · split at h
    · cases h
    · split at h
      · cases h
      · cases h; exact ⟨rfl, by omega, by omega, by omega⟩

/-- `BRD.INIT` hands on the first control word in `BITBUF` (R131). -/
theorem initBits_ok {s t : State} (h : initBits s = .ok t) :
    s.payBase + 2 ≤ s.payLimit ∧ ∃ w, srcRead16 s s.payBase = .ok w ∧
      t = { s with cur := s.payBase + 2, bitBuf := w, bitCnt := 16 } := by
  unfold initBits at h
  split at h
  · cases h
  · rename_i w s1 hf
    obtain ⟨h1, h2, rfl⟩ := fetch16_ok hf
    cases h
    exact ⟨h1, w, h2, rfl⟩

/-- `HRC.BUILD` hands on only `HOUT` changed (R175, R182). -/
theorem buildHeader_ok {s t : State} (h : buildHeader s = .ok t) :
    fieldsOverflow s.olen (relentLen * s.rcount) = false ∧
      t = { s with hout := newHeader s.hin.minalloc s.hin.maxalloc s.olen (relentLen * s.rcount) s.ep } := by
  unfold buildHeader at h
  split at h
  · cases h
  · rename_i hc; cases h; exact ⟨by simpa using hc, rfl⟩

/-- A serialized header has 28 bytes (R121). -/
theorem serializeHeader_length (h : Header) : (serializeHeader h).length = 28 := rfl

/-- The relocation block has 4 bytes an entry (R168). -/
theorem relocBlock_length (vs : List (BitVec 20)) : (relocBlock vs).length = relentLen * vs.length := by
  induction vs with
  | nil => rfl
  | cons v vs ih =>
    simp only [relocBlock, List.flatMap_cons, List.length_append, List.length_cons, relentLen] at ih ⊢
    simp only [relocEntryBytes, List.length_cons, List.length_nil]; omega

end Sys2Proof.Machine
end

