-- ==== Sys2Proof/Laws/Fetch.lean ====
section
/-! SUPPORT. What fetching a token can do, said once for both streams: the dispatch over any read primitives,
then over the machine's. -/

namespace Sys2Proof.Machine

/-! ## The dispatch over any read primitives -/

section Dispatch

variable {σ ε : Type} {bit : σ → Except ε (Bool × σ)} {byte : σ → Except ε (Byte × σ)}
  {word : σ → Except ε (Word × σ)}

/-- A decoded code token is well formed and of its stream, and its reads are related by any transitive relation
that one read is related by (R107, R141). -/
theorem readCodeToken_ok {P : σ → σ → Prop} (htrans : ∀ a b c, P a b → P b c → P a c)
    (hbit : ∀ s b t, bit s = .ok (b, t) → P s t) (hbyte : ∀ s b t, byte s = .ok (b, t) → P s t)
    {s t : σ} {i : Instr} (h : readCodeToken bit byte s = .ok (i, t)) :
    P s t ∧ streamOf i = .code ∧ wellFormed i = true := by
  unfold readCodeToken at h
  split at h
  · cases h
  · rename_i s1 h1
    split at h
    · cases h
    · rename_i b s2 h2
      cases h
      exact ⟨htrans _ _ _ (hbit _ _ _ h1) (hbyte _ _ _ h2), rfl, rfl⟩
  · rename_i s1 h1
    split at h
    · cases h
    · rename_i s2 h2
      have h12 := htrans _ _ _ (hbit _ _ _ h1) (hbit _ _ _ h2)
      unfold readLongCopy at h
      split at h
      · cases h
      · rename_i lo s3 h3
        split at h
        · cases h
        · rename_i hi s4 h4
          have h14 := htrans _ _ _ h12 (htrans _ _ _ (hbyte _ _ _ h3) (hbyte _ _ _ h4))
          simp only at h
          split at h
          · rename_i hc; cases h; exact ⟨h14, rfl, by simpa [wellFormed] using hc⟩
          · split at h
            · cases h
            · rename_i x s5 h5
              have h15 := htrans _ _ _ h14 (hbyte _ _ _ h5)
              split at h
              · cases h; exact ⟨h15, rfl, rfl⟩
              · rename_i h0
                split at h
                · cases h; exact ⟨h15, rfl, rfl⟩
                · rename_i hx1
                  cases h
                  refine ⟨h15, rfl, ?_⟩
                  have e0 : x.toNat ≠ 0 := fun e => h0 (BitVec.eq_of_toNat_eq (by simpa using e))
                  have e1 : x.toNat ≠ 1 := fun e => hx1 (BitVec.eq_of_toNat_eq (by simpa using e))
                  simp only [wellFormed, decide_eq_true_eq]; omega
    · rename_i s2 h2
      have h12 := htrans _ _ _ (hbit _ _ _ h1) (hbit _ _ _ h2)
      unfold readShortCopy at h
      split at h
      · cases h
      · rename_i c1 s3 h3
        split at h
        · cases h
        · rename_i c0 s4 h4
          split at h
          · cases h
          · rename_i db s5 h5
            cases h
            exact ⟨htrans _ _ _ h12 (htrans _ _ _ (hbit _ _ _ h3)
              (htrans _ _ _ (hbit _ _ _ h4) (hbyte _ _ _ h5))), rfl, rfl⟩

/-- A code token that cannot be fetched fails as one of its reads does, after reads that were done. -/
theorem readCodeToken_error {P : σ → σ → Prop} {E : σ → ε → Prop}
    (hback : ∀ a b e, P a b → E b e → E a e)
    (hbit : ∀ s b t, bit s = .ok (b, t) → P s t) (hbyte : ∀ s b t, byte s = .ok (b, t) → P s t)
    (hbitE : ∀ s e, bit s = .error e → E s e) (hbyteE : ∀ s e, byte s = .error e → E s e)
    {s : σ} {e : ε} (h : readCodeToken bit byte s = .error e) : E s e := by
  unfold readCodeToken at h
  split at h
  · rename_i h1; cases h; exact hbitE _ _ h1
  · rename_i s1 h1
    split at h
    · rename_i h2; cases h; exact hback _ _ _ (hbit _ _ _ h1) (hbyteE _ _ h2)
    · cases h
  · rename_i s1 h1
    refine hback _ _ _ (hbit _ _ _ h1) ?_
    split at h
    · rename_i h2; cases h; exact hbitE _ _ h2
    · rename_i s2 h2
      refine hback _ _ _ (hbit _ _ _ h2) ?_
      unfold readLongCopy at h
      split at h
      · rename_i h3; cases h; exact hbyteE _ _ h3
      · rename_i lo s3 h3
        refine hback _ _ _ (hbyte _ _ _ h3) ?_
        split at h
        · rename_i h4; cases h; exact hbyteE _ _ h4
        · rename_i hi s4 h4
          refine hback _ _ _ (hbyte _ _ _ h4) ?_
          simp only at h
          split at h
          · cases h
          · split at h
            · rename_i h5; cases h; exact hbyteE _ _ h5
            · split at h
              · cases h
              · split at h <;> cases h
    · rename_i s2 h2
      refine hback _ _ _ (hbit _ _ _ h2) ?_
      unfold readShortCopy at h
      split at h
      · rename_i h3; cases h; exact hbitE _ _ h3
      · rename_i c1 s3 h3
        refine hback _ _ _ (hbit _ _ _ h3) ?_
        split at h
        · rename_i h4; cases h; exact hbitE _ _ h4
        · rename_i c0 s4 h4
          refine hback _ _ _ (hbit _ _ _ h4) ?_
          split at h
          · rename_i h5; cases h; exact hbyteE _ _ h5
          · cases h

/-- A decoded relocation token is well formed and of its stream, and its reads are related by any transitive
relation that one read is related by (R107, R160). -/
theorem readRelocToken_ok {P : σ → σ → Prop} (htrans : ∀ a b c, P a b → P b c → P a c)
    (hbyte : ∀ s b t, byte s = .ok (b, t) → P s t) (hword : ∀ s w t, word s = .ok (w, t) → P s t)
    {s t : σ} {i : Instr} (h : readRelocToken byte word s = .ok (i, t)) :
    P s t ∧ streamOf i = .reloc ∧ wellFormed i = true := by
  unfold readRelocToken at h
  split at h
  · cases h
  · rename_i b s1 h1
    split at h
    · rename_i hb; cases h; exact ⟨hbyte _ _ _ h1, rfl, by simpa [wellFormed] using hb⟩
    · split at h
      · cases h
      · rename_i w s2 h2
        have h12 := htrans _ _ _ (hbyte _ _ _ h1) (hword _ _ _ h2)
        split at h
        · cases h; exact ⟨h12, rfl, rfl⟩
        · rename_i h0
          split at h
          · cases h; exact ⟨h12, rfl, rfl⟩
          · rename_i hw1
            cases h
            refine ⟨h12, rfl, ?_⟩
            have e0 : w.toNat ≠ 0 := fun e => h0 (BitVec.eq_of_toNat_eq (by simpa using e))
            have e1 : w.toNat ≠ 1 := fun e => hw1 (BitVec.eq_of_toNat_eq (by simpa using e))
            simp only [wellFormed, decide_eq_true_eq]; omega

/-- A relocation token that cannot be fetched fails as one of its reads does, after reads that were done. -/
theorem readRelocToken_error {P : σ → σ → Prop} {E : σ → ε → Prop}
    (hback : ∀ a b e, P a b → E b e → E a e)
    (hbyte : ∀ s b t, byte s = .ok (b, t) → P s t)
    (hbyteE : ∀ s e, byte s = .error e → E s e) (hwordE : ∀ s e, word s = .error e → E s e)
    {s : σ} {e : ε} (h : readRelocToken byte word s = .error e) : E s e := by
  unfold readRelocToken at h
  split at h
  · rename_i h1; cases h; exact hbyteE _ _ h1
  · rename_i b s1 h1
    refine hback _ _ _ (hbyte _ _ _ h1) ?_
    split at h
    · cases h
    · split at h
      · rename_i h2; cases h; exact hwordE _ _ h2
      · split at h
        · cases h
        · split at h <;> cases h

end Dispatch

/-! ## The machine's fetches -/

/-- What the reads of a code token change: the bit reader's registers, `CUR` forward and inside the payload. -/
def codeReads (s t : State) : Prop :=
  t = { s with bitBuf := t.bitBuf, bitCnt := t.bitCnt, cur := t.cur } ∧ s.cur ≤ t.cur ∧
    (s.cur ≤ s.payLimit → t.cur ≤ s.payLimit)

theorem codeReads_trans {a b c : State} (h1 : codeReads a b) (h2 : codeReads b c) : codeReads a c := by
  obtain ⟨e1, l1, m1⟩ := h1
  obtain ⟨e2, l2, m2⟩ := h2
  refine ⟨by rw [e2, e1], by omega, fun h => ?_⟩
  have hp : b.payLimit = a.payLimit := by rw [e1]
  have := m1 h
  rw [hp] at m2; exact m2 this

theorem codeReads_nextBit {s t : State} {b : Bool} (h : nextBit s = .ok (b, t)) : codeReads s t := by
  obtain ⟨-, ⟨-, rfl⟩ | ⟨-, hl, w, -, rfl⟩⟩ := nextBit_ok h
  · exact ⟨rfl, le_refl _, id⟩
  · exact ⟨rfl, by simp, fun _ => hl⟩

theorem codeReads_nextByte {s t : State} {b : Byte} (h : nextByte s = .ok (b, t)) : codeReads s t := by
  obtain ⟨hl, -, rfl⟩ := nextByte_ok h
  exact ⟨rfl, by simp, fun _ => hl⟩

/-- A fetched code token: well formed, of the code stream, with only the bit reader moved (R141). -/
theorem fetchCode_ok {s t : State} {i : Instr} (h : fetchCode s = .ok (i, t)) :
    codeReads s t ∧ streamOf i = .code ∧ wellFormed i = true :=
  readCodeToken_ok (P := codeReads) (fun _ _ _ => codeReads_trans) (fun _ _ _ => codeReads_nextBit)
    (fun _ _ _ => codeReads_nextByte) h

/-- How the fetch of a code token ends without one: `TruncatedStream` from `DCE` after some of its reads, or a
stop of the model. -/
def codeFetchEnds (s : State) (o : Result) : Prop :=
  (∃ s', codeReads s s' ∧ o = raisedToken .truncatedStream .dce s') ∨ ∃ f, o = .fault f

theorem codeFetchEnds_fetch16 {s : State} {o : Result} (h : fetch16 raisedToken s = .error o) :
    o = raisedToken .truncatedStream .dce s ∨ ∃ f, o = .fault f := by
  unfold fetch16 at h
  split at h
  · cases h; exact .inl rfl
  · split at h
    · cases h; exact .inr ⟨_, rfl⟩
    · cases h

theorem codeFetchEnds_nextBit {s : State} {o : Result} (h : nextBit s = .error o) : codeFetchEnds s o := by
  unfold nextBit takeBit at h
  simp only at h
  split at h
  · split at h
    · rename_i hf
      cases h
      rcases codeFetchEnds_fetch16 hf with rfl | hf
      · exact .inl ⟨_, ⟨rfl, le_refl _, id⟩, rfl⟩
      · exact .inr hf
    · cases h
  · cases h

theorem codeFetchEnds_nextByte {s : State} {o : Result} (h : nextByte s = .error o) : codeFetchEnds s o := by
  unfold nextByte at h
  split at h
  · cases h; exact .inl ⟨s, ⟨rfl, le_refl _, id⟩, rfl⟩
  · split at h
    · cases h; exact .inr ⟨_, rfl⟩
    · cases h

theorem fetchCode_error {s : State} {o : Result} (h : fetchCode s = .error o) : codeFetchEnds s o :=
  readCodeToken_error (P := codeReads) (E := codeFetchEnds)
    (fun _ _ _ hp he => he.elim (fun ⟨s', hs, ho⟩ => .inl ⟨s', codeReads_trans hp hs, ho⟩) .inr)
    (fun _ _ _ => codeReads_nextBit) (fun _ _ _ => codeReads_nextByte)
    (fun _ _ => codeFetchEnds_nextBit) (fun _ _ => codeFetchEnds_nextByte) h

/-- What the reads of a relocation token change: `RCUR`, forward and inside the payload. -/
def relocReads (s t : State) : Prop :=
  t = { s with rcur := t.rcur } ∧ s.rcur < t.rcur ∧ t.rcur ≤ s.relLimit

theorem relocReads_trans {a b c : State} (h1 : relocReads a b) (h2 : relocReads b c) : relocReads a c := by
  obtain ⟨e1, l1, -⟩ := h1
  obtain ⟨e2, l2, m2⟩ := h2
  have hp : b.relLimit = a.relLimit := by rw [e1]
  exact ⟨by rw [e2, e1], by omega, by omega⟩

theorem relocReads_relocByte {s t : State} {b : Byte} (h : relocByte s = .ok (b, t)) : relocReads s t := by
  obtain ⟨hl, -, rfl⟩ := relocByte_ok h
  exact ⟨rfl, by simp, hl⟩

theorem relocReads_relocWord {s t : State} {w : Word} (h : relocWord s = .ok (w, t)) : relocReads s t := by
  obtain ⟨hl, -, rfl⟩ := relocWord_ok h
  exact ⟨rfl, by simp, hl⟩

/-- A fetched relocation token: well formed, of the relocation stream, with only `RCUR` moved (R160). -/
theorem fetchReloc_ok {s t : State} {i : Instr} (h : fetchReloc s = .ok (i, t)) :
    relocReads s t ∧ streamOf i = .reloc ∧ wellFormed i = true :=
  readRelocToken_ok (P := relocReads) (fun _ _ _ => relocReads_trans) (fun _ _ _ => relocReads_relocByte)
    (fun _ _ _ => relocReads_relocWord) h

/-- How the fetch of a relocation token ends without one. -/
def relocFetchEnds (s : State) (o : Result) : Prop :=
  (∃ s', (s' = s ∨ relocReads s s') ∧ o = raisedToken .truncatedStream .rtd s') ∨ ∃ f, o = .fault f

theorem relocFetchEnds_relocByte {s : State} {o : Result} (h : relocByte s = .error o) :
    relocFetchEnds s o := by
  unfold relocByte at h
  split at h
  · cases h; exact .inl ⟨s, .inl rfl, rfl⟩
  · split at h
    · cases h; exact .inr ⟨_, rfl⟩
    · cases h

theorem relocFetchEnds_relocWord {s : State} {o : Result} (h : relocWord s = .error o) :
    relocFetchEnds s o := by
  unfold relocWord at h
  split at h
  · cases h; exact .inl ⟨s, .inl rfl, rfl⟩
  · split at h
    · cases h; exact .inr ⟨_, rfl⟩
    · cases h

theorem fetchReloc_error {s : State} {o : Result} (h : fetchReloc s = .error o) : relocFetchEnds s o :=
  readRelocToken_error (P := relocReads) (E := relocFetchEnds)
    (fun _ _ _ hp he => he.elim
      (fun ⟨s', hs, ho⟩ => .inl ⟨s', .inr (hs.elim (fun e => e ▸ hp) (relocReads_trans hp)), ho⟩) .inr)
    (fun _ _ _ => relocReads_relocByte) (fun _ _ => relocFetchEnds_relocByte)
    (fun _ _ => relocFetchEnds_relocWord) h

/-! ## What a token's meaning can answer -/

/-- A code token that answers a next state: a fault entry of `DCE`, the end of the stream, or only `OUT` and `OLEN`
changed, a segment staying a segment within its capacity (R143 to R149). -/
theorem exec_code_next {i : Instr} {s t : State} (hi : streamOf i = .code) (h : exec i s = .next t) :
    (t = raiseToken .badBackReference .dce s ∨ t = raiseToken .outputOverflow .dce s) ∨
    (isTerminator i = true ∧ t = enterReloc s) ∨
    (isTerminator i = false ∧ onlyOut s t ∧ s.olen ≤ t.olen ∧
      (withinCap s.olen s.outCap = true → withinCap t.olen s.outCap = true) ∧
      (covers s.out s.olen → covers t.out t.olen)) := by
  have hcopy : ∀ {d : Int} {n : Nat}, copy d n s = .next t →
      (t = raiseToken .badBackReference .dce s ∨ t = raiseToken .outputOverflow .dce s) ∨
      (onlyOut s t ∧ s.olen ≤ t.olen ∧
        (withinCap s.olen s.outCap = true → withinCap t.olen s.outCap = true) ∧
        (covers s.out s.olen → covers t.out t.olen)) := by
    intro d n hc
    rcases copy_next hc with ⟨-, rfl⟩ | ⟨-, -, rfl⟩ | ⟨-, hcap, hl⟩
    · exact .inl (.inl rfl)
    · exact .inl (.inr rfl)
    · obtain ⟨h1, h2, h3⟩ := copyLoop_next hl
      exact .inr ⟨h2, by omega, fun _ => by rw [h1]; exact hcap, h3⟩
  cases i with
  | lit b =>
    rcases append_next h with ⟨hc, rfl⟩ | ⟨-, rfl⟩
    · exact .inr (.inr ⟨rfl, rfl, by simp, fun _ => hc, fun hv => covers_memWrite hv b⟩)
    · exact .inl (.inr rfl)
  | scopy c db => exact (hcopy h).imp_right fun r => .inr ⟨rfl, r⟩
  | lcopy lo hi5 c => exact (hcopy h).imp_right fun r => .inr ⟨rfl, r⟩
  | lcopyx lo hi5 e => exact (hcopy h).imp_right fun r => .inr ⟨rfl, r⟩
  | esc lo hi5 => cases h; exact .inr (.inr ⟨rfl, rfl, le_refl _, id, id⟩)
  | endCode lo hi5 => cases h; exact .inr (.inl ⟨rfl, rfl⟩)
  | rdb b => cases hi
  | resc => cases hi
  | rend => cases hi
  | rdw w => cases hi

/-- A relocation token that answers a next state: a fault entry of `RTD`, the end of the stream, or only `ACC`, `REL`
and `RCOUNT` changed, a segment staying a segment within its capacity (R163 to R166). -/
theorem exec_reloc_next {i : Instr} {s t : State} (hi : streamOf i = .reloc) (h : exec i s = .next t) :
    (t = raiseToken .relocOverflow .rtd s ∨ t = raiseToken .outputOverflow .rtd s) ∨
    (isTerminator i = true ∧ t = enterRegs s) ∨
    (isTerminator i = false ∧ onlyReloc s t ∧ s.rcount ≤ t.rcount ∧
      (withinCap s.rcount s.relCap = true → withinCap t.rcount s.relCap = true) ∧
      (memWf s.rel → memWf t.rel) ∧ (covers s.rel s.rcount → covers t.rel t.rcount)) := by
  have hemit : ∀ {x : Nat}, accumulateEmit x s = .next t →
      (t = raiseToken .relocOverflow .rtd s ∨ t = raiseToken .outputOverflow .rtd s) ∨
      (onlyReloc s t ∧ s.rcount ≤ t.rcount ∧
        (withinCap s.rcount s.relCap = true → withinCap t.rcount s.relCap = true) ∧
        (memWf s.rel → memWf t.rel) ∧ (covers s.rel s.rcount → covers t.rel t.rcount)) := by
    intro x hx
    rcases accumulateEmit_next hx with ⟨-, rfl⟩ | ⟨-, -, rfl⟩ | ⟨-, hcap, rfl⟩
    · exact .inl (.inl rfl)
    · exact .inl (.inr rfl)
    · exact .inr ⟨rfl, by simp, fun _ => hcap, fun hw => memWrite_wf _ _ _ hw, fun hc => covers_memWrite hc _⟩
  cases i with
  | rdb b => exact (hemit h).imp_right fun r => .inr ⟨rfl, r⟩
  | rdw w => exact (hemit h).imp_right fun r => .inr ⟨rfl, r⟩
  | resc =>
    simp only [exec, execResc] at h
    rcases accumulate_next h with ⟨-, rfl⟩ | ⟨-, rfl⟩
    · exact .inl (.inl rfl)
    · exact .inr (.inr ⟨rfl, rfl, le_refl _, id, id, id⟩)
  | rend => cases h; exact .inr (.inl ⟨rfl, rfl⟩)
  | lit b => cases hi
  | scopy c db => cases hi
  | lcopy lo hi5 c => cases hi
  | endCode lo hi5 => cases hi
  | esc lo hi5 => cases hi
  | lcopyx lo hi5 e => cases hi

end Sys2Proof.Machine
end

