-- ==== Sys2Proof/Laws/PerInstr.lean ====
section
/-! SUPPORT. The family `ImageWidth`: the logical image of every token has the number of bits its row of the
opcode table gives it (R111). -/

namespace Sys2Proof.Laws

/-- The number of control bits and raw bytes a token is encoded with is its row's `width`. -/
def ImageWidth.Statement (i : Instr) : Prop := imageWidth i = (tableRow i).width

theorem ImageWidth.lit (b : Byte) : ImageWidth.Statement (.lit b) := rfl
theorem ImageWidth.scopy (c : BitVec 2) (db : Byte) : ImageWidth.Statement (.scopy c db) := rfl
theorem ImageWidth.lcopy (lo : Byte) (hi5 : BitVec 5) (c : BitVec 3) :
    ImageWidth.Statement (.lcopy lo hi5 c) := rfl
theorem ImageWidth.endCode (lo : Byte) (hi5 : BitVec 5) : ImageWidth.Statement (.endCode lo hi5) := rfl
theorem ImageWidth.esc (lo : Byte) (hi5 : BitVec 5) : ImageWidth.Statement (.esc lo hi5) := rfl
theorem ImageWidth.lcopyx (lo : Byte) (hi5 : BitVec 5) (e : Byte) :
    ImageWidth.Statement (.lcopyx lo hi5 e) := rfl
theorem ImageWidth.rdb (b : Byte) : ImageWidth.Statement (.rdb b) := rfl
theorem ImageWidth.resc : ImageWidth.Statement .resc := rfl
theorem ImageWidth.rend : ImageWidth.Statement .rend := rfl
theorem ImageWidth.rdw (t : Word) : ImageWidth.Statement (.rdw t) := rfl

end Sys2Proof.Laws
end

