-- ==== Sys2Proof/Tests/Slice0.lean ====
section
/-! SUPPORT. The model's own tests: ill-formed terms refused, words written out from the spec's encodings, one
step of each token on a small state with the result the spec's vectors (`95_test_vectors.md`) give, and a witness
for every statement that has hypotheses. -/

namespace Sys2Proof.Tests

open Sys2Proof Sys2Proof.Machine

/-! ## States -/

/-- The first `olen` bytes of `OUT` are these. -/
def withOut (xs : List Byte) : State := { State.reset with out := memOfList xs, olen := xs.length }

/-- The accumulator and the entries so far. -/
def withAcc (v : BitVec 20) (xs : List (BitVec 20)) : State :=
  { State.reset with acc := v, rel := memOfList xs, rcount := xs.length }

/-- `SRC` holds these bytes from address 0 up, and `N` is their number. -/
def withSrc (xs : List Byte) : State := { State.reset with src := memOfList xs, n := xs.length }

/-- In phase `S_CODE`, the control bits in `BITBUF`, these bytes between `CUR` (2) and `PAY_LIMIT`. -/
def codeAt (buf : Word) (cnt : BitVec 5) (xs : List Byte) : State :=
  { withSrc (0 :: 0 :: xs) with
    phase := .sCode, bitBuf := buf, bitCnt := cnt, cur := 2, payLimit := 2 + xs.length }

/-- In phase `S_REL`, these bytes between `RCUR` (0) and `REL_LIMIT`. -/
def relocAt (xs : List Byte) : State := { withSrc xs with phase := .sRel, relLimit := xs.length }

/-- In phase `S_HDR`, with a header of 28 zero bytes but `header_paragraphs = hp` and `cs = cs`, and `N = n`. -/
def headerAt (hp cs : Byte) (n : Nat) : State :=
  { withSrc ([0x4D, 0x5A, 0, 0, 0, 0, 0, 0, hp] ++ List.replicate 13 0 ++ [cs] ++ List.replicate 5 0) with
    phase := .sHdr, n := n }

/-- The header `headerAt` holds. -/
def headerOf (hp cs : Byte) : Header :=
  { Header.zero with magic0 := 0x4D, magic1 := 0x5A, headerParagraphs := le16 hp 0, cs := le16 cs 0 }

/-! ## What a test looks at -/

/-- `OUT` and `OLEN` after a token. -/
def outAfter : Result → Option (List Byte × Nat)
  | .next s => some (s.out.map Prod.snd, s.olen)
  | .fault _ => none
  | .refused _ => none

/-- `ACC` and `REL` after a token. -/
def relocAfter : Result → Option (BitVec 20 × List (BitVec 20))
  | .next s => some (s.acc, s.rel.map Prod.snd)
  | .fault _ => none
  | .refused _ => none

/-- `PHASE`, `CAUSE` and `FUNIT` after a step. -/
def phaseAfter : Result → Option (Phase × BitVec 3 × BitVec 3)
  | .next s => some (s.phase, s.cause, s.funit)
  | .fault _ => none
  | .refused _ => none

/-! ## Ill-formed terms are refused (R111, column `constraint`) -/

theorem test_wellFormed_refuses_lcopy_count_zero : wellFormed (.lcopy 0x34 2 0) = false := by decide
theorem test_wellFormed_refuses_lcopyx_zero : wellFormed (.lcopyx 0x34 2 0) = false := by decide
theorem test_wellFormed_refuses_lcopyx_one : wellFormed (.lcopyx 0x34 2 1) = false := by decide
theorem test_wellFormed_refuses_rdb_zero : wellFormed (.rdb 0) = false := by decide
theorem test_wellFormed_refuses_rdw_zero : wellFormed (.rdw 0) = false := by decide
theorem test_wellFormed_refuses_rdw_one : wellFormed (.rdw 1) = false := by decide

/-! ## Decoding, one word per constructor

A code token's first bit is bit 0 of the control word (R91); the bytes are in stream order. -/

/-- The token a control word and raw bytes decode to. -/
def codeToken (ctrl : Word) (bytes : List Byte) : Option Instr :=
  match decodeCode { buf := ctrl, cnt := 16, bytes := bytes } with
  | .ok (i, _) => some i
  | .error _ => none

/-- The token and the rest that bytes of a relocation payload decode to. -/
def relocToken (bytes : List Byte) : Option (Instr × List Byte) :=
  match decodeReloc bytes with
  | .ok r => some r
  | .error _ => none

/-- R92: control bit `1`, raw byte `b`. -/
theorem test_decode_lit : codeToken 0b1 [0x41] = some (.lit 0x41) := by decide
/-- R93, V3 row `n = 4`: control bits `0 0 1 0`, distance byte `FD`. -/
theorem test_decode_scopy : codeToken 0b0100 [0xFD] = some (.scopy 2 0xFD) := by decide
/-- R94, V4 row `34 12`: control bits `0 1`. -/
theorem test_decode_lcopy : codeToken 0b10 [0x34, 0b00010_010] = some (.lcopy 0x34 2 2) := by decide
/-- R95: `highbyte[2:0]` and the third byte are 0. -/
theorem test_decode_endCode : codeToken 0b10 [0xFF, 0b11111_000, 0] = some (.endCode 0xFF 31) := by decide
/-- R95: the third byte is 1; V7's `ESC 0x12, 7`. -/
theorem test_decode_esc : codeToken 0b10 [0x12, 0b00111_000, 1] = some (.esc 0x12 7) := by decide
/-- R95: the third byte is at least 2; V7's `LCOPYX -1, 256`. -/
theorem test_decode_lcopyx : codeToken 0b10 [0xFF, 0b11111_000, 0xFF] = some (.lcopyx 0xFF 31 0xFF) := by decide
/-- R96. -/
theorem test_decode_rdb : relocToken [5, 0xAA] = some (.rdb 5, [0xAA]) := by decide
/-- R97: total 0. -/
theorem test_decode_resc : relocToken [0, 0, 0, 0xAA] = some (.resc, [0xAA]) := by decide
/-- R97: total 1, low byte first. -/
theorem test_decode_rend : relocToken [0, 1, 0, 0xAA] = some (.rend, [0xAA]) := by decide
/-- R97, RV5: total `0x1234`. -/
theorem test_decode_rdw : relocToken [0, 0x34, 0x12] = some (.rdw 0x1234, []) := by decide
/-- R107: a token that runs out of bytes is truncated, not illegal (RVt2). -/
theorem test_decode_truncated : decodeReloc [0, 1] = .error .truncated := by decide

/-- BV1: the sixteenth `NEXT_BIT` also refills. -/
theorem test_posBit_refills :
    posBit { buf := 1, cnt := 1, bytes := [0x0F, 0x00, 0x99] } =
      .ok (true, { buf := 0x000F, cnt := 16, bytes := [0x99] }) := by decide

/-- V5: the layout procedure puts the second control word before the sixteenth literal's byte (R113, R136). -/
theorem test_layout_refill :
    layoutCode ((List.range 16).map (fun k => .lit (BitVec.ofNat 8 (0x61 + k))) ++ [.endCode 0 0]) =
      [0xFF, 0xFF, 0x61, 0x62, 0x63, 0x64, 0x65, 0x66, 0x67, 0x68, 0x69, 0x6A, 0x6B, 0x6C, 0x6D, 0x6E, 0x6F,
       0x02, 0x00, 0x70, 0, 0, 0] := by decide

/-! ## One step of each token -/

/-- V1, second token. -/
theorem test_lit_appends : outAfter (exec (.lit 0x42) (withOut [0x41])) = some ([0x41, 0x42], 2) := by decide
/-- V9: `OUT_CAP` = 1. -/
theorem test_lit_overflows :
    phaseAfter (exec (.lit 0x42) { withOut [0x41] with outCap := some 1 }) = some (.fault, 4, 3) := by decide
/-- V3 row `n = 5`: the copy overlaps. -/
theorem test_scopy_overlaps :
    outAfter (exec (.scopy 3 0xFD) (withOut [0x10, 0x20, 0x30])) =
      some ([0x10, 0x20, 0x30, 0x10, 0x20, 0x30, 0x10, 0x20], 8) := by decide
/-- V8 with `OUT_CAP` = 1: `BadBackReference` comes first (D20). -/
theorem test_scopy_before_start :
    phaseAfter (exec (.scopy 0 0xFE) { withOut [0x41] with outCap := some 1 }) = some (.fault, 3, 3) := by decide
/-- V2: distance -2, count 8. -/
theorem test_lcopy_repeats :
    outAfter (exec (.lcopy 0xFE 31 6) (withOut [0x41, 0x42])) =
      some ([0x41, 0x42, 0x41, 0x42, 0x41, 0x42, 0x41, 0x42, 0x41, 0x42], 10) := by decide
/-- V9: V2 with `OUT_CAP` = 9 appends nothing. -/
theorem test_lcopy_overflow_appends_nothing :
    outAfter (exec (.lcopy 0xFE 31 6) { withOut [0x41, 0x42] with outCap := some 9 }) = some ([0x41, 0x42], 2) := by
  decide
/-- V7b: `LCOPYX -3, 3`. -/
theorem test_lcopyx_copies :
    outAfter (exec (.lcopyx 0xFD 31 2) (withOut [1, 2, 3])) = some ([1, 2, 3, 1, 2, 3], 6) := by decide
/-- R146, R220: a distance before byte 0. -/
theorem test_lcopyx_before_start :
    phaseAfter (exec (.lcopyx 0xFC 31 2) (withOut [1, 2, 3])) = some (.fault, 3, 3) := by decide
/-- V1, `ESC` as the first token: legal. -/
theorem test_esc_first : exec (.esc 0xFF 31) State.reset = .next State.reset := rfl
/-- R149: `END` leaves the loop. -/
theorem test_endCode_leaves : phaseAfter (exec (.endCode 0 0) (withOut [0x41])) = some (.sRel, 0, 0) := by decide
/-- RV3, second token. -/
theorem test_rdb_emits : relocAfter (exec (.rdb 16) (withAcc 5 [5])) = some (0x15, [5, 0x15]) := by decide
/-- RV13: one past the top of the range; `ACC` and `REL` are kept (R215). -/
theorem test_rdb_overflows : relocAfter (exec (.rdb 1) (withAcc 0xFFFFF [7])) = some (0xFFFFF, [7]) := by decide
/-- RV5. -/
theorem test_rdw_emits : relocAfter (exec (.rdw 0x1234) (withAcc 0 [])) = some (0x1234, [0x1234]) := by decide
/-- RV4: no entry. -/
theorem test_resc_adds : relocAfter (exec .resc (withAcc 0 [])) = some (0xFFF, []) := by decide
/-- RV16. -/
theorem test_resc_overflows : phaseAfter (exec .resc (withAcc 0xFFFFF [])) = some (.fault, 5, 4) := by decide
/-- R166. -/
theorem test_rend_leaves : phaseAfter (exec .rend (relocAt [])) = some (.sRegs, 0, 0) := by decide

/-! ## The unit operations -/

/-- HV1. -/
theorem test_serialize_header :
    serializeHeader
      { magic0 := 0x4D, magic1 := 0x5A, lastPageBytes := 0x0102, pageCount := 0x0304,
        relocationItemCount := 0x0506, headerParagraphs := 0x0708, minalloc := 0x090A, maxalloc := 0x0B0C,
        ss := 0x0D0E, sp := 0x0F10, checksum := 0x1112, ip := 0x1314, cs := 0x1516,
        relocationTableOffset := 0x1718, overlayNumber := 0x191A } =
      [0x4D, 0x5A, 0x02, 0x01, 0x04, 0x03, 0x06, 0x05, 0x08, 0x07, 0x0A, 0x09, 0x0C, 0x0B, 0x0E, 0x0D, 0x10, 0x0F,
       0x12, 0x11, 0x14, 0x13, 0x16, 0x15, 0x18, 0x17, 0x1A, 0x19] := by decide

/-- HB, the row of 1025 bytes (S7). -/
theorem test_pages : (pagesOf 1025, lastPageOf 1025, headerParasOf 8) = (3, 1, 3) := by decide
/-- RV4, RV5: `RTD.POST`. -/
theorem test_reloc_entries : relocBlock [0x1002, 0x1234] = [2, 0, 0, 1, 4, 0, 0x23, 1] := by decide

/-- A step fetches its token from the bit reader and `SRC` (V1, first token). -/
theorem test_step_fetches : outAfter (step (codeAt 0b1011 16 [0x41])) = some ([0x41], 1) := by decide
/-- T2: the raw byte is missing. -/
theorem test_step_truncated : phaseAfter (step (codeAt 0b1011 16 [])) = some (.fault, 2, 3) := by decide
/-- HV3: 27 bytes are no header. -/
theorem test_short_input : phaseAfter (step (headerAt 0 0 27)) = some (.fault, 1, 2) := by decide
/-- A placed word is the next step's instruction. -/
theorem test_withFetchWord :
    outAfter (step (State.reset.withFetchWord 9 0b1_01000001)) = some ([0x41], 1) := by decide

/-! ## Witnesses

One theorem for each statement of `Certificates/Slice0/Obligations.lean` that has hypotheses (`_1`, `_2`, … for
its clauses): concrete states and operands, at the edge of each clause, that meet them all. -/

theorem witness_CodeTokenRoundTrip :
    wellFormed (.lcopyx 0 0 2) = true ∧ streamOf (.lcopyx 0 0 2) = .code ∧
    wellFormed (.lcopy 0xFF 31 1) = true ∧ streamOf (.lcopy 0xFF 31 1) = .code := by decide

theorem witness_RelocTokenRoundTrip :
    wellFormed (.rdw 2) = true ∧ streamOf (.rdw 2) = .reloc ∧
    wellFormed (.rdb 1) = true ∧ streamOf (.rdb 1) = .reloc := by decide

theorem witness_CodeLayoutDecodesToItsTokens :
    ∀ i ∈ [Instr.lit 0x41, .scopy 3 0xFF, .lcopy 0 0 1, .esc 0 0, .lcopyx 0 0 2],
      wellFormed i = true ∧ streamOf i = .code ∧ isTerminator i = false := by decide

theorem witness_RelocLayoutDecodesToItsTokens :
    ∀ i ∈ [Instr.rdb 1, .resc, .rdw 2], wellFormed i = true ∧ streamOf i = .reloc ∧ isTerminator i = false := by
  decide

theorem witness_NoEncodingIsIllegal :
    5 ≤ ({ buf := 0xFFFF, cnt := 1, bytes := [1, 2, 3, 4, 5] } : CodePos).bytes.length ∧
    3 ≤ ([0, 1, 2] : List Byte).length := by decide

theorem witness_DecodedTokensAreWellFormed :
    (∃ q, decodeCode { buf := 2, cnt := 16, bytes := [0, 0, 2] } = .ok (.lcopyx 0 0 2, q)) ∧
    decodeReloc [0, 2, 0] = .ok (.rdw 2, []) := ⟨⟨_, rfl⟩, rfl⟩

theorem witness_ImagesMatchTheOpcodeTable : wellFormed (.lcopyx 0xFF 31 2) = true := by decide

theorem witness_CountsDistancesAndDeltas :
    (0x01 : Byte).extractLsb' 0 3 ≠ 0 ∧ (0xFF : Byte).extractLsb' 0 3 ≠ 0 := by decide

theorem witness_CopyPseudoInstructionSpellsTheCopy :
    ((-1 : Int) ≤ -1 ∧ 2 ≤ 2 ∧ asmCopy (-1) 2 = some (.scopy 0 0xFF)) ∧
    ((-8192 : Int) ≤ -1 ∧ 2 ≤ 256 ∧ asmCopy (-8192) 256 = some (.lcopyx 0 0 0xFF)) := by decide

theorem witness_FetchSixteenReadsOrRaises_1 :
    (codeAt 0 0 [0x0F]).payLimit < (codeAt 0 0 [0x0F]).cur + 2 := by decide
theorem witness_FetchSixteenReadsOrRaises_2 :
    let s := codeAt 0 0 [0x0F, 0x01]
    s.cur + 2 ≤ s.payLimit ∧ s.payLimit ≤ s.n ∧ memRead s.src s.cur = some 0x0F ∧
      memRead s.src (s.cur + 1) = some 0x01 := by decide

theorem witness_NextBitDeliversAndRefills_1 :
    (2 ≤ (codeAt 3 2 []).bitCnt.toNat ∧ (codeAt 3 2 []).bitCnt.toNat ≤ 16) ∧
    (2 ≤ (codeAt 3 16 []).bitCnt.toNat ∧ (codeAt 3 16 []).bitCnt.toNat ≤ 16) := by decide
theorem witness_NextBitDeliversAndRefills_2 :
    let s := codeAt 1 1 [0x0F, 0x01]
    s.bitCnt.toNat = 1 ∧ s.cur + 2 ≤ s.payLimit ∧ s.payLimit ≤ s.n ∧ memRead s.src s.cur = some 0x0F ∧
      memRead s.src (s.cur + 1) = some 0x01 := by decide
theorem witness_NextBitDeliversAndRefills_3 :
    let s := codeAt 1 1 [0x0F]
    s.bitCnt.toNat = 1 ∧ s.payLimit < s.cur + 2 := by decide

theorem witness_NextByteReadsOrRaises_1 : (codeAt 1 1 []).payLimit < (codeAt 1 1 []).cur + 1 := by decide
theorem witness_NextByteReadsOrRaises_2 :
    let s := codeAt 1 1 [0x0F]
    s.cur + 1 ≤ s.payLimit ∧ s.payLimit ≤ s.n ∧ memRead s.src s.cur = some 0x0F := by decide

theorem witness_BitReaderInvariantKept_1 : ∃ t, initBits (codeAt 0 0 []) = .ok t := ⟨_, rfl⟩
theorem witness_BitReaderInvariantKept_2 :
    readerOk (codeAt 1 1 [0x0F, 0x01]) ∧ ∃ t, nextBit (codeAt 1 1 [0x0F, 0x01]) = .ok (true, t) :=
  ⟨by decide, _, rfl⟩
theorem witness_BitReaderInvariantKept_3 :
    readerOk (codeAt 1 1 [0x0F]) ∧ ∃ t, nextByte (codeAt 1 1 [0x0F]) = .ok (0x0F, t) := ⟨by decide, _, rfl⟩

theorem witness_AppendWritesOrOverflows :
    (let s := { withOut [0x41] with outCap := some 2 }; withinCap (s.olen + 1) s.outCap = true) ∧
    (let s := { withOut [0x41] with outCap := some 1 }; withinCap (s.olen + 1) s.outCap = false) := by decide

theorem witness_OverlapCopyInClosedForm_1 :
    let s := withOut [0x41]
    (-2 : Int) < 0 ∧ covers s.out s.olen ∧ (s.olen : Int) + -2 < 0 := by decide
theorem witness_OverlapCopyInClosedForm_2 :
    let s := { withOut [0x41, 0x42] with outCap := some 9 }
    (-2 : Int) < 0 ∧ covers s.out s.olen ∧ 0 ≤ (s.olen : Int) + -2 ∧ withinCap (s.olen + 8) s.outCap = false := by
  decide
theorem witness_OverlapCopyInClosedForm_3 :
    let s := { withOut [0x41, 0x42] with outCap := some 10 }
    (-2 : Int) < 0 ∧ covers s.out s.olen ∧ 0 ≤ (s.olen : Int) + -2 ∧ withinCap (s.olen + 8) s.outCap = true := by
  decide

theorem witness_ChunkedCopyEqualsByteLoop :
    covers (withOut [0x41, 0x42]).out (withOut [0x41, 0x42]).olen ∧
      chunksFit [2, 2, 1] 0 (withOut [0x41, 0x42]).olen := ⟨by decide, by simp [chunksFit, withOut]⟩

theorem witness_LitAppendsItsByte :
    let s := { withOut [0x41] with outCap := some 2 }
    withinCap (s.olen + 1) s.outCap = true := by decide

theorem witness_ScopyCopiesItsBytes :
    let s := { withOut [0x41] with outCap := some 6 }
    covers s.out s.olen ∧ 256 ≤ s.olen + (0xFF : Byte).toNat ∧
      withinCap (s.olen + (2 * ((3 : BitVec 2).getLsbD 1).toNat + ((3 : BitVec 2).getLsbD 0).toNat + 2)) s.outCap
        = true := by decide

theorem witness_LcopyCopiesItsBytes :
    let s := { withOut [0x41, 0x42] with outCap := some 10 }
    covers s.out s.olen ∧ 8192 ≤ s.olen + 256 * (31 : BitVec 5).toNat + (0xFE : Byte).toNat ∧
      withinCap (s.olen + ((6 : BitVec 3).toNat + 2)) s.outCap = true := by decide

theorem witness_LcopyxCopiesItsBytes :
    let s := { withOut [1, 2, 3] with outCap := some 6 }
    covers s.out s.olen ∧ 8192 ≤ s.olen + 256 * (31 : BitVec 5).toNat + (0xFD : Byte).toNat ∧
      withinCap (s.olen + ((2 : Byte).toNat + 1)) s.outCap = true := by decide

theorem witness_OutputTokensTrap_1 :
    let s := { withOut [0x41] with outCap := some 1 }
    withinCap (s.olen + 1) s.outCap = false := by decide
theorem witness_OutputTokensTrap_2 : (withOut [0x41]).olen + (0xFE : Byte).toNat < 256 := by decide
theorem witness_OutputTokensTrap_3 :
    let s := { withOut [0x41] with outCap := some 5 }
    256 ≤ s.olen + (0xFF : Byte).toNat ∧ withinCap (s.olen + ((3 : BitVec 2).toNat + 2)) s.outCap = false := by
  decide
theorem witness_OutputTokensTrap_4 :
    (withOut [0x41]).olen + 256 * (31 : BitVec 5).toNat + (0xFE : Byte).toNat < 8192 := by decide
theorem witness_OutputTokensTrap_5 :
    let s := { withOut [0x41] with outCap := some 3 }
    8192 ≤ s.olen + 256 * (31 : BitVec 5).toNat + (0xFF : Byte).toNat ∧
      withinCap (s.olen + ((1 : BitVec 3).toNat + 2)) s.outCap = false ∧
      withinCap (s.olen + ((2 : Byte).toNat + 1)) s.outCap = false := by decide

theorem witness_RdbAndRdwEmitTheSum_1 :
    let s := { withAcc 0xFFF00 [7] with relCap := some 2 }
    withinCap (s.rcount + 1) s.relCap = true ∧ s.acc.toNat + (0xFF : Byte).toNat ≤ 0xFFFFF := by decide
theorem witness_RdbAndRdwEmitTheSum_2 :
    let s := { withAcc 0xF0000 [7] with relCap := some 2 }
    withinCap (s.rcount + 1) s.relCap = true ∧ s.acc.toNat + (0xFFFF : Word).toNat ≤ 0xFFFFF := by decide
theorem witness_RescAddsWithoutEmitting : (withAcc 0xFF000 [7]).acc.toNat + 0xFFF ≤ 0xFFFFF := by decide
theorem witness_RelocTokensTrap_1 : 0xFFFFF < (withAcc 0xFFFFF [7]).acc.toNat + (1 : Byte).toNat := by decide
theorem witness_RelocTokensTrap_2 : 0xFFFFF < (withAcc 0xF0001 [7]).acc.toNat + (0xFFFF : Word).toNat := by decide
theorem witness_RelocTokensTrap_3 : 0xFFFFF < (withAcc 0xFF001 [7]).acc.toNat + 0xFFF := by decide
theorem witness_RelocTokensTrap_4 :
    let s := { withAcc 0xF0000 [7] with relCap := some 1 }
    withinCap (s.rcount + 1) s.relCap = false ∧ s.acc.toNat + (0xFF : Byte).toNat ≤ 0xFFFFF ∧
      s.acc.toNat + (0xFFFF : Word).toNat ≤ 0xFFFFF := by decide

theorem witness_EmittedValuesIncrease :
    streamOf (.rdb 1) = .reloc ∧ wellFormed (.rdb 1) = true ∧ (∃ t, exec (.rdb 1) (withAcc 5 [3, 5]) = .next t) ∧
      covers (withAcc 5 [3, 5]).rel (withAcc 5 [3, 5]).rcount ∧ relRises (withAcc 5 [3, 5]) ∧
      relBelowAcc (withAcc 5 [3, 5]) := ⟨by decide, by decide, ⟨_, rfl⟩, by decide, by decide, by decide⟩

theorem witness_StepRunsTheFetchedToken_1 :
    (codeAt 1 16 [0x41]).inbox = [] ∧ (codeAt 1 16 [0x41]).phase = .sCode ∧
      ∃ t, fetchCode (codeAt 1 16 [0x41]) = .ok (.lit 0x41, t) := ⟨rfl, rfl, _, rfl⟩
theorem witness_StepRunsTheFetchedToken_2 :
    (relocAt [5]).inbox = [] ∧ (relocAt [5]).phase = .sRel ∧ ∃ t, fetchReloc (relocAt [5]) = .ok (.rdb 5, t) :=
  ⟨rfl, rfl, _, rfl⟩

theorem witness_StepRunsTheCodeTokenAtCur :
    let s := codeAt 1 1 [0x0F, 0x01, 0x41]
    s.inbox = [] ∧ s.phase = .sCode ∧ s.cur ≤ s.payLimit ∧
      srcReadRange s s.cur (s.payLimit - s.cur) = .ok [0x0F, 0x01, 0x41] ∧
      decodeCode { buf := s.bitBuf, cnt := s.bitCnt, bytes := [0x0F, 0x01, 0x41] } =
        .ok (.lit 0x41, { buf := 0x010F, cnt := 16, bytes := [] }) := ⟨rfl, rfl, by decide, rfl, rfl⟩
theorem witness_StepRunsTheRelocTokenAtRcur :
    let s := relocAt [0, 2, 0]
    s.inbox = [] ∧ s.phase = .sRel ∧ s.rcur ≤ s.relLimit ∧
      srcReadRange s s.rcur (s.relLimit - s.rcur) = .ok [0, 2, 0] ∧ decodeReloc [0, 2, 0] = .ok (.rdw 2, []) :=
  ⟨rfl, rfl, by decide, rfl, rfl⟩

theorem witness_TruncatedStreamsRaise_1 :
    let s := codeAt 1 1 [0x0F]
    s.inbox = [] ∧ s.phase = .sCode ∧ s.cur ≤ s.payLimit ∧
      srcReadRange s s.cur (s.payLimit - s.cur) = .ok [0x0F] ∧
      decodeCode { buf := s.bitBuf, cnt := s.bitCnt, bytes := [0x0F] } = .error .truncated :=
  ⟨rfl, rfl, by decide, rfl, rfl⟩
theorem witness_TruncatedStreamsRaise_2 :
    let s := relocAt [0, 1]
    s.inbox = [] ∧ s.phase = .sRel ∧ s.rcur ≤ s.relLimit ∧
      srcReadRange s s.rcur (s.relLimit - s.rcur) = .ok [0, 1] ∧ decodeReloc [0, 1] = .error .truncated :=
  ⟨rfl, rfl, by decide, rfl, rfl⟩

theorem witness_HeaderFieldsStandAtTheirOffsets :
    ∃ wordAt : Nat → Nat, (∀ k, wordAt k = ((serializeHeader (headerOf 1 2)).getD k 0).toNat +
      256 * ((serializeHeader (headerOf 1 2)).getD (k + 1) 0).toNat) ∧ wordAt 22 = 2 := ⟨_, fun _ => rfl, rfl⟩

theorem witness_HeaderCodecIsABijection : (List.replicate 28 (0 : Byte)).length = 28 := by decide

theorem witness_ShortInputIsMalformed :
    (headerAt 0 0 27).inbox = [] ∧ (headerAt 0 0 27).phase = .sHdr ∧ (headerAt 0 0 27).n < 28 := by decide

/-- The 28 bytes `headerAt` holds. -/
def headerBytes (hp cs : Byte) : List Byte :=
  [0x4D, 0x5A, 0, 0, 0, 0, 0, 0, hp] ++ List.replicate 13 0 ++ [cs] ++ List.replicate 5 0

theorem witness_RegionsPastTheInputAreMalformed :
    let s := headerAt 0 0 343
    s.inbox = [] ∧ s.phase = .sHdr ∧ 28 ≤ s.n ∧ srcReadRange s 0 28 = .ok (headerBytes 0 0) ∧
      parseHeader (headerBytes 0 0) = some (headerOf 0 0) ∧
      s.n < 16 * ((headerOf 0 0).headerParagraphs.toNat + (headerOf 0 0).cs.toNat) + 0x158 :=
  ⟨rfl, rfl, by decide, rfl, rfl, by decide⟩

theorem witness_HeaderStepStartsTheCodeStream_1 :
    let s := headerAt 0 0 344
    s.inbox = [] ∧ s.phase = .sHdr ∧ 28 ≤ s.n ∧ srcReadRange s 0 28 = .ok (headerBytes 0 0) ∧
      parseHeader (headerBytes 0 0) = some (headerOf 0 0) ∧ 0 = 16 * (headerOf 0 0).headerParagraphs.toNat ∧
      0 = 16 * ((headerOf 0 0).headerParagraphs.toNat + (headerOf 0 0).cs.toNat) ∧ 0 + 0x158 ≤ s.n ∧ 0 < 0 + 2 :=
  ⟨rfl, rfl, by decide, rfl, rfl, by decide, by decide, by decide, by decide⟩
theorem witness_HeaderStepStartsTheCodeStream_2 :
    let s := headerAt 0 1 360
    s.inbox = [] ∧ s.phase = .sHdr ∧ 28 ≤ s.n ∧ srcReadRange s 0 28 = .ok (headerBytes 0 1) ∧
      parseHeader (headerBytes 0 1) = some (headerOf 0 1) ∧ 0 = 16 * (headerOf 0 1).headerParagraphs.toNat ∧
      16 = 16 * ((headerOf 0 1).headerParagraphs.toNat + (headerOf 0 1).cs.toNat) ∧ 16 + 0x158 ≤ s.n ∧
      0 + 2 ≤ 16 ∧ memRead s.src 0 = some 0x4D ∧ memRead s.src (0 + 1) = some 0x5A :=
  ⟨rfl, rfl, by decide, rfl, rfl, by decide, by decide, by decide, by decide, rfl, rfl⟩

theorem witness_RegisterBlockIsReadInOrder :
    let s := { withSrc [1, 2, 3, 4, 5, 6, 7, 8] with phase := .sRegs }
    s.inbox = [] ∧ s.phase = .sRegs ∧ s.regBase + 8 ≤ s.n ∧
      srcReadRange s s.regBase 8 = .ok [1, 2, 3, 4, 5, 6, 7, 8] := ⟨rfl, rfl, by decide, rfl⟩

/-- In phase `S_BUILD`. -/
def buildAt (olen rcount : Nat) : State := { State.reset with phase := .sBuild, olen := olen, rcount := rcount }

theorem witness_NewHeaderFields :
    (buildAt 33553920 65535).inbox = [] ∧ (buildAt 33553920 65535).phase = .sBuild ∧
      (buildAt 33553920 65535).olen ≤ 33553920 ∧ (buildAt 33553920 65535).rcount ≤ 65535 := by decide
theorem witness_FieldOverflowPastItsBounds :
    ((buildAt 33553921 0).inbox = [] ∧ (buildAt 33553921 0).phase = .sBuild ∧ 33553920 < (buildAt 33553921 0).olen) ∧
    ((buildAt 0 65536).inbox = [] ∧ (buildAt 0 65536).phase = .sBuild ∧ 65535 < (buildAt 0 65536).rcount) := by
  decide

theorem witness_OutputImageIsTheConcatenation :
    let s := { withOut [0x41, 0x42] with phase := .sEmit, rel := [(0, 5)], rcount := 1 }
    s.inbox = [] ∧ s.phase = .sEmit ∧ covers s.out s.olen ∧ covers s.rel s.rcount := by decide

theorem witness_StartBeginsAJobOrIsIgnored :
    (let s := { codeAt 1 16 [] with inbox := [.start, .writeN 3] };
      s.inbox = .start :: [.writeN 3] ∧ statusOf s.phase = 1) ∧
    (let s := { State.reset with inbox := [.start] }; s.inbox = .start :: [] ∧ statusOf s.phase ≠ 1) := by decide

theorem witness_PowerOnResetAbandonsAnyJob :
    let s := { codeAt 1 16 [0x41] with inbox := [.reset] }
    s.inbox = .reset :: [] := rfl

theorem witness_HostWritesOnlyBetweenJobs :
    (let s := { State.reset with inbox := [.writeN 3, .start] };
      s.inbox = .writeN 3 :: [.start] ∧ statusOf s.phase ≠ 1) ∧
    (let s := { State.reset with inbox := [.writeSrc 2 [7, 8]] };
      s.inbox = .writeSrc 2 [7, 8] :: [] ∧ statusOf s.phase ≠ 1) ∧
    (let s := { codeAt 1 16 [0x41] with inbox := [.writeN 3] };
      s.inbox = .writeN 3 :: [] ∧ statusOf s.phase = 1) := by decide

theorem witness_StatusAndHostView :
    statusOf (codeAt 1 16 []).phase = 1 ∧ statusOf (withSrc [7]).phase ≠ 1 ∧ 0 < (withSrc [7]).n := by decide

theorem witness_BlockWaitsBetweenJobs :
    State.reset.inbox = [] ∧ State.reset.phase = .idle ∧
      (let s := { withOut [7] with phase := .fault }; s.inbox = [] ∧ s.phase = .fault) ∧
      (let s := { withOut [7] with phase := .done }; s.inbox = [] ∧ s.phase = .done) := by decide

/-- A job in phase `S_CODE` with a four-byte payload, the last byte unread, on an input of 348 bytes. -/
def jobAt (src : Memory) : State :=
  { State.reset with
    phase := .sCode, src := src, n := 348, payLimit := 4, regBase := 4, relBase := 348, relLimit := 348, cur := 3,
    bitBuf := 1, bitCnt := 16 }

theorem jobAt_inv {src : Memory} (h : memWf src) : blockInv (jobAt src) := by
  refine ⟨h, memWf_nil, memWf_nil, memWf_nil, ?_⟩
  show noFailure (jobAt src) ∧ (jobAt src).result = [] ∧ regionsOk (jobAt src) ∧ readerOk (jobAt src) ∧
    outOk (jobAt src)
  refine ⟨⟨rfl, rfl⟩, rfl, ⟨?_, rfl, ?_, rfl, ?_, rfl⟩, ⟨?_, ?_, ?_, ?_, ?_⟩, rfl, rfl⟩ <;>
    simp [jobAt, State.reset, regblkLen]

theorem covers_zeros (k : Nat) : covers (memOfList (List.replicate k (0 : Byte))) k := by
  simpa using covers_memOfList (List.replicate k (0 : Byte))

theorem jobAt_loaded (src : Memory) (h : covers src 348) : srcLoaded (jobAt src) := fun a ha =>
  (covers_isSome h a).2 ha

theorem witness_EveryStepKeepsTheInvariant :
    blockInv (jobAt [(3, 0x41)]) ∧ ∃ t, step (jobAt [(3, 0x41)]) = .next t := ⟨jobAt_inv (by decide), _, rfl⟩

theorem witness_NoStepStopsUnderTheHostDuty :
    ∃ s : State, blockInv s ∧ s.inbox = [] ∧ statusOf s.phase = 1 ∧ srcLoaded s ∧ s.n = 348 :=
  ⟨jobAt _, jobAt_inv (memWf_of_covers (covers_zeros 348)), rfl, rfl, jobAt_loaded _ (covers_zeros 348), rfl⟩

theorem witness_EveryJobEnds : ∃ s : State, s.inbox = [] ∧ srcLoaded s ∧ s.n = 348 :=
  ⟨jobAt _, rfl, jobAt_loaded _ (covers_zeros 348), rfl⟩

theorem witness_JobDependsOnlyOnItsInput :
    let s1 := withSrc [1, 2, 3]
    let s2 := { withSrc [1, 2, 3, 4] with n := 3, acc := 5, bitBuf := 9, cur := 7, phase := .fault, free := 2 }
    s1.inbox = [] ∧ s2.inbox = [] ∧ s1.n = s2.n ∧ (∀ a < s1.n, memRead s1.src a = memRead s2.src a) ∧
      s1.src ≠ s2.src ∧ s1.outCap = s2.outCap ∧
      s1.relCap = s2.relCap ∧ s1 ≠ s2 := by decide

theorem witness_BlockNeverWritesItsInput :
    (codeAt 1 16 [0x41]).inbox = [] ∧ ∃ t, step (codeAt 1 16 [0x41]) = .next t := ⟨rfl, _, rfl⟩

theorem witness_FaultsAreThoseOfTheTable :
    ∃ t, step (codeAt 1 16 []) = .next t ∧ t.phase = .fault ∧ (codeAt 1 16 []).phase ≠ .fault :=
  ⟨_, rfl, rfl, by decide⟩

theorem witness_PhasesFollowTheJobOrder :
    (relocAt [0, 1, 0]).inbox = [] ∧ ∃ t, step (relocAt [0, 1, 0]) = .next t := ⟨rfl, _, rfl⟩

theorem witness_FaultingTokenHasNoEffect :
    (codeAt 1 16 []).inbox = [] ∧ (codeAt 1 16 []).phase = .sCode ∧
      ∃ t, step (codeAt 1 16 []) = .next t ∧ t.phase = .fault := ⟨rfl, rfl, _, rfl, rfl⟩

theorem witness_LiteralStreamReproducesItsBytes :
    let pl : List Byte := [0x0B, 0x00, 0x41, 0x42, 0, 0, 0]
    let s := { withSrc pl with payLimit := 7, outCap := some 2 }
    s.inbox = [] ∧ pl = layoutCode ([0x41, 0x42].map Instr.lit ++ [.endCode 0 0]) ∧
      s.payBase + pl.length ≤ s.payLimit ∧ srcReadRange s s.payBase pl.length = .ok pl ∧
      withinCap ([0x41, 0x42] : List Byte).length s.outCap = true := ⟨rfl, by decide, by decide, rfl, by decide⟩

end Sys2Proof.Tests
end

section
/-! PROOFS. Facts about the model that the statements of the family `10_state.md` rest on: the inversion of every
step of the sequencer, the errors of its parts, the invariant phase by phase. -/

namespace Sys2Proof.Machine

/-! ## One step, by its inbox and its phase -/

theorem step_of_inbox_cons {s : State} {m : HostMove} {rest : List HostMove} (h : s.inbox = m :: rest) :
    step s = hostMove m { s with inbox := rest } := by
  simp only [step, h]

theorem step_of_inbox_nil {s : State} (h : s.inbox = []) : step s = blockStep s := by
  simp only [step, h]

theorem blockStep_sHdr {s : State} (h : s.phase = .sHdr) : blockStep s = stepHdr s := by
  simp only [blockStep, h]

theorem blockStep_sCode {s : State} (h : s.phase = .sCode) : blockStep s = runFetched (fetchCode s) := by
  simp only [blockStep, h]

theorem blockStep_sRel {s : State} (h : s.phase = .sRel) : blockStep s = runFetched (fetchReloc s) := by
  simp only [blockStep, h]

theorem blockStep_sRegs {s : State} (h : s.phase = .sRegs) : blockStep s = stepRegs s := by
  simp only [blockStep, h]

theorem blockStep_sBuild {s : State} (h : s.phase = .sBuild) : blockStep s = stepBuild s := by
  simp only [blockStep, h]

theorem blockStep_sEmit {s : State} (h : s.phase = .sEmit) : blockStep s = stepEmit s := by
  simp only [blockStep, h]

/-- Between jobs the block waits (R254). -/
theorem blockStep_waiting {s : State} (h : s.phase = .idle ∨ s.phase = .done ∨ s.phase = .fault) :
    blockStep s = .next s := by
  rcases h with h | h | h <;> simp only [blockStep, h]

/-- A fetched step that answers a next state: the fetch ended in it, or the token's meaning answered it. -/
theorem runFetched_next {r : Read Instr} {t : State} (h : runFetched r = .next t) :
    r = .error (.next t) ∨ ∃ i s', r = .ok (i, s') ∧ exec i s' = .next t := by
  match r, h with
  | .error _, h => cases h; exact .inl rfl
  | .ok (i, s'), h => exact .inr ⟨i, s', rfl, h⟩

/-! ## `STATUS` (R23) -/

theorem running_iff (s : State) : running s = true ↔ statusOf s.phase = 1 := by
  simp [running]

theorem running_eq_false_iff (s : State) : running s = false ↔ statusOf s.phase ≠ 1 := by
  simp [running]

theorem statusOf_eq_zero_iff (p : Phase) : statusOf p = 0 ↔ p = .idle := by
  cases p <;> decide

theorem statusOf_eq_two_iff (p : Phase) : statusOf p = 2 ↔ p = .done := by
  cases p <;> decide

theorem statusOf_eq_three_iff (p : Phase) : statusOf p = 3 ↔ p = .fault := by
  cases p <;> decide

theorem statusOf_eq_one_iff (p : Phase) : statusOf p = 1 ↔ p ≠ .idle ∧ p ≠ .done ∧ p ≠ .fault := by
  cases p <;> decide

/-- `STATUS` is not `RUN` exactly in the three phases between jobs. -/
theorem statusOf_ne_one_iff (p : Phase) : statusOf p ≠ 1 ↔ p = .idle ∨ p = .done ∨ p = .fault := by
  rw [Ne, statusOf_eq_one_iff]; tauto

theorem finishedFlag_iff (s : State) : finishedFlag s = true ↔ s.phase = .done ∨ s.phase = .fault := by
  unfold finishedFlag; cases s.phase <;> decide

theorem failedFlag_iff (s : State) : failedFlag s = true ↔ s.phase = .fault := by
  unfold failedFlag finishedFlag; cases s.phase <;> decide

/-! ## How the parts of the sequencer end without handing on a state -/

/-- `FETCH16` raises, or stops on a read inside the payload (R134). -/
theorem fetch16_error {fail : FaultKind → UnitId → State → Result} {s : State} {o : Result}
    (h : fetch16 fail s = .error o) :
    o = fail .truncatedStream .dce s ∨
      ∃ f, s.cur + 2 ≤ s.payLimit ∧ srcRead16 s s.cur = .error f ∧ o = .fault f := by
  unfold fetch16 at h
  split at h
  · cases h; exact .inl rfl
  · split at h
    · rename_i f hf; cases h; exact .inr ⟨f, by omega, hf, rfl⟩
    · cases h

/-- `BRD.INIT` raises, or stops on a read inside the payload (R131). -/
theorem initBits_error {s : State} {o : Result} (h : initBits s = .error o) :
    o = raised .truncatedStream .dce { s with cur := s.payBase } ∨
      ∃ f, s.payBase + 2 ≤ s.payLimit ∧ srcRead16 s s.payBase = .error f ∧ o = .fault f := by
  unfold initBits at h
  split at h
  · rename_i hf; cases h; exact fetch16_error hf
  · cases h

/-- `HDC.DESER` raises, or stops on a read of the first 28 bytes (R120). -/
theorem deserHeader_error {s : State} {o : Result} (h : deserHeader s = .error o) :
    o = raised .malformedHeader .hdc s ∨
      ∃ f, hdrLen ≤ s.n ∧ srcReadRange s 0 hdrLen = .error f ∧ o = .fault f := by
  unfold deserHeader at h
  split at h
  · cases h; exact .inl rfl
  · split at h
    · rename_i f hf; cases h; exact .inr ⟨f, by omega, hf, rfl⟩
    · split at h
      · cases h
      · cases h; exact .inl rfl

/-- The region checks end only in their fault entry (R194). -/
theorem checkRegions_error {s : State} {o : Result} (h : checkRegions s = .error o) :
    o = raised .malformedHeader .seq s := by
  unfold checkRegions at h
  split at h
  · cases h; rfl
  · split at h
    · cases h; rfl
    · split at h
      · cases h; rfl
      · cases h

/-- `HRC.BUILD` ends only in its fault entry (R175). -/
theorem buildHeader_error {s : State} {o : Result} (h : buildHeader s = .error o) :
    o = raised .fieldOverflow .hrc s := by
  unfold buildHeader at h
  split at h
  · cases h; rfl
  · cases h

/-! ## What a step of the sequencer can do (R193) -/

/-- The state in which the code decoder starts (R131, R140, R191): the regions of the header `hd`, `OUT` empty, the
first control word `w` buffered. -/
def codeStart (hd : Header) (w : Word) (s : State) : State :=
  { deriveRegions { s with hin := hd } with
    phase := .sCode, olen := 0, out := [], cur := payloadStart hd + 2, bitBuf := w, bitCnt := 16 }

/-- Phase `S_HDR` answers a next state: a fault entry that keeps the input, or the start of the code decoder on
regions that fit the input. -/
theorem stepHdr_next {s t : State} (h : stepHdr s = .next t) :
    (∃ k u s', inputKept s s' ∧ t = raise k u s') ∨
    ∃ hd w, payloadStart hd + 2 ≤ loaderOff hd ∧ loaderOff hd + regblkLen ≤ s.n ∧
      loaderOff hd + relTableOff ≤ s.n ∧ t = codeStart hd w s := by
  unfold stepHdr at h
  split at h
  · rename_i o ho
    subst h
    obtain e | ⟨f, -, -, e⟩ := deserHeader_error ho
    · cases e; exact .inl ⟨_, _, s, ⟨rfl, rfl, rfl, rfl, rfl⟩, rfl⟩
    · cases e
  · rename_i s1 h1
    obtain ⟨-, -, hd, -, -, rfl⟩ := deserHeader_ok h1
    split at h
    · rename_i o ho
      subst h
      cases checkRegions_error ho
      exact .inl ⟨_, _, _, ⟨rfl, rfl, rfl, rfl, rfl⟩, rfl⟩
    · rename_i s2 h2
      obtain ⟨rfl, -, hreg, hrel⟩ := checkRegions_ok h2
      unfold enterCode finish at h
      split at h
      · rename_i o ho
        subst h
        obtain e | ⟨f, -, -, e⟩ := initBits_error ho
        · cases e; exact .inl ⟨_, _, _, ⟨rfl, rfl, rfl, rfl, rfl⟩, rfl⟩
        · cases e
      · rename_i s3 h3
        obtain ⟨hpay, w, -, rfl⟩ := initBits_ok h3
        cases h
        exact .inr ⟨hd, w, hpay, hreg, hrel, rfl⟩

/-- Phase `S_REGS` changes only `EP` and `PHASE` (R195). -/
theorem stepRegs_next {s t : State} (h : stepRegs s = .next t) :
    ∃ ep, t = { s with ep := ep, phase := .sBuild } := by
  unfold stepRegs at h
  split at h <;> cases h
  exact ⟨_, rfl⟩

/-- Phase `S_BUILD` raises, or changes only `HOUT` and `PHASE` (R175, R182). -/
theorem stepBuild_next {s t : State} (h : stepBuild s = .next t) :
    t = raise .fieldOverflow .hrc s ∨ ∃ hd, t = { s with hout := hd, phase := .sEmit } := by
  unfold stepBuild at h
  split at h
  · rename_i o ho; subst h; cases buildHeader_error ho; exact .inl rfl
  · rename_i s1 h1
    obtain ⟨-, rfl⟩ := buildHeader_ok h1
    cases h
    exact .inr ⟨_, rfl⟩

/-- Phase `S_EMIT` changes only `RESULT` and `PHASE`: the image of the entries and bytes it reads (R196). -/
theorem stepEmit_next {s t : State} (h : stepEmit s = .next t) :
    ∃ rel out, cellReadRange .rel s.rel 0 s.rcount = .ok rel ∧ cellReadRange .out s.out 0 s.olen = .ok out ∧
      t = { s with result := memOfList (outputImage s.hout rel out), phase := .done } := by
  unfold stepEmit at h
  split at h
  · rename_i rel out hrel hout; cases h; exact ⟨rel, out, hrel, hout, rfl⟩
  · cases h
  · cases h

/-- The length of the output image (R196). -/
theorem outputImage_length (hd : Header) (rel : List (BitVec 20)) (out : List Byte) :
    (outputImage hd rel out).length = hdrLen + relentLen * rel.length + out.length := by
  simp only [outputImage, List.length_append, serializeHeader_length, relocBlock_length]

/-! ## The invariant, phase by phase -/

theorem phaseInv_idle {s : State} (h : s.phase = .idle) : phaseInv s ↔ noFailure s := by
  simp only [phaseInv, h]

theorem phaseInv_sHdr {s : State} (h : s.phase = .sHdr) :
    phaseInv s ↔ noFailure s ∧ s.result = [] ∧ s.out = [] ∧ s.rel = [] := by
  simp only [phaseInv, h]

theorem phaseInv_sCode {s : State} (h : s.phase = .sCode) :
    phaseInv s ↔ noFailure s ∧ s.result = [] ∧ regionsOk s ∧ readerOk s ∧ outOk s := by
  simp only [phaseInv, h]

theorem phaseInv_sRel {s : State} (h : s.phase = .sRel) :
    phaseInv s ↔ noFailure s ∧ s.result = [] ∧ regionsOk s ∧ outOk s ∧ relOk s ∧ relBelowAcc s ∧
      s.relBase ≤ s.rcur ∧ s.rcur ≤ s.relLimit := by
  simp only [phaseInv, h]

theorem phaseInv_sRegs {s : State} (h : s.phase = .sRegs) :
    phaseInv s ↔ noFailure s ∧ s.result = [] ∧ regionsOk s ∧ outOk s ∧ relOk s := by
  simp only [phaseInv, h]

theorem phaseInv_sBuild {s : State} (h : s.phase = .sBuild) :
    phaseInv s ↔ noFailure s ∧ s.result = [] ∧ outOk s ∧ relOk s := by
  simp only [phaseInv, h]

theorem phaseInv_sEmit {s : State} (h : s.phase = .sEmit) :
    phaseInv s ↔ noFailure s ∧ s.result = [] ∧ outOk s ∧ relOk s := by
  simp only [phaseInv, h]

theorem phaseInv_done {s : State} (h : s.phase = .done) :
    phaseInv s ↔ noFailure s ∧ covers s.result (hdrLen + relentLen * s.rcount + s.olen) := by
  simp only [phaseInv, h]

theorem phaseInv_fault {s : State} (h : s.phase = .fault) :
    phaseInv s ↔
      s.result = [] ∧ 1 ≤ s.cause.toNat ∧ s.cause.toNat ≤ 6 ∧ 1 ≤ s.funit.toNat ∧ s.funit.toNat ≤ 5 := by
  simp only [phaseInv, h]

/-- `CAUSE` after any fault is one of the six codes of R206. -/
theorem causeCode_range (k : FaultKind) : 1 ≤ (causeCode k).toNat ∧ (causeCode k).toNat ≤ 6 := by
  cases k <;> decide

/-- `FUNIT` after any fault is one of the five codes of R206. -/
theorem unitCode_range (u : UnitId) : 1 ≤ (unitCode u).toNat ∧ (unitCode u).toNat ≤ 5 := by
  cases u <;> decide

/-- The fault entry of a unit operation meets the invariant, whatever values it leaves free (R214). -/
theorem blockInv_raise (k : FaultKind) (u : UnitId) {s : State} (hsrc : memWf s.src) :
    blockInv (raise k u s) :=
  ⟨hsrc, memOfCells_wf _, memOfCells_wf _, memWf_nil,
    (phaseInv_fault rfl).2 ⟨rfl, (causeCode_range k).1, (causeCode_range k).2, unitCode_range u⟩⟩

/-- The fault entry of a token meets the invariant (R215). -/
theorem blockInv_raiseToken (k : FaultKind) (u : UnitId) {s : State} (hsrc : memWf s.src) (hout : memWf s.out)
    (hrel : memWf s.rel) : blockInv (raiseToken k u s) :=
  ⟨hsrc, hout, hrel, memWf_nil,
    (phaseInv_fault rfl).2 ⟨rfl, (causeCode_range k).1, (causeCode_range k).2, unitCode_range u⟩⟩

end Sys2Proof.Machine
end

section
/-! PROOFS. The host interface: `STATUS`, the host's view, its moves, reset (R23, R40, R43, R243, R251). -/

namespace Sys2Proof.Machine

variable {α : Type}

/-! ## Reads after a write of several cells -/

/-- A write of several cells leaves the cells below and above them alone. -/
theorem memRead_memWriteList_of_outside (xs : List α) : ∀ (m : Mem α) (a b : Nat),
    (b < a ∨ a + xs.length ≤ b) → memRead (memWriteList m a xs) b = memRead m b := by
  induction xs with
  | nil => intro m a b _; rfl
  | cons x xs ih =>
    intro m a b h
    simp only [List.length_cons] at h
    rw [memWriteList, ih _ _ _ (by omega), memRead_memWrite_ne _ _ (by omega)]

/-- A write of several cells leaves the `k`-th value `k` cells up. -/
theorem memRead_memWriteList_add (xs : List α) : ∀ (m : Mem α) (a k : Nat) (h : k < xs.length),
    memRead (memWriteList m a xs) (a + k) = some xs[k] := by
  induction xs with
  | nil => intro m a k h; cases h
  | cons x xs ih =>
    intro m a k h
    rw [memWriteList]
    cases k with
    | zero => rw [memRead_memWriteList_of_outside _ _ _ _ (by omega)]; exact memRead_memWrite_self m a x
    | succ k =>
      rw [show a + (k + 1) = a + 1 + k by omega]
      exact ih _ _ k (by simpa using h)

/-! ## The moves of the host -/

/-- A host write of `N` between jobs lands (R243). -/
theorem hostMove_writeN {s : State} (h : statusOf s.phase ≠ 1) (n : Nat) :
    hostMove (.writeN n) s = .next { s with n := n } := by
  simp only [hostMove, (running_eq_false_iff s).2 h, Bool.false_eq_true, if_false]

/-- A host write of `SRC` between jobs lands (R243). -/
theorem hostMove_writeSrc {s : State} (h : statusOf s.phase ≠ 1) (a : Nat) (bs : List Byte) :
    hostMove (.writeSrc a bs) s = .next { s with src := memWriteList s.src a bs } := by
  simp only [hostMove, (running_eq_false_iff s).2 h, Bool.false_eq_true, if_false]

/-- A host write of `N` during a job is refused (R251). -/
theorem hostMove_writeN_running {s : State} (h : statusOf s.phase = 1) (n : Nat) :
    hostMove (.writeN n) s = .refused .hostWroteDuringJob := by
  simp only [hostMove, (running_iff s).2 h, if_true]

/-- A host write of `SRC` during a job is refused (R251). -/
theorem hostMove_writeSrc_running {s : State} (h : statusOf s.phase = 1) (a : Nat) (bs : List Byte) :
    hostMove (.writeSrc a bs) s = .refused .hostWroteDuringJob := by
  simp only [hostMove, (running_iff s).2 h, if_true]

/-- A `START` between jobs begins a job (R199). -/
theorem hostMove_start {s : State} (h : statusOf s.phase ≠ 1) : hostMove .start s = .next (startJob s) := by
  simp only [hostMove, (running_eq_false_iff s).2 h, Bool.false_eq_true, if_false]

/-- A `START` during a job is ignored (R199). -/
theorem hostMove_start_running {s : State} (h : statusOf s.phase = 1) : hostMove .start s = .next s := by
  simp only [hostMove, (running_iff s).2 h, if_true]

/-- What an accepted move of the host does (R246). -/
theorem hostMove_next {m : HostMove} {s t : State} (h : hostMove m s = .next t) :
    (statusOf s.phase ≠ 1 ∧ ∃ a bs, t = { s with src := memWriteList s.src a bs }) ∨
    (statusOf s.phase ≠ 1 ∧ ∃ n, t = { s with n := n }) ∨
    (statusOf s.phase = 1 ∧ t = s) ∨ (statusOf s.phase ≠ 1 ∧ t = startJob s) ∨ t = powerOnReset s := by
  cases m with
  | writeSrc a bs =>
    by_cases hr : statusOf s.phase = 1
    · rw [hostMove_writeSrc_running hr] at h; cases h
    · rw [hostMove_writeSrc hr] at h; cases h; exact .inl ⟨hr, a, bs, rfl⟩
  | writeN n =>
    by_cases hr : statusOf s.phase = 1
    · rw [hostMove_writeN_running hr] at h; cases h
    · rw [hostMove_writeN hr] at h; cases h; exact .inr (.inl ⟨hr, n, rfl⟩)
  | start =>
    by_cases hr : statusOf s.phase = 1
    · rw [hostMove_start_running hr] at h; cases h; exact .inr (.inr (.inl ⟨hr, rfl⟩))
    · rw [hostMove_start hr] at h; cases h; exact .inr (.inr (.inr (.inl ⟨hr, rfl⟩)))
  | reset => cases h; exact .inr (.inr (.inr (.inr rfl)))

/-! ## The host's view -/

/-- During a job the host sees neither `N` nor `SRC` (R43). -/
theorem hostView_running {s : State} (h : statusOf s.phase = 1) :
    (hostView s).n = none ∧ (hostView s).src = none := by
  simp only [hostView, (running_iff s).2 h, if_true, and_self]

/-- Between jobs the host sees `N` and the cells of `SRC` below `N` (R43). -/
theorem hostView_not_running {s : State} (h : statusOf s.phase ≠ 1) :
    (hostView s).n = some s.n ∧ (hostView s).src = some ((List.range s.n).map (memRead s.src)) := by
  simp only [hostView, (running_eq_false_iff s).2 h, Bool.false_eq_true, if_false, and_self]

/-! ## The obligations -/

/-- Settles O47. -/
theorem hostWritesOnlyBetweenJobs : Obligations.HostWritesOnlyBetweenJobs := by
  intro s rest a len bs
  let s' : State := { s with inbox := rest }
  refine ⟨fun hm hr => (step_of_inbox_cons hm).trans (hostMove_writeN (s := s') hr len), fun hm hr => ?_,
    fun hr hm => ?_⟩
  · exact ⟨_, (step_of_inbox_cons hm).trans (hostMove_writeSrc (s := s') hr a bs), rfl,
      memRead_memWriteList_add bs s.src a, memRead_memWriteList_of_outside bs s.src a⟩
  · rcases hm with hm | hm
    · exact (step_of_inbox_cons hm).trans (hostMove_writeN_running (s := s') hr len)
    · exact (step_of_inbox_cons hm).trans (hostMove_writeSrc_running (s := s') hr a bs)

/-- Settles O48: the values are those `State.reset` is written with. -/
theorem resetState : Obligations.ResetState :=
  ⟨rfl, (statusOf_eq_zero_iff _).2 rfl, rfl, rfl, fun _ => ⟨rfl, rfl, rfl, rfl⟩⟩

/-- Settles O49. -/
theorem statusAndHostView : Obligations.StatusAndHostView := by
  intro s
  refine ⟨statusOf_eq_zero_iff _, statusOf_eq_two_iff _, statusOf_eq_three_iff _, statusOf_eq_one_iff _,
    finishedFlag_iff s, failedFlag_iff s, rfl, rfl, rfl, hostView_running, fun h => ?_, rfl⟩
  obtain ⟨hn, hsrc⟩ := hostView_not_running h
  refine ⟨hn, _, hsrc, by simp, fun a ha => ?_⟩
  rw [List.getElem?_map, List.getElem?_range ha, Option.map_some]

/-- The invariant holds in any state that reset leaves (R40, R240). -/
theorem blockInv_powerOnReset (s : State) : blockInv (powerOnReset s) :=
  ⟨memWf_nil, memWf_nil, memWf_nil, memWf_nil, (phaseInv_idle rfl).2 ⟨rfl, rfl⟩⟩

/-- Settles O51: power-on reset of the reset state is the reset state. -/
theorem invariantHoldsAtReset : Obligations.InvariantHoldsAtReset :=
  blockInv_powerOnReset State.reset

end Sys2Proof.Machine
end

section
/-! PROOFS. Every step keeps the invariant: the host's moves, then the block's own step phase by phase (R135, R169,
R194, R197). -/

namespace Sys2Proof.Machine

/-! ## The moves of the host -/

/-- The block's invariant does not speak of the pending moves of the host. -/
theorem blockInv_inbox {s : State} (h : blockInv s) (ms : List HostMove) : blockInv { s with inbox := ms } := h

/-- Between jobs the invariant does not speak of what `SRC` and `N` hold (R243). -/
theorem phaseInv_of_input_written {s : State} (hw : statusOf s.phase ≠ 1) (h : phaseInv s) (src : Memory) (n : Nat) :
    phaseInv { s with src := src, n := n } := by
  rcases (statusOf_ne_one_iff _).1 hw with hp | hp | hp <;> simpa only [phaseInv, hp] using h

/-- A job starts in the invariant, whatever values its registers take (R199). -/
theorem blockInv_startJob {s : State} (hsrc : memWf s.src) : blockInv (startJob s) :=
  ⟨hsrc, memWf_nil, memWf_nil, memWf_nil, (phaseInv_sHdr rfl).2 ⟨⟨rfl, rfl⟩, rfl, rfl, rfl⟩⟩

theorem hostMove_keeps_blockInv {m : HostMove} {s t : State} (hi : blockInv s) (h : hostMove m s = .next t) :
    blockInv t := by
  have ⟨hsrc, hout, hrel, hres, hph⟩ := hi
  obtain ⟨hw, a, bs, rfl⟩ | ⟨hw, n, rfl⟩ | ⟨-, rfl⟩ | ⟨-, rfl⟩ | rfl := hostMove_next h
  · exact ⟨memWriteList_wf _ _ _ hsrc, hout, hrel, hres, phaseInv_of_input_written hw hph _ s.n⟩
  · exact ⟨hsrc, hout, hrel, hres, phaseInv_of_input_written hw hph s.src n⟩
  · exact hi
  · exact blockInv_startJob hsrc
  · exact blockInv_powerOnReset s

/-! ## The phases of the sequencer -/

theorem withinCap_zero (cap : Option Nat) : withinCap 0 cap = true := by
  cases cap <;> simp [withinCap]

/-- A buffered control word with all its bits unread, `CUR` past it, meets the bit reader's bounds (R135). -/
theorem readerOk_of_full {s : State} (hc : s.bitCnt = 16) (hb : s.payBase + 2 ≤ s.cur) (hl : s.cur ≤ s.payLimit) :
    readerOk s := by
  have h16 : s.bitCnt.toNat = 16 := by rw [hc]; rfl
  exact ⟨by omega, by omega, by rw [h16]; exact s.bitBuf.isLt, hb, hl⟩

theorem stepHdr_keeps_blockInv {s t : State} (hp : s.phase = .sHdr) (hi : blockInv s) (h : stepHdr s = .next t) :
    blockInv t := by
  obtain ⟨hsrc, -, hrel, hres, hph⟩ := hi
  obtain ⟨k, u, s', ⟨hkept, -⟩, rfl⟩ | ⟨hd, w, hpay, hreg, hrelb, rfl⟩ := stepHdr_next h
  · exact blockInv_raise k u (hkept ▸ hsrc)
  · obtain ⟨hnf, hr, -, -⟩ := (phaseInv_sHdr hp).1 hph
    have hregions : regionsOk (codeStart hd w s) :=
      ⟨by show payloadStart hd ≤ loaderOff hd; omega, rfl, hreg, rfl, hrelb, rfl⟩
    exact ⟨hsrc, memWf_nil, hrel, hres, (phaseInv_sCode rfl).2
      ⟨hnf, hr, hregions, readerOk_of_full rfl (le_refl _) hpay, covers_nil, withinCap_zero _⟩⟩

theorem stepRegs_keeps_blockInv {s t : State} (hp : s.phase = .sRegs) (hi : blockInv s)
    (h : stepRegs s = .next t) : blockInv t := by
  obtain ⟨hsrc, hout, hrel, hres, hph⟩ := hi
  obtain ⟨hnf, hr, -, hO, hR⟩ := (phaseInv_sRegs hp).1 hph
  obtain ⟨ep, rfl⟩ := stepRegs_next h
  exact ⟨hsrc, hout, hrel, hres, (phaseInv_sBuild rfl).2 ⟨hnf, hr, hO, hR⟩⟩

theorem stepBuild_keeps_blockInv {s t : State} (hp : s.phase = .sBuild) (hi : blockInv s)
    (h : stepBuild s = .next t) : blockInv t := by
  obtain ⟨hsrc, hout, hrel, hres, hph⟩ := hi
  obtain rfl | ⟨hd, rfl⟩ := stepBuild_next h
  · exact blockInv_raise _ _ hsrc
  · exact ⟨hsrc, hout, hrel, hres, (phaseInv_sEmit rfl).2 ((phaseInv_sBuild hp).1 hph)⟩

/-- A `RESULT` of `28 + 4 * RCOUNT + OLEN` bytes finishes a job in the invariant (R196). -/
theorem blockInv_finished {s : State} {m : Memory} (hp : s.phase = .sEmit) (hi : blockInv s)
    (hm : covers m (hdrLen + relentLen * s.rcount + s.olen)) : blockInv { s with result := m, phase := .done } := by
  obtain ⟨hsrc, hout, hrel, -, hph⟩ := hi
  obtain ⟨hnf, -⟩ := (phaseInv_sEmit hp).1 hph
  exact ⟨hsrc, hout, hrel, memWf_of_covers hm, (phaseInv_done rfl).2 ⟨hnf, hm⟩⟩

theorem stepEmit_keeps_blockInv {s t : State} (hp : s.phase = .sEmit) (hi : blockInv s)
    (h : stepEmit s = .next t) : blockInv t := by
  obtain ⟨rel, out, hr, ho, rfl⟩ := stepEmit_next h
  refine blockInv_finished hp hi ?_
  rw [← cellReadRange_length hr, ← cellReadRange_length ho, ← outputImage_length]
  exact covers_memOfList _

/-! ## The code stream -/

/-- A completed `NEXT_BIT` keeps the bit reader's bounds (R135). -/
theorem readerOk_nextBit {s t : State} {b : Bool} (hr : readerOk s) (h : nextBit s = .ok (b, t)) : readerOk t := by
  obtain ⟨h1, h16, hbuf, hb, hl⟩ := hr
  obtain ⟨-, ⟨hne, rfl⟩ | ⟨-, hl', w, -, rfl⟩⟩ := nextBit_ok h
  · have hcnt : (s.bitCnt - 1).toNat = s.bitCnt.toNat - 1 := by bv_omega
    have hpos : (s.bitCnt - 1).toNat ≠ 0 := fun e => hne (BitVec.eq_of_toNat_eq e)
    have hpow : 2 ^ s.bitCnt.toNat = 2 ^ (s.bitCnt.toNat - 1) * 2 := (Nat.pow_pred_mul h1).symm
    have hshift : (s.bitBuf >>> 1).toNat < 2 ^ (s.bitCnt - 1).toNat := by
      rw [hcnt, BitVec.toNat_ushiftRight, Nat.shiftRight_eq_div_pow]; omega
    exact ⟨by show 1 ≤ (s.bitCnt - 1).toNat; omega, by show (s.bitCnt - 1).toNat ≤ 16; omega, hshift, hb, hl⟩
  · exact readerOk_of_full rfl (by show s.payBase + 2 ≤ s.cur + 2; omega) hl'

/-- A completed `NEXT_BYTE` keeps the bit reader's bounds (R135). -/
theorem readerOk_nextByte {s t : State} {b : Byte} (hr : readerOk s) (h : nextByte s = .ok (b, t)) :
    readerOk t := by
  obtain ⟨h1, h16, hbuf, hb, -⟩ := hr
  obtain ⟨hl, -, rfl⟩ := nextByte_ok h
  exact ⟨h1, h16, hbuf, by show s.payBase + 2 ≤ s.cur + 1; omega, hl⟩

/-- The fetch of a code token keeps the bit reader's bounds (R135, R141). -/
theorem readerOk_fetchCode {s t : State} {i : Instr} (hr : readerOk s) (h : fetchCode s = .ok (i, t)) :
    readerOk t :=
  (readCodeToken_ok (P := fun a b => readerOk a → readerOk b) (fun _ _ _ hab hbc ha => hbc (hab ha))
    (fun _ _ _ h ha => readerOk_nextBit ha h) (fun _ _ _ h ha => readerOk_nextByte ha h) h).1 hr

/-- The reads of a code token keep the invariant (R141). -/
theorem fetchCode_keeps_blockInv {s t : State} {i : Instr} (hp : s.phase = .sCode) (hi : blockInv s)
    (h : fetchCode s = .ok (i, t)) : t.phase = .sCode ∧ blockInv t := by
  obtain ⟨hsrc, hout, hrel, hres, hph⟩ := hi
  obtain ⟨hnf, hr, hregions, hreader, hO⟩ := (phaseInv_sCode hp).1 hph
  have hreader' : readerOk t := readerOk_fetchCode hreader h
  obtain ⟨⟨e, -⟩, -⟩ := fetchCode_ok h
  rw [e] at hreader' ⊢
  refine ⟨hp, hsrc, hout, hrel, hres, (phaseInv_sCode ?_).2 ⟨hnf, hr, hregions, hreader', hO⟩⟩
  exact hp

/-- `END` starts the relocation decoder in the invariant (R160, R193). -/
theorem blockInv_enterReloc {s : State} (hp : s.phase = .sCode) (hi : blockInv s) : blockInv (enterReloc s) := by
  obtain ⟨hsrc, hout, -, hres, hph⟩ := hi
  obtain ⟨hnf, hr, hregions, -, hO⟩ := (phaseInv_sCode hp).1 hph
  have ⟨_, _, _, _, hbase, hlimit⟩ := hregions
  have hR : relOk (enterReloc s) := ⟨covers_nil, withinCap_zero _, List.Pairwise.nil⟩
  have hacc : relBelowAcc (enterReloc s) := fun c hc => nomatch hc
  exact ⟨hsrc, hout, memWf_nil, hres, (phaseInv_sRel rfl).2
    ⟨hnf, hr, hregions, hO, hR, hacc, le_refl _, by show s.relBase ≤ s.relLimit; omega⟩⟩

/-- A code token's meaning keeps the invariant (R142 to R149). -/
theorem exec_code_keeps_blockInv {i : Instr} {s t : State} (hp : s.phase = .sCode) (hi : blockInv s)
    (hst : streamOf i = .code) (h : exec i s = .next t) : blockInv t := by
  have ⟨hsrc, hout, hrel, hres, hph⟩ := hi
  obtain (rfl | rfl) | ⟨-, rfl⟩ | ⟨-, e, -, hcap, hcov⟩ := exec_code_next hst h
  · exact blockInv_raiseToken _ _ hsrc hout hrel
  · exact blockInv_raiseToken _ _ hsrc hout hrel
  · exact blockInv_enterReloc hp hi
  · obtain ⟨hnf, hr, hregions, hreader, hc, hw⟩ := (phaseInv_sCode hp).1 hph
    have hcov' := hcov hc
    have hcap' := hcap hw
    rw [e]
    refine ⟨hsrc, memWf_of_covers hcov', hrel, hres, (phaseInv_sCode ?_).2
      ⟨hnf, hr, hregions, hreader, hcov', hcap'⟩⟩
    exact hp

theorem codeStep_keeps_blockInv {s t : State} (hp : s.phase = .sCode) (hi : blockInv s)
    (h : runFetched (fetchCode s) = .next t) : blockInv t := by
  obtain hf | ⟨i, s', hf, hx⟩ := runFetched_next h
  · obtain ⟨s', ⟨e, -⟩, ho⟩ | ⟨f, ho⟩ := fetchCode_error hf
    · cases ho
      obtain ⟨hsrc, hout, hrel, -⟩ := hi
      rw [e]
      exact blockInv_raiseToken _ _ hsrc hout hrel
    · cases ho
  · obtain ⟨hp', hi'⟩ := fetchCode_keeps_blockInv hp hi hf
    obtain ⟨-, hst, -⟩ := fetchCode_ok hf
    exact exec_code_keeps_blockInv hp' hi' hst hx

/-! ## The relocation stream -/

/-- A sum that passes the check of `ADD` is kept whole in `ACC` (R162). -/
theorem toNat_ofNat_of_le_accMax {v : Nat} (h : v ≤ accMax) : (BitVec.ofNat 20 v).toNat = v :=
  (BitVec.toNat_ofNat v 20).trans (Nat.mod_eq_of_lt (Nat.lt_succ_of_le h))

/-- An emitted entry of a positive delta is greater than every entry before it (R169). -/
theorem accumulateEmit_keeps_order {x : Nat} {s t : State} (hx : 0 < x) (hc : covers s.rel s.rcount)
    (hrise : relRises s) (hacc : relBelowAcc s) (h : accumulateEmit x s = .next t) :
    relRises t ∧ relBelowAcc t := by
  obtain ⟨-, rfl⟩ | ⟨-, -, rfl⟩ | ⟨hfit, -, rfl⟩ := accumulateEmit_next h
  · exact ⟨hrise, hacc⟩
  · exact ⟨hrise, hacc⟩
  · have hv := toNat_ofNat_of_le_accMax hfit
    simp only [relRises, relBelowAcc, covers_memWrite_eq hc, List.map_append, List.map_cons, List.map_nil,
      List.pairwise_append, List.mem_append, List.mem_singleton, List.mem_map, hv]
    refine ⟨⟨hrise, List.pairwise_singleton _ _, ?_⟩, ?_⟩
    · rintro _ ⟨c, hm, rfl⟩ _ rfl
      have := hacc c hm
      omega
    · rintro c (hm | rfl)
      · have := hacc c hm
        omega
      · exact hv.le

/-- Every well-formed relocation token keeps the entries of `REL` rising and none above `ACC` (R162, R169): a delta
is never 0, and the escape only raises `ACC`. -/
theorem exec_reloc_keeps_order {i : Instr} {s t : State} (hst : streamOf i = .reloc) (hwf : wellFormed i = true)
    (hc : covers s.rel s.rcount) (hrise : relRises s) (hacc : relBelowAcc s) (h : exec i s = .next t) :
    relRises t ∧ relBelowAcc t := by
  cases i with
  | rdb b =>
    have hb : b ≠ 0 := by simpa [wellFormed] using hwf
    have hpos : 0 < byteDelta b := Nat.pos_of_ne_zero fun e => hb (BitVec.eq_of_toNat_eq e)
    exact accumulateEmit_keeps_order hpos hc hrise hacc h
  | rdw w =>
    have hw : 2 ≤ w.toNat := by simpa [wellFormed] using hwf
    exact accumulateEmit_keeps_order (x := wordDelta w) (by unfold wordDelta; omega) hc hrise hacc h
  | resc =>
    simp only [exec, execResc] at h
    obtain ⟨-, rfl⟩ | ⟨hfit, rfl⟩ := accumulate_next h
    · exact ⟨hrise, hacc⟩
    · refine ⟨hrise, fun c hm => ?_⟩
      have := hacc c hm
      rw [toNat_ofNat_of_le_accMax hfit]
      omega
  | rend => cases h; exact ⟨hrise, hacc⟩
  | lit b => cases hst
  | scopy c db => cases hst
  | lcopy lo hi5 c => cases hst
  | endCode lo hi5 => cases hst
  | esc lo hi5 => cases hst
  | lcopyx lo hi5 e => cases hst

/-- The reads of a relocation token keep the invariant (R160). -/
theorem fetchReloc_keeps_blockInv {s t : State} {i : Instr} (hp : s.phase = .sRel) (hi : blockInv s)
    (h : fetchReloc s = .ok (i, t)) : t.phase = .sRel ∧ blockInv t := by
  obtain ⟨hsrc, hout, hrel, hres, hph⟩ := hi
  obtain ⟨hnf, hr, hregions, hO, hR, hacc, hbase, -⟩ := (phaseInv_sRel hp).1 hph
  obtain ⟨⟨e, hlt, hle⟩, -⟩ := fetchReloc_ok h
  have hbase' : s.relBase ≤ t.rcur := by omega
  rw [e]
  refine ⟨hp, hsrc, hout, hrel, hres, (phaseInv_sRel ?_).2 ⟨hnf, hr, hregions, hO, hR, hacc, hbase', hle⟩⟩
  exact hp

/-- A relocation token's meaning keeps the invariant (R162 to R167). -/
theorem exec_reloc_keeps_blockInv {i : Instr} {s t : State} (hp : s.phase = .sRel) (hi : blockInv s)
    (hst : streamOf i = .reloc) (hwf : wellFormed i = true) (h : exec i s = .next t) : blockInv t := by
  obtain ⟨hsrc, hout, hrel, hres, hph⟩ := hi
  obtain ⟨hnf, hr, hregions, hO, ⟨hc, hw, hrise⟩, hacc, hbase, hle⟩ := (phaseInv_sRel hp).1 hph
  obtain ⟨hrise', hacc'⟩ := exec_reloc_keeps_order hst hwf hc hrise hacc h
  obtain (rfl | rfl) | ⟨-, rfl⟩ | ⟨-, e, -, hcap, -, hcov⟩ := exec_reloc_next hst h
  · exact blockInv_raiseToken _ _ hsrc hout hrel
  · exact blockInv_raiseToken _ _ hsrc hout hrel
  · exact ⟨hsrc, hout, hrel, hres, (phaseInv_sRegs rfl).2 ⟨hnf, hr, hregions, hO, hc, hw, hrise⟩⟩
  · have hcov' := hcov hc
    have hcap' := hcap hw
    rw [e] at hrise' hacc' ⊢
    refine ⟨hsrc, hout, memWf_of_covers hcov', hres, (phaseInv_sRel ?_).2
      ⟨hnf, hr, hregions, hO, ⟨hcov', hcap', hrise'⟩, hacc', hbase, hle⟩⟩
    exact hp

theorem relocStep_keeps_blockInv {s t : State} (hp : s.phase = .sRel) (hi : blockInv s)
    (h : runFetched (fetchReloc s) = .next t) : blockInv t := by
  obtain hf | ⟨i, s', hf, hx⟩ := runFetched_next h
  · obtain ⟨hsrc, hout, hrel, -⟩ := hi
    obtain ⟨s', rfl | ⟨e, -⟩, ho⟩ | ⟨f, ho⟩ := fetchReloc_error hf
    · cases ho
      exact blockInv_raiseToken _ _ hsrc hout hrel
    · cases ho
      rw [e]
      exact blockInv_raiseToken _ _ hsrc hout hrel
    · cases ho
  · obtain ⟨hp', hi'⟩ := fetchReloc_keeps_blockInv hp hi hf
    obtain ⟨-, hst, hwf⟩ := fetchReloc_ok hf
    exact exec_reloc_keeps_blockInv hp' hi' hst hwf hx

/-! ## The obligation -/

theorem blockStep_keeps_blockInv {s t : State} (hi : blockInv s) (h : blockStep s = .next t) : blockInv t := by
  cases hp : s.phase with
  | idle => cases (blockStep_waiting (.inl hp)).symm.trans h; exact hi
  | sHdr => exact stepHdr_keeps_blockInv hp hi ((blockStep_sHdr hp).symm.trans h)
  | sCode => exact codeStep_keeps_blockInv hp hi ((blockStep_sCode hp).symm.trans h)
  | sRel => exact relocStep_keeps_blockInv hp hi ((blockStep_sRel hp).symm.trans h)
  | sRegs => exact stepRegs_keeps_blockInv hp hi ((blockStep_sRegs hp).symm.trans h)
  | sBuild => exact stepBuild_keeps_blockInv hp hi ((blockStep_sBuild hp).symm.trans h)
  | sEmit => exact stepEmit_keeps_blockInv hp hi ((blockStep_sEmit hp).symm.trans h)
  | done => cases (blockStep_waiting (.inr (.inl hp))).symm.trans h; exact hi
  | fault => cases (blockStep_waiting (.inr (.inr hp))).symm.trans h; exact hi

/-- Settles O52: a pending host move, or the block's own step by its phase. -/
theorem everyStepKeepsTheInvariant : Obligations.EveryStepKeepsTheInvariant := by
  intro s t hi h
  cases hbox : s.inbox with
  | nil => exact blockStep_keeps_blockInv hi ((step_of_inbox_nil hbox).symm.trans h)
  | cons m rest =>
    exact hostMove_keeps_blockInv (blockInv_inbox hi rest) ((step_of_inbox_cons hbox).symm.trans h)

end Sys2Proof.Machine
end

section
/-! PROOFS. Under the host's duty no step of the block stops: every read of a step is of a cell below `N` that the
host has written, or of a cell of a segment the block has written (R21, R61, R83, R243). -/

namespace Sys2Proof.Machine

/-! ## Ranges that can be read -/

/-- A range of `SRC` below `N` of a loaded image can be read (R243). -/
theorem srcReadRange_loaded {s : State} (h : srcLoaded s) : ∀ (len a : Nat), a + len ≤ s.n →
    ∃ bs, srcReadRange s a len = .ok bs := by
  intro len
  induction len with
  | zero => intro a _; exact ⟨[], rfl⟩
  | succ len ih =>
    intro a ha
    obtain ⟨b, hb⟩ := srcRead8_loaded h (show a < s.n by omega)
    obtain ⟨bs, hbs⟩ := ih (a + 1) (by omega)
    exact ⟨b :: bs, by simp only [srcReadRange, hb, hbs]⟩

/-- A range of a segment can be read (R63, R64). -/
theorem cellReadRange_covers {α : Type} (sp : Space) {m : Mem α} {n : Nat} (h : covers m n) :
    ∀ (len a : Nat), a + len ≤ n → ∃ vs, cellReadRange sp m a len = .ok vs := by
  intro len
  induction len with
  | zero => intro a _; exact ⟨[], rfl⟩
  | succ len ih =>
    intro a ha
    obtain ⟨v, hv⟩ := Option.isSome_iff_exists.1 ((covers_isSome h a).2 (by omega))
    obtain ⟨vs, hvs⟩ := ih (a + 1) (by omega)
    exact ⟨v :: vs, by simp only [cellReadRange, cellRead, hv, hvs]⟩

/-! ## The phases of the sequencer -/

/-- `S_HDR` of a loaded image does not stop: it checks each read against `N` first (R120, R194). -/
theorem stepHdr_completes {s : State} (hl : srcLoaded s) : ∃ t, stepHdr s = .next t := by
  unfold stepHdr
  split
  · rename_i o ho
    obtain rfl | ⟨f, hn, hf, -⟩ := deserHeader_error ho
    · exact ⟨_, rfl⟩
    · obtain ⟨bs, hbs⟩ := srcReadRange_loaded hl hdrLen 0 (by omega)
      cases hf.symm.trans hbs
  · rename_i s1 h1
    obtain ⟨-, -, hd, -, -, rfl⟩ := deserHeader_ok h1
    split
    · rename_i o ho
      exact ⟨_, checkRegions_error ho⟩
    · rename_i s2 h2
      obtain ⟨rfl, -, hreg, -⟩ := checkRegions_ok h2
      unfold enterCode finish
      split
      · rename_i o ho
        obtain rfl | ⟨f, hpay, hf, -⟩ := initBits_error ho
        · exact ⟨_, rfl⟩
        · simp only [deriveRegions_payBase, deriveRegions_payLimit] at hpay hf
          obtain ⟨w, hw⟩ := srcRead16_loaded hl (a := payloadStart hd) (by dsimp only at hreg hpay; omega)
          cases hf.symm.trans hw
      · exact ⟨_, rfl⟩

/-- `S_REGS` does not stop when the register block lies inside a loaded image (R194, R195). -/
theorem stepRegs_completes {s : State} (hl : srcLoaded s) (hn : s.regBase + regblkLen ≤ s.n) :
    ∃ t, stepRegs s = .next t := by
  simp only [regblkLen] at hn
  obtain ⟨ip, hip⟩ := srcRead16_loaded hl (a := s.regBase) (by omega)
  obtain ⟨cs, hcs⟩ := srcRead16_loaded hl (a := s.regBase + 2) (by omega)
  obtain ⟨sp, hsp⟩ := srcRead16_loaded hl (a := s.regBase + 4) (by omega)
  obtain ⟨ss, hss⟩ := srcRead16_loaded hl (a := s.regBase + 6) (by omega)
  rw [stepRegs, hip, hcs, hsp, hss]
  exact ⟨_, rfl⟩

/-- `S_BUILD` reads no memory (R182). -/
theorem stepBuild_completes (s : State) : ∃ t, stepBuild s = .next t := by
  unfold stepBuild
  split
  · rename_i o ho; exact ⟨_, buildHeader_error ho⟩
  · exact ⟨_, rfl⟩

/-- `S_EMIT` does not stop on segments `REL` and `OUT` (R196). -/
theorem stepEmit_completes {s : State} (hout : covers s.out s.olen) (hrel : covers s.rel s.rcount) :
    ∃ t, stepEmit s = .next t := by
  obtain ⟨rel, hr⟩ := cellReadRange_covers .rel hrel s.rcount 0 (by omega)
  obtain ⟨out, ho⟩ := cellReadRange_covers .out hout s.olen 0 (by omega)
  rw [stepEmit, hr, ho]
  exact ⟨_, rfl⟩

/-! ## The fetches -/

/-- The code payload lies inside a loaded image. -/
def codeReadable (s : State) : Prop := srcLoaded s ∧ s.payLimit ≤ s.n

/-- The reads of a code token move only the bit reader, so what can be read stays so (R141). -/
theorem codeReadable_codeReads {s t : State} (hr : codeReads s t) (h : codeReadable s) : codeReadable t := by
  obtain ⟨e, -⟩ := hr
  rw [e]
  exact h

theorem nextBit_error_completes {s : State} {o : Result} (h : nextBit s = .error o) (hr : codeReadable s) :
    ∃ t, o = .next t := by
  obtain ⟨hl, hn⟩ := hr
  unfold nextBit takeBit at h
  simp only at h
  split at h
  · split at h
    · rename_i hf
      cases h
      obtain rfl | ⟨f, hcur, hf, -⟩ := fetch16_error hf
      · exact ⟨_, rfl⟩
      · obtain ⟨w, hw⟩ := srcRead16_loaded hl (a := s.cur) (by dsimp only at hcur; omega)
        cases hf.symm.trans hw
    · cases h
  · cases h

theorem nextByte_error_completes {s : State} {o : Result} (h : nextByte s = .error o) (hr : codeReadable s) :
    ∃ t, o = .next t := by
  obtain ⟨hl, hn⟩ := hr
  unfold nextByte at h
  split at h
  · cases h; exact ⟨_, rfl⟩
  · obtain ⟨b, hb⟩ := srcRead8_loaded hl (a := s.cur) (by omega)
    rw [hb] at h
    cases h

theorem fetchCode_error_completes {s : State} {o : Result} (h : fetchCode s = .error o) (hr : codeReadable s) :
    ∃ t, o = .next t :=
  readCodeToken_error (P := codeReads) (E := fun s (o : Result) => codeReadable s → ∃ t, o = .next t)
    (fun _ _ _ hp he hs => he (codeReadable_codeReads hp hs))
    (fun _ _ _ => codeReads_nextBit) (fun _ _ _ => codeReads_nextByte)
    (fun _ _ => nextBit_error_completes) (fun _ _ => nextByte_error_completes) h hr

/-- The relocation payload lies inside a loaded image. -/
def relocReadable (s : State) : Prop := srcLoaded s ∧ s.relLimit ≤ s.n

theorem relocReadable_relocReads {s t : State} (hr : relocReads s t) (h : relocReadable s) : relocReadable t := by
  obtain ⟨e, -⟩ := hr
  rw [e]
  exact h

theorem relocByte_error_completes {s : State} {o : Result} (h : relocByte s = .error o) (hr : relocReadable s) :
    ∃ t, o = .next t := by
  obtain ⟨hl, hn⟩ := hr
  unfold relocByte at h
  split at h
  · cases h; exact ⟨_, rfl⟩
  · obtain ⟨b, hb⟩ := srcRead8_loaded hl (a := s.rcur) (by omega)
    rw [hb] at h
    cases h

theorem relocWord_error_completes {s : State} {o : Result} (h : relocWord s = .error o) (hr : relocReadable s) :
    ∃ t, o = .next t := by
  obtain ⟨hl, hn⟩ := hr
  unfold relocWord at h
  split at h
  · cases h; exact ⟨_, rfl⟩
  · obtain ⟨w, hw⟩ := srcRead16_loaded hl (a := s.rcur) (by omega)
    rw [hw] at h
    cases h

theorem fetchReloc_error_completes {s : State} {o : Result} (h : fetchReloc s = .error o)
    (hr : relocReadable s) : ∃ t, o = .next t :=
  readRelocToken_error (P := relocReads) (E := fun s (o : Result) => relocReadable s → ∃ t, o = .next t)
    (fun _ _ _ hp he hs => he (relocReadable_relocReads hp hs))
    (fun _ _ _ => relocReads_relocByte) (fun _ _ => relocByte_error_completes)
    (fun _ _ => relocWord_error_completes) h hr

/-! ## The tokens' meanings -/

/-- A long distance reaches back (R101): the top three bits of its pattern are set. -/
theorem longDistance_neg (lo hi : Byte) : longDistance lo hi < 0 := by
  have hmsb : (longPattern lo hi).msb = true := by
    rw [longPattern, BitVec.msb_or, BitVec.msb_or]; rfl
  exact BitVec.toInt_neg_of_msb_true hmsb

/-- A short distance reaches back (R104). -/
theorem shortDistance_neg (db : Byte) : shortDistance db < 0 := by
  have hnat : (0xFF00#16 + db.setWidth 16).toNat = 0xFF00 + db.toNat := by bv_omega
  have := db.isLt
  unfold shortDistance sext16
  rw [BitVec.toInt_eq_toNat_cond, hnat]
  omega

/-- A copy that reaches back into a segment `OUT` does not stop (R148). -/
theorem copy_completes {d : Int} (n : Nat) {s : State} (hd : d < 0) (hc : covers s.out s.olen) :
    ∃ t, copy d n s = .next t := by
  unfold copy
  split
  · exact ⟨_, rfl⟩
  · split
    · exact ⟨_, rfl⟩
    · exact copyLoop_runs hc (by omega)

theorem append_completes (v : Byte) (s : State) : ∃ t, append v s = .next t := by
  unfold append
  split <;> exact ⟨_, rfl⟩

theorem accumulate_completes (x : Nat) (s : State) : ∃ t, accumulate x s = .next t := by
  unfold accumulate
  split <;> exact ⟨_, rfl⟩

theorem accumulateEmit_completes (x : Nat) (s : State) : ∃ t, accumulateEmit x s = .next t := by
  unfold accumulateEmit
  split
  · exact ⟨_, rfl⟩
  · split <;> exact ⟨_, rfl⟩

/-- No token's meaning stops on a segment `OUT`: only a copy reads memory (R141, R148). -/
theorem exec_completes (i : Instr) {s : State} (hc : covers s.out s.olen) : ∃ t, exec i s = .next t := by
  cases i with
  | lit b => exact append_completes b s
  | scopy c db => exact copy_completes _ (shortDistance_neg db) hc
  | lcopy lo hi5 c => exact copy_completes _ (longDistance_neg _ _) hc
  | lcopyx lo hi5 e => exact copy_completes _ (longDistance_neg _ _) hc
  | endCode lo hi5 => exact ⟨_, rfl⟩
  | esc lo hi5 => exact ⟨_, rfl⟩
  | rdb b => exact accumulateEmit_completes _ s
  | resc => exact accumulate_completes rescDelta s
  | rend => exact ⟨_, rfl⟩
  | rdw t => exact accumulateEmit_completes _ s

theorem codeStep_completes {s : State} (hr : codeReadable s) (hc : covers s.out s.olen) :
    ∃ t, runFetched (fetchCode s) = .next t := by
  cases hf : fetchCode s with
  | error o => exact fetchCode_error_completes hf hr
  | ok r =>
    obtain ⟨i, s'⟩ := r
    obtain ⟨⟨e, -⟩, -⟩ := fetchCode_ok hf
    have hc' : covers s'.out s'.olen := by rw [e]; exact hc
    exact exec_completes i hc'

theorem relocStep_completes {s : State} (hr : relocReadable s) (hc : covers s.out s.olen) :
    ∃ t, runFetched (fetchReloc s) = .next t := by
  cases hf : fetchReloc s with
  | error o => exact fetchReloc_error_completes hf hr
  | ok r =>
    obtain ⟨i, s'⟩ := r
    obtain ⟨⟨e, -⟩, -⟩ := fetchReloc_ok hf
    have hc' : covers s'.out s'.olen := by rw [e]; exact hc
    exact exec_completes i hc'

/-! ## The obligation -/

theorem blockStep_completes {s : State} (hi : blockInv s) (hduty : statusOf s.phase = 1 → srcLoaded s) :
    ∃ t, blockStep s = .next t := by
  obtain ⟨-, -, -, -, hph⟩ := hi
  cases hp : s.phase with
  | idle => exact ⟨s, blockStep_waiting (.inl hp)⟩
  | done => exact ⟨s, blockStep_waiting (.inr (.inl hp))⟩
  | fault => exact ⟨s, blockStep_waiting (.inr (.inr hp))⟩
  | sHdr =>
    rw [blockStep_sHdr hp]
    exact stepHdr_completes (hduty (by rw [hp]; rfl))
  | sCode =>
    obtain ⟨-, -, ⟨-, hreg, hn, -⟩, -, hc, -⟩ := (phaseInv_sCode hp).1 hph
    rw [blockStep_sCode hp]
    exact codeStep_completes ⟨hduty (by rw [hp]; rfl), by omega⟩ hc
  | sRel =>
    obtain ⟨-, -, ⟨-, -, -, -, -, hlimit⟩, ⟨hc, -⟩, -⟩ := (phaseInv_sRel hp).1 hph
    rw [blockStep_sRel hp]
    exact relocStep_completes ⟨hduty (by rw [hp]; rfl), hlimit.le⟩ hc
  | sRegs =>
    obtain ⟨-, -, ⟨-, -, hn, -⟩, -⟩ := (phaseInv_sRegs hp).1 hph
    rw [blockStep_sRegs hp]
    exact stepRegs_completes (hduty (by rw [hp]; rfl)) hn
  | sBuild =>
    rw [blockStep_sBuild hp]
    exact stepBuild_completes s
  | sEmit =>
    obtain ⟨-, -, ⟨hout, -⟩, ⟨hrel, -⟩⟩ := (phaseInv_sEmit hp).1 hph
    rw [blockStep_sEmit hp]
    exact stepEmit_completes hout hrel

/-- Settles O53. -/
theorem noStepStopsUnderTheHostDuty : Obligations.NoStepStopsUnderTheHostDuty := by
  intro s hi hbox hduty
  rw [step_of_inbox_nil hbox]
  exact blockStep_completes hi hduty

end Sys2Proof.Machine
end

section
/-! PROOFS. The memories (`20_memory.md`): no step of the block writes the host's input or the parameters (R61, R79),
and the byte layout of a serialized relocation entry (R68). -/

namespace Sys2Proof.Machine

/-! ## The parts of a step keep the input -/

theorem inputKept_trans {a b c : State} (h1 : inputKept a b) (h2 : inputKept b c) : inputKept a c := by
  obtain ⟨hsrc1, hn1, hout1, hrel1, hbox1⟩ := h1
  obtain ⟨hsrc2, hn2, hout2, hrel2, hbox2⟩ := h2
  exact ⟨hsrc2.trans hsrc1, hn2.trans hn1, hout2.trans hout1, hrel2.trans hrel1, hbox2.trans hbox1⟩

/-- The fault entry of a unit operation leaves `SRC` and `N` to the host (R214). -/
theorem inputKept_raise (k : FaultKind) (u : UnitId) (s : State) : inputKept s (raise k u s) :=
  ⟨rfl, rfl, rfl, rfl, rfl⟩

/-- The fault entry of a token leaves `SRC` and `N` to the host (R214, R215). -/
theorem inputKept_raiseToken (k : FaultKind) (u : UnitId) (s : State) : inputKept s (raiseToken k u s) :=
  ⟨rfl, rfl, rfl, rfl, rfl⟩

theorem codeReads_inputKept {s t : State} (h : codeReads s t) : inputKept s t := by
  obtain ⟨e, -⟩ := h
  rw [e]; exact ⟨rfl, rfl, rfl, rfl, rfl⟩

theorem relocReads_inputKept {s t : State} (h : relocReads s t) : inputKept s t := by
  obtain ⟨e, -⟩ := h
  rw [e]; exact ⟨rfl, rfl, rfl, rfl, rfl⟩

theorem onlyOut_inputKept {s t : State} (h : onlyOut s t) : inputKept s t := by
  rw [h]; exact ⟨rfl, rfl, rfl, rfl, rfl⟩

theorem onlyReloc_inputKept {s t : State} (h : onlyReloc s t) : inputKept s t := by
  rw [h]; exact ⟨rfl, rfl, rfl, rfl, rfl⟩

/-! ## The steps of the two streams -/

/-- A token of either stream writes only what its decoder owns (R142 to R149, R162 to R167), or faults. -/
theorem exec_keeps_input {i : Instr} {s t : State} (h : exec i s = .next t) : inputKept s t := by
  cases hst : streamOf i with
  | code =>
    obtain (rfl | rfl) | ⟨-, rfl⟩ | ⟨-, hout, -⟩ := exec_code_next hst h
    · exact inputKept_raiseToken _ _ s
    · exact inputKept_raiseToken _ _ s
    · exact ⟨rfl, rfl, rfl, rfl, rfl⟩
    · exact onlyOut_inputKept hout
  | reloc =>
    obtain (rfl | rfl) | ⟨-, rfl⟩ | ⟨-, hrel, -⟩ := exec_reloc_next hst h
    · exact inputKept_raiseToken _ _ s
    · exact inputKept_raiseToken _ _ s
    · exact ⟨rfl, rfl, rfl, rfl, rfl⟩
    · exact onlyReloc_inputKept hrel

theorem codeStep_keeps_input {s t : State} (h : runFetched (fetchCode s) = .next t) : inputKept s t := by
  obtain hf | ⟨i, s', hf, hx⟩ := runFetched_next h
  · obtain ⟨s', hreads, ho⟩ | ⟨f, ho⟩ := fetchCode_error hf
    · cases ho
      exact inputKept_trans (codeReads_inputKept hreads) (inputKept_raiseToken _ _ s')
    · cases ho
  · obtain ⟨hreads, -⟩ := fetchCode_ok hf
    exact inputKept_trans (codeReads_inputKept hreads) (exec_keeps_input hx)

theorem relocStep_keeps_input {s t : State} (h : runFetched (fetchReloc s) = .next t) : inputKept s t := by
  obtain hf | ⟨i, s', hf, hx⟩ := runFetched_next h
  · obtain ⟨s', rfl | hreads, ho⟩ | ⟨f, ho⟩ := fetchReloc_error hf
    · cases ho
      exact inputKept_raiseToken _ _ s'
    · cases ho
      exact inputKept_trans (relocReads_inputKept hreads) (inputKept_raiseToken _ _ s')
    · cases ho
  · obtain ⟨hreads, -⟩ := fetchReloc_ok hf
    exact inputKept_trans (relocReads_inputKept hreads) (exec_keeps_input hx)

/-! ## Every step of the block's own -/

theorem stepHdr_keeps_input {s t : State} (h : stepHdr s = .next t) : inputKept s t := by
  obtain ⟨k, u, s', hs, rfl⟩ | ⟨hd, w, -, -, -, rfl⟩ := stepHdr_next h
  · exact inputKept_trans hs (inputKept_raise k u s')
  · exact ⟨rfl, rfl, rfl, rfl, rfl⟩

theorem stepBuild_keeps_input {s t : State} (h : stepBuild s = .next t) : inputKept s t := by
  obtain rfl | ⟨hd, rfl⟩ := stepBuild_next h
  · exact inputKept_raise _ _ s
  · exact ⟨rfl, rfl, rfl, rfl, rfl⟩

/-- Whatever its phase, a step of the block's own keeps the input (R61, R79). -/
theorem blockStep_keeps_input {s t : State} (h : blockStep s = .next t) : inputKept s t := by
  have hwait : (s.phase = .idle ∨ s.phase = .done ∨ s.phase = .fault) → inputKept s t := by
    intro hp
    cases (blockStep_waiting hp).symm.trans h
    exact ⟨rfl, rfl, rfl, rfl, rfl⟩
  cases hp : s.phase with
  | idle => exact hwait (.inl hp)
  | done => exact hwait (.inr (.inl hp))
  | fault => exact hwait (.inr (.inr hp))
  | sHdr => exact stepHdr_keeps_input ((blockStep_sHdr hp).symm.trans h)
  | sCode => exact codeStep_keeps_input ((blockStep_sCode hp).symm.trans h)
  | sRel => exact relocStep_keeps_input ((blockStep_sRel hp).symm.trans h)
  | sRegs =>
    obtain ⟨ep, rfl⟩ := stepRegs_next ((blockStep_sRegs hp).symm.trans h)
    exact ⟨rfl, rfl, rfl, rfl, rfl⟩
  | sBuild => exact stepBuild_keeps_input ((blockStep_sBuild hp).symm.trans h)
  | sEmit =>
    obtain ⟨rel, out, -, -, rfl⟩ := stepEmit_next ((blockStep_sEmit hp).symm.trans h)
    exact ⟨rfl, rfl, rfl, rfl, rfl⟩

/-- Settles O56: with no host move pending, the step is the block's own. -/
theorem blockNeverWritesItsInput : Obligations.BlockNeverWritesItsInput := by
  intro s t hbox h
  obtain ⟨hsrc, hn, hout, hrel, hinbox⟩ := blockStep_keeps_input ((step_of_inbox_nil hbox).symm.trans h)
  exact ⟨hsrc, hn, hout, hrel, hinbox.trans hbox⟩

/-! ## The bytes of a relocation entry (R68, R168) -/

theorem loByte_toNat (v : Word) : (loByte v).toNat = v.toNat % 256 := by
  simp [loByte]

theorem hiByte_toNat (v : Word) : (hiByte v).toNat = v.toNat / 256 := by
  have hv := v.isLt
  simp only [hiByte, BitVec.extractLsb'_toNat, Nat.shiftRight_eq_div_pow]
  omega

/-- The two bytes of a word, little-endian, are its value (R62, R66). -/
theorem loByte_add_hiByte (v : Word) : (loByte v).toNat + 256 * (hiByte v).toNat = v.toNat := by
  rw [loByte_toNat, hiByte_toNat]; exact Nat.mod_add_div v.toNat 256

/-- The offset of an entry is the low four bits of its value (R168). -/
theorem relocOffset_toNat (v : BitVec 20) : ((v &&& 0xF#20).setWidth 8).toNat = v.toNat % 16 := by
  have hmask : v.toNat &&& 15 = v.toNat % 16 := Nat.and_two_pow_sub_one_eq_mod v.toNat 4
  simp only [BitVec.toNat_setWidth, BitVec.toNat_and, BitVec.toNat_ofNat, Nat.reducePow, Nat.reduceMod, hmask]
  omega

/-- The segment of an entry is the sixteen bits above its offset (R168). -/
theorem relocSegment_toNat (v : BitVec 20) : ((v >>> 4).setWidth 16).toNat = v.toNat / 16 := by
  have hv := v.isLt
  simp only [BitVec.toNat_setWidth, BitVec.toNat_ushiftRight, Nat.shiftRight_eq_div_pow]
  omega

/-- Settles O44, from the offset byte and the segment word's two bytes. -/
theorem relocEntryIsLittleEndian : Obligations.RelocEntryIsLittleEndian := by
  intro v
  have hoffset := relocOffset_toNat v
  have hsegment := (loByte_add_hiByte ((v >>> 4).setWidth 16)).trans (relocSegment_toNat v)
  exact ⟨_, _, _, rfl, hoffset, hsegment, by omega⟩

end Sys2Proof.Machine
end

section
/-! PROOFS. Facts about the encodings that the statements of the family `30_encoding.md` rest on: the items a code
stream delivers and where the layout puts them, the logical images, the operands. -/

namespace Sys2Proof.Machine

/-! ## Words and control words (R62, R66, R67) -/

/-- The two bytes of a word read back as the word (R62, R66). -/
theorem le16_wordBytes (v : Word) : le16 (loByte v) (hiByte v) = v :=
  BitVec.extractLsb'_append_extractLsb' (w := 8) (len := 8)

theorem le16_toNat (lo hi : Byte) : (le16 lo hi).toNat = lo.toNat + 256 * hi.toNat := by
  rw [le16, BitVec.toNat_append, ← Nat.shiftLeft_add_eq_or_of_lt lo.isLt, Nat.shiftLeft_eq]
  omega

theorem posInit_wordBytes (w : Word) (bs : List Byte) :
    posInit (wordBytes w ++ bs) = .ok { buf := w, cnt := 16, bytes := bs } := by
  simp [posInit, wordBytes, le16_wordBytes]

/-- Filling a control word from bit `k` up, the first of the bits first (R91, R113). -/
theorem or_packBits_cons (w : Word) (k : Nat) (b : Bool) (bs : List Bool) :
    w ||| packBits (b :: bs) <<< k = w ||| packBits [b] <<< k ||| packBits bs <<< (k + 1) := by
  have hcons : packBits (b :: bs) = packBits [b] ||| packBits bs <<< 1 := by simp [packBits, BitVec.or_comm]
  rw [hcons, BitVec.shiftLeft_or_distrib, ← BitVec.shiftLeft_add, Nat.add_comm 1, BitVec.or_assoc]

/-- Bit `k` of a control word is the control bit delivered `k`-th, and 0 past them (R67). -/
theorem packBits_getLsbD (bs : List Bool) : ∀ k < 16, (packBits bs).getLsbD k = bs.getD k false := by
  induction bs with
  | nil => simp [packBits]
  | cons b bs ih =>
    intro k hk
    cases k with
    | zero => cases b <;> simp [packBits]
    | succ k =>
      have htail := ih k (by omega)
      cases b <;> simp_all [packBits]

/-- Taking a control bit delivers the first one and leaves those after it (R67, R132). -/
theorem takeBit_packBits (b : Bool) {bs : List Bool} (h : bs.length < 16) (cnt : BitVec 5) :
    takeBit (packBits (b :: bs)) cnt = (b, packBits bs, cnt - 1) := by
  have hfirst : (packBits (b :: bs)).getLsbD 0 = b := packBits_getLsbD (b :: bs) 0 (by decide)
  have hshift : packBits (b :: bs) >>> 1 = packBits bs := by
    apply BitVec.eq_of_getLsbD_eq
    intro k hk
    rw [BitVec.getLsbD_ushiftRight, packBits_getLsbD bs k hk]
    rcases Nat.lt_or_ge (1 + k) 16 with hin | hout
    · rw [packBits_getLsbD _ _ hin, Nat.add_comm, List.getD_cons_succ]
    · rw [BitVec.getLsbD_of_ge _ _ hout, List.getD_eq_default _ _ (by omega)]
  rw [takeBit, hfirst, hshift]

/-! ## The items of a code stream -/

/-- What a code stream delivers: a control bit or a raw byte (R28, R91). -/
inductive Item where
  | bit (x : Bool)
  | byte (b : Byte)

/-- The items of a token in the order read: its control bits, then its raw bytes (R141). -/
def itemsOf (i : Instr) : List Item := (controlBits i).map .bit ++ (rawBytes i).map .byte

/-- The low three bits of a `highbyte` with a count field (R94). -/
theorem highByte_count (hi5 : BitVec 5) (c : BitVec 3) : (hi5 ++ c).extractLsb' 0 3 = c :=
  BitVec.extractLsb'_append_eq_right

/-- The high five bits of a `highbyte` (R94, R95). -/
theorem highByte_high (hi5 : BitVec 5) (c : BitVec 3) : (hi5 ++ c).extractLsb' 3 5 = hi5 :=
  BitVec.extractLsb'_append_eq_left

/-- The count field of `SCOPY` is its two control bits, the first the more significant (R93, R105). -/
theorem countField_bits (c : BitVec 2) : BitVec.ofBool (c.getLsbD 1) ++ BitVec.ofBool (c.getLsbD 0) = c := by
  decide +revert

theorem ne_zero_and_ne_one_of_two_le {w : Nat} {x : BitVec w} (h : 2 ≤ x.toNat) : x ≠ 0 ∧ x ≠ 1 := by
  refine ⟨?_, ?_⟩ <;> rintro rfl
  · simp at h
  · have := Nat.mod_le 1 (2 ^ w)
    simp at h; omega

section Dispatch

variable {σ ε : Type} {bit : σ → Except ε (Bool × σ)} {byte : σ → Except ε (Byte × σ)}

/-- A code token is read from its own items, over any reader that delivers the items ahead of it; the reader is then
past them. `pos n es` is the reader after `n` control bits with the items `es` ahead. -/
theorem readCodeToken_itemsOf {pos : Nat → List Item → σ}
    (hbit : ∀ n x es, bit (pos n (.bit x :: es)) = .ok (x, pos (n + 1) es))
    (hbyte : ∀ n b es, byte (pos n (.byte b :: es)) = .ok (b, pos n es)) {i : Instr}
    (hwf : wellFormed i = true) (hst : streamOf i = .code) (n : Nat) (es : List Item) :
    readCodeToken bit byte (pos n (itemsOf i ++ es)) = .ok (i, pos (n + (controlBits i).length) es) := by
  cases i with
  | lit b => simp [itemsOf, controlBits, rawBytes, readCodeToken, hbit, hbyte]
  | scopy c db =>
    simpa [itemsOf, controlBits, rawBytes, readCodeToken, readShortCopy, hbit, hbyte] using countField_bits c
  | lcopy lo hi5 c =>
    have hc : c ≠ 0 := by simpa [wellFormed] using hwf
    simp_all [itemsOf, controlBits, rawBytes, readCodeToken, readLongCopy, highByte_count, highByte_high]
  | endCode lo hi5 =>
    simp [itemsOf, controlBits, rawBytes, readCodeToken, readLongCopy, hbit, hbyte, highByte_count, highByte_high]
  | esc lo hi5 =>
    simp [itemsOf, controlBits, rawBytes, readCodeToken, readLongCopy, hbit, hbyte, highByte_count, highByte_high]
  | lcopyx lo hi5 e =>
    obtain ⟨h0, h1⟩ := ne_zero_and_ne_one_of_two_le (by simpa [wellFormed] using hwf : 2 ≤ e.toNat)
    simp_all [itemsOf, controlBits, rawBytes, readCodeToken, readLongCopy, highByte_count, highByte_high]
  | rdb b => cases hst
  | resc => cases hst
  | rend => cases hst
  | rdw t => cases hst

/-- The last read of a code token is a raw byte (R107, R151): what every read keeps and a byte read from it
establishes holds after the token. -/
theorem readCodeToken_last_byte {I F : σ → Prop} (hbit : ∀ s b t, I s → bit s = .ok (b, t) → I t)
    (hbyte : ∀ s b t, I s → byte s = .ok (b, t) → F t) (hkeep : ∀ s, F s → I s) {s t : σ} {i : Instr}
    (hs : I s) (h : readCodeToken bit byte s = .ok (i, t)) : F t := by
  unfold readCodeToken at h
  split at h
  · cases h
  · rename_i s1 h1
    have hs1 := hbit _ _ _ hs h1
    split at h
    · cases h
    · rename_i b s2 h2
      cases h
      exact hbyte _ _ _ hs1 h2
  · rename_i s1 h1
    have hs1 := hbit _ _ _ hs h1
    split at h
    · cases h
    · rename_i s2 h2
      have hs2 := hbit _ _ _ hs1 h2
      unfold readLongCopy at h
      split at h
      · cases h
      · rename_i lo s3 h3
        split at h
        · cases h
        · rename_i hi s4 h4
          have hs4 := hbyte _ _ _ (hkeep _ (hbyte _ _ _ hs2 h3)) h4
          simp only at h
          split at h
          · cases h; exact hs4
          · split at h
            · cases h
            · rename_i x s5 h5
              have hs5 := hbyte _ _ _ (hkeep _ hs4) h5
              split_ifs at h <;> cases h <;> exact hs5
    · rename_i s2 h2
      unfold readShortCopy at h
      split at h
      · cases h
      · rename_i c1 s3 h3
        split at h
        · cases h
        · rename_i c0 s4 h4
          split at h
          · cases h
          · rename_i db s5 h5
            cases h
            exact hbyte _ _ _ (hbit _ _ _ (hbit _ _ _ (hbit _ _ _ hs1 h2) h3) h4) h5

/-- A reader decodes a token when four control bits and three raw bytes can be read (R107, R108). `has k m` says that
`k` control bits and, among them or after them, `m` raw bytes can be read. -/
theorem readCodeToken_total {has : Nat → Nat → σ → Prop}
    (hbit : ∀ k m s, has (k + 1) m s → ∃ b t, bit s = .ok (b, t) ∧ has k m t)
    (hbyte : ∀ k m s, has k (m + 1) s → ∃ b t, byte s = .ok (b, t) ∧ has k m t) {s : σ} (hs : has 4 3 s) :
    ∃ i t, readCodeToken bit byte s = .ok (i, t) := by
  obtain ⟨b1, s1, h1, hs1⟩ := hbit _ _ _ hs
  cases b1 with
  | true =>
    obtain ⟨b, s2, h2, -⟩ := hbyte _ _ _ hs1
    exact ⟨.lit b, s2, by simp only [readCodeToken, h1, h2]⟩
  | false =>
    obtain ⟨b2, s2, h2, hs2⟩ := hbit _ _ _ hs1
    cases b2 with
    | true =>
      obtain ⟨lo, s3, h3, hs3⟩ := hbyte _ _ _ hs2
      obtain ⟨hi, s4, h4, hs4⟩ := hbyte _ _ _ hs3
      obtain ⟨x, s5, h5, -⟩ := hbyte _ _ _ hs4
      simp only [readCodeToken, readLongCopy, h1, h2, h3, h4, h5]
      split_ifs <;> exact ⟨_, _, rfl⟩
    | false =>
      obtain ⟨c1, s3, h3, hs3⟩ := hbit _ _ _ hs2
      obtain ⟨c0, s4, h4, hs4⟩ := hbit _ _ _ hs3
      obtain ⟨db, s5, h5, -⟩ := hbyte _ _ _ hs4
      exact ⟨.scopy (BitVec.ofBool c1 ++ BitVec.ofBool c0) db, s5,
        by simp only [readCodeToken, readShortCopy, h1, h2, h3, h4, h5]⟩

end Dispatch

/-! ## The layout of a stream of items (R113, R136) -/

/-- What the layout puts after `k` control bits of the open slot: the bits that fill the rest of the slot, and the
bytes that follow, later slots among them. The refill is eager, so a slot opens right after a sixteenth bit. -/
def slotTail : Nat → List Item → List Bool × List Byte
  | _, [] => ([], [])
  | k, .byte b :: es => ((slotTail k es).1, b :: (slotTail k es).2)
  | k, .bit x :: es =>
    if k + 1 = 16 then ([x], wordBytes (packBits (slotTail 0 es).1) ++ (slotTail 0 es).2)
    else (x :: (slotTail (k + 1) es).1, (slotTail (k + 1) es).2)

/-- The decoder's position after `n` control bits, with the items `es` ahead and the bytes `rest` after them. -/
def posAt (rest : List Byte) (n : Nat) (es : List Item) : CodePos :=
  { buf := packBits (slotTail (n % 16) es).1, cnt := BitVec.ofNat 5 (16 - n % 16),
    bytes := (slotTail (n % 16) es).2 ++ rest }

@[simp] theorem posAt_nil_bytes (rest : List Byte) (n : Nat) : (posAt rest n []).bytes = rest := rfl

theorem posAt_cnt (rest : List Byte) (n : Nat) (es : List Item) : (posAt rest n es).cnt.toNat = 16 - n % 16 := by
  simp only [posAt, BitVec.toNat_ofNat]; omega

/-- The bits of a slot fit it. -/
theorem slotTail_bits_length (es : List Item) : ∀ k < 16, (slotTail k es).1.length + k ≤ 16 := by
  induction es with
  | nil => simp [slotTail]; omega
  | cons e es ih =>
    intro k hk
    cases e with
    | byte b => exact ih k hk
    | bit x =>
      simp only [slotTail]
      split_ifs with hfull
      · simp; omega
      · have := ih (k + 1) (by omega)
        simp; omega

theorem posByte_posAt (rest : List Byte) (n : Nat) (b : Byte) (es : List Item) :
    posByte (posAt rest n (.byte b :: es)) = .ok (b, posAt rest n es) := rfl

/-- `NEXT_BIT` delivers the bit ahead, and refills exactly where the layout opened a slot (R113, R132, R136). -/
theorem posBit_posAt (rest : List Byte) (n : Nat) (x : Bool) (es : List Item) :
    posBit (posAt rest n (.bit x :: es)) = .ok (x, posAt rest (n + 1) es) := by
  by_cases hfull : n % 16 + 1 = 16
  · have hlast : n % 16 = 15 := by omega
    have hnext : (n + 1) % 16 = 0 := by omega
    simp [posBit, posAt, slotTail, hlast, hnext, takeBit_packBits, wordBytes, le16_wordBytes]
  · have hnext : (n + 1) % 16 = n % 16 + 1 := by omega
    have hroom : (slotTail (n % 16 + 1) es).1.length < 16 := by
      have := slotTail_bits_length es (n % 16 + 1) (by omega)
      omega
    have hcnt : BitVec.ofNat 5 (16 - n % 16) - 1 = BitVec.ofNat 5 (16 - (n % 16 + 1)) := by bv_omega
    have hleft : BitVec.ofNat 5 (16 - (n % 16 + 1)) ≠ 0 := by bv_omega
    simp only [posBit, posAt, slotTail, if_neg hfull, hnext, takeBit_packBits x hroom, hcnt, if_neg hleft]

/-- A well-formed code token decodes where its items stand ahead (R91 to R95, R141). -/
theorem decodeCode_posAt {i : Instr} (hwf : wellFormed i = true) (hst : streamOf i = .code) (rest : List Byte) (n : Nat)
    (es : List Item) :
    decodeCode (posAt rest n (itemsOf i ++ es)) = .ok (i, posAt rest (n + (controlBits i).length) es) :=
  readCodeToken_itemsOf (posBit_posAt rest) (posByte_posAt rest) hwf hst n es

/-- Emit one item (R113). -/
def layoutItem (l : Layout) : Item → Layout
  | .bit x => layoutBit l x
  | .byte b => { l with after := l.after ++ [b] }

/-- Emitting raw bytes appends them after the open slot (R113). -/
theorem foldl_layoutItem_bytes (bs : List Byte) : ∀ l : Layout,
    (bs.map Item.byte).foldl layoutItem l = { l with after := l.after ++ bs } := by
  induction bs with
  | nil => simp
  | cons b bs ih => intro l; simp [layoutItem, ih]

/-- Emitting a token is emitting its items (R113). -/
theorem layoutToken_eq (l : Layout) (i : Instr) : layoutToken l i = (itemsOf i).foldl layoutItem l := by
  have hbits : ((controlBits i).map Item.bit).foldl layoutItem l = (controlBits i).foldl layoutBit l :=
    List.foldl_map
  rw [itemsOf, List.foldl_append, hbits, foldl_layoutItem_bytes, layoutToken]

theorem foldl_layoutToken (is : List Instr) (l : Layout) :
    is.foldl layoutToken l = (is.flatMap itemsOf).foldl layoutItem l := by
  simp only [List.foldl_flatMap, ← layoutToken_eq]

/-- The sixteenth control bit closes the slot (R113). -/
theorem layoutBit_closing (l : Layout) (x : Bool) (h : l.k + 1 = 16) :
    layoutBit l x =
      { before := l.before ++ wordBytes (l.w ||| packBits [x] <<< l.k) ++ l.after, after := [], w := 0, k := 0 } := by
  simp [layoutBit, packBits, h]

/-- A control bit before the sixteenth goes into the open slot (R113). -/
theorem layoutBit_open (l : Layout) (x : Bool) (h : l.k + 1 ≠ 16) :
    layoutBit l x = { l with w := l.w ||| packBits [x] <<< l.k, k := l.k + 1 } := by
  simp [layoutBit, packBits, h]

/-- The finished layout: the open slot gets the bits that still fill it, and `slotTail` is what follows. -/
theorem layoutFinish_foldl (es : List Item) : ∀ l : Layout,
    layoutFinish (es.foldl layoutItem l) =
      l.before ++ wordBytes (l.w ||| packBits (slotTail l.k es).1 <<< l.k) ++ l.after ++ (slotTail l.k es).2 := by
  induction es with
  | nil => simp [slotTail, packBits, layoutFinish]
  | cons e es ih =>
    intro l
    cases e with
    | byte b => simp [ih, layoutItem, slotTail]
    | bit x =>
      rw [List.foldl_cons, ih, layoutItem, slotTail]
      split_ifs with hfull
      · simp [layoutBit_closing l x hfull]
      · have hword := or_packBits_cons l.w l.k x (slotTail (l.k + 1) es).1
        simp only [layoutBit_open l x hfull, hword]

/-- The payload of a code stream is its first control word, then what `slotTail` says follows (R113). -/
theorem layoutCode_eq (is : List Instr) :
    layoutCode is = wordBytes (packBits (slotTail 0 (is.flatMap itemsOf)).1) ++ (slotTail 0 (is.flatMap itemsOf)).2 := by
  simp [layoutCode, foldl_layoutToken, layoutFinish_foldl, layoutStart]

/-- `BRD.INIT` on the payload of a code stream stands before all its items (R113, R131). -/
theorem posInit_layoutCode (is : List Instr) (rest : List Byte) :
    posInit (layoutCode is ++ rest) = .ok (posAt rest 0 (is.flatMap itemsOf)) := by
  rw [layoutCode_eq, List.append_assoc, posInit_wordBytes]; rfl

/-- The decoder's loop over the items of a stream ended by its terminator (R140, R153). -/
theorem decodeCodeAll_posAt (rest : List Byte) {last : Instr} (hlast : wellFormed last = true ∧ streamOf last = .code)
    (hend : isTerminator last = true) (is : List Instr) : ∀ n : Nat,
    (∀ i ∈ is, wellFormed i = true ∧ streamOf i = .code ∧ isTerminator i = false) →
    ∃ m, decodeCodeAll (is.length + 1) (posAt rest n ((is ++ [last]).flatMap itemsOf)) =
      .ok (is ++ [last], posAt rest m []) := by
  obtain ⟨hwf, hst⟩ := hlast
  induction is with
  | nil =>
    intro n _
    have hdec := decodeCode_posAt hwf hst rest n []
    exact ⟨n + (controlBits last).length, by simp_all [decodeCodeAll]⟩
  | cons i is ih =>
    intro n hall
    obtain ⟨hwfi, hsti, hgo⟩ := hall i List.mem_cons_self
    have hdec := decodeCode_posAt hwfi hsti rest n ((is ++ [last]).flatMap itemsOf)
    obtain ⟨m, hm⟩ := ih (n + (controlBits i).length) fun j hj => hall j (List.mem_cons_of_mem i hj)
    exact ⟨m, by simp_all [decodeCodeAll]⟩

/-- Settles O4: `BRD.INIT` on the layout stands before the stream's items, and the loop reads them all. -/
theorem codeLayoutDecodesToItsTokens : Obligations.CodeLayoutDecodesToItsTokens := by
  intro is lo hi5 rest hall
  obtain ⟨m, hm⟩ := decodeCodeAll_posAt rest (last := .endCode lo hi5) ⟨rfl, rfl⟩ rfl is 0 hall
  exact ⟨_, _, posInit_layoutCode _ rest, hm, posAt_nil_bytes rest m⟩

/-- A token fills part of one slot, which it starts. -/
theorem slotTail_itemsOf (i : Instr) : slotTail 0 (itemsOf i) = (controlBits i, rawBytes i) := by
  cases i <;> rfl

/-- A code token standing alone is the layout of the stream of that one token (R91, R113). -/
theorem encode_eq_layoutCode {i : Instr} (hst : streamOf i = .code) : encode i = layoutCode [i] := by
  rw [layoutCode_eq, List.flatMap_singleton, slotTail_itemsOf, encode, hst]

/-- Settles O2: a token alone in its control word is a layout of one token, and no refill falls due in it. -/
theorem codeTokenRoundTrip : Obligations.CodeTokenRoundTrip := by
  intro i rest hwf hst
  have hinit : posInit (encode i ++ rest) = .ok (posAt rest 0 (itemsOf i ++ [])) := by
    rw [encode_eq_layoutCode hst, posInit_layoutCode, List.flatMap_singleton, List.append_nil]
  refine ⟨_, _, hinit, decodeCode_posAt hwf hst rest 0 [], rfl, ?_⟩
  have hshort : (controlBits i).length ≤ 4 := by cases i <;> simp [controlBits]
  rw [posAt_cnt]; omega

end Sys2Proof.Machine
end

section
/-! PROOFS. The remaining statements of the family `30_encoding.md`: relocation tokens, totality of decoding, the logical
images, the operands, the header's fields. -/

namespace Sys2Proof.Machine

/-! ## Relocation tokens (R96, R97) -/

theorem listWord_wordBytes (w : Word) (bs : List Byte) : listWord (loByte w :: hiByte w :: bs) = .ok (w, bs) := by
  rw [listWord, le16_wordBytes]

/-- Settles O3, by the kind of the token. -/
theorem relocTokenRoundTrip : Obligations.RelocTokenRoundTrip := by
  intro i rest hwf hst
  cases i with
  | rdb b =>
    have hb : b ≠ 0 := by simpa [wellFormed] using hwf
    simp [encode, streamOf, rawBytes, decodeReloc, readRelocToken, listByte, show b ≠ 0#8 from hb]
  | resc => rfl
  | rend => rfl
  | rdw t =>
    obtain ⟨h0, h1⟩ := ne_zero_and_ne_one_of_two_le (by simpa [wellFormed] using hwf : 2 ≤ t.toNat)
    simp_all [encode, streamOf, rawBytes, decodeReloc, readRelocToken, listByte, listWord_wordBytes]
  | lit b => cases hst
  | scopy c db => cases hst
  | lcopy lo hi5 c => cases hst
  | endCode lo hi5 => cases hst
  | esc lo hi5 => cases hst
  | lcopyx lo hi5 e => cases hst

/-- The raw bytes of a relocation token decode to it (R90, R96, R97). -/
theorem decodeReloc_rawBytes {i : Instr} (hwf : wellFormed i = true) (hst : streamOf i = .reloc) (rest : List Byte) :
    decodeReloc (rawBytes i ++ rest) = .ok (i, rest) := by
  have h := relocTokenRoundTrip i rest hwf hst
  simpa only [encode, hst] using h

/-- Settles O5, by induction on the tokens before `REND`. -/
theorem relocLayoutDecodesToItsTokens : Obligations.RelocLayoutDecodesToItsTokens := by
  intro is rest
  induction is with
  | nil => intro _; rfl
  | cons i is ih =>
    intro hall
    obtain ⟨hwf, hst, hgo⟩ := hall i List.mem_cons_self
    have hdec := decodeReloc_rawBytes hwf hst (layoutReloc (is ++ [.rend]) ++ rest)
    have htail := ih fun j hj => hall j (List.mem_cons_of_mem i hj)
    simp_all [decodeRelocAll, layoutReloc]

/-! ## Decoding is total, and its tokens are well formed (R107, R108) -/

/-- In the next `k` control bits and `m` raw bytes the position does not run out of bytes: it holds the raw bytes, and
two more where a refill falls due within those bits (R136). -/
def enoughAhead (k m : Nat) (p : CodePos) : Prop :=
  k ≤ 4 ∧ m + (if 1 ≤ p.cnt.toNat ∧ p.cnt.toNat ≤ k then 2 else 0) ≤ p.bytes.length

/-- `NEXT_BIT` where no refill falls due (R132). -/
theorem posBit_shift (p : CodePos) (h : p.cnt ≠ 1) :
    posBit p = .ok (p.buf.getLsbD 0, { p with buf := p.buf >>> 1, cnt := p.cnt - 1 }) := by
  have hleft : p.cnt - 1 ≠ 0 := by bv_omega
  simp only [posBit, takeBit]
  exact if_neg hleft

/-- `NEXT_BIT` where a refill falls due and two bytes are left (R132, R136). -/
theorem posBit_refill (buf : Word) (lo hi : Byte) (rest : List Byte) :
    posBit { buf := buf, cnt := 1, bytes := lo :: hi :: rest } =
      .ok (buf.getLsbD 0, { buf := le16 lo hi, cnt := 16, bytes := rest }) := by
  simp [posBit, takeBit]

theorem enoughAhead_posBit {k m : Nat} {p : CodePos} (h : enoughAhead (k + 1) m p) :
    ∃ b q, posBit p = .ok (b, q) ∧ enoughAhead k m q := by
  obtain ⟨hk, hlen⟩ := h
  by_cases hdue : p.cnt = 1
  · obtain ⟨buf, cnt, bytes⟩ := p
    subst hdue
    match bytes, hlen with
    | lo :: hi :: rest, hlen =>
      refine ⟨_, _, posBit_refill buf lo hi rest, by omega, ?_⟩
      simp at hlen ⊢
      split_ifs <;> omega
    | [_], hlen => simp at hlen
    | [], hlen => simp at hlen
  · refine ⟨_, _, posBit_shift p hdue, by omega, ?_⟩
    have hcnt : p.cnt.toNat = 0 ∧ (p.cnt - 1).toNat = 31 ∨ 2 ≤ p.cnt.toNat ∧ (p.cnt - 1).toNat + 1 = p.cnt.toNat := by
      bv_omega
    simp only
    split_ifs at hlen ⊢ <;> omega

theorem enoughAhead_posByte {k m : Nat} {p : CodePos} (h : enoughAhead k (m + 1) p) :
    ∃ b q, posByte p = .ok (b, q) ∧ enoughAhead k m q := by
  obtain ⟨buf, cnt, bytes⟩ := p
  obtain ⟨hk, hlen⟩ := h
  cases bytes with
  | nil => simp at hlen
  | cons b rest =>
    refine ⟨b, ⟨buf, cnt, rest⟩, rfl, hk, ?_⟩
    simp only [List.length_cons] at hlen ⊢
    omega

/-- Settles O6: five bytes are enough for four control bits, of which one at most refills, and three raw bytes. -/
theorem noEncodingIsIllegal : Obligations.NoEncodingIsIllegal := by
  refine ⟨fun p hp => ?_, fun bs hbs => ?_⟩
  · have hstart : enoughAhead 4 3 p := ⟨le_refl 4, by split_ifs <;> omega⟩
    exact readCodeToken_total (fun _ _ _ => enoughAhead_posBit) (fun _ _ _ => enoughAhead_posByte) hstart
  · match bs, hbs with
    | b :: lo :: hi :: rest, _ =>
      simp only [decodeReloc, readRelocToken, listByte, listWord]
      split_ifs <;> exact ⟨_, _, rfl⟩

theorem posBit_bytes_le {p q : CodePos} {b : Bool} (h : posBit p = .ok (b, q)) :
    q.bytes.length ≤ p.bytes.length := by
  by_cases hdue : p.cnt = 1
  · obtain ⟨buf, cnt, bytes⟩ := p
    subst hdue
    match bytes with
    | lo :: hi :: rest => rw [posBit_refill] at h; cases h; simp only [List.length_cons]; omega
    | [_] => simp [posBit, takeBit] at h
    | [] => simp [posBit, takeBit] at h
  · rw [posBit_shift p hdue] at h
    cases h; exact le_refl _

theorem posByte_bytes_length {p q : CodePos} {b : Byte} (h : posByte p = .ok (b, q)) :
    q.bytes.length + 1 = p.bytes.length := by
  obtain ⟨buf, cnt, bytes⟩ := p
  cases bytes <;> cases h
  rfl

theorem listByte_length {bs rest : List Byte} {b : Byte} (h : listByte bs = .ok (b, rest)) :
    rest.length + 1 ≤ bs.length := by
  cases bs <;> cases h
  rfl

theorem listWord_length {bs rest : List Byte} {w : Word} (h : listWord bs = .ok (w, rest)) :
    rest.length + 1 ≤ bs.length := by
  match bs, h with
  | lo :: hi :: _, h => cases h; simp

/-- Settles O7: the last read of a code token is a byte, and every read of a relocation token takes one at least. -/
theorem decodedTokensAreWellFormed : Obligations.DecodedTokensAreWellFormed := by
  refine ⟨fun p i q h => ?_, fun bs i rest h => ?_⟩
  · obtain ⟨-, hst, hwf⟩ := readCodeToken_ok (P := fun _ _ => True) (fun _ _ _ _ _ => trivial) (fun _ _ _ _ => trivial)
      (fun _ _ _ _ => trivial) h
    have hbytes : q.bytes.length + 1 ≤ p.bytes.length :=
      readCodeToken_last_byte (I := fun s => s.bytes.length ≤ p.bytes.length)
        (fun _ _ _ hs hb => (posBit_bytes_le hb).trans hs) (fun _ _ _ hs hb => (posByte_bytes_length hb).trans_le hs)
        (fun _ hs => Nat.le_of_succ_le hs) (le_refl p.bytes.length) h
    exact ⟨hwf, hst, hbytes⟩
  · obtain ⟨hlen, hst, hwf⟩ := readRelocToken_ok (P := fun a b : List Byte => b.length + 1 ≤ a.length)
      (fun _ _ _ hab hbc => by omega) (fun _ _ _ => listByte_length) (fun _ _ _ => listWord_length) h
    exact ⟨hwf, hst, hlen⟩

/-! ## Operands (R101 to R106) -/

/-- The pattern of a long distance is three set bits, `highbyte[7:3]` and `lowbyte` (R101). -/
theorem longPattern_eq_append (lo hi : Byte) : longPattern lo hi = 7#3 ++ (hi.extractLsb' 3 5 ++ lo) := by
  apply BitVec.eq_of_getLsbD_eq
  intro k hk
  simp only [longPattern, BitVec.getLsbD_or, BitVec.getLsbD_and, BitVec.getLsbD_append]
  interval_cases k <;> simp

theorem append_toNat {m : Nat} (x : BitVec m) {n : Nat} (y : BitVec n) :
    (x ++ y).toNat = x.toNat * 2 ^ n + y.toNat := by
  rw [BitVec.toNat_append, ← Nat.shiftLeft_add_eq_or_of_lt y.isLt, Nat.shiftLeft_eq]

theorem longPattern_toNat (lo hi : Byte) :
    (longPattern lo hi).toNat = 0xE000 + 256 * (hi.extractLsb' 3 5).toNat + lo.toNat := by
  rw [longPattern_eq_append, append_toNat, append_toNat]
  simp; omega

/-- The long distance in closed form (R101). -/
theorem longDistance_eq (lo hi : Byte) :
    longDistance lo hi = -8192 + 256 * ((hi.extractLsb' 3 5).toNat : Int) + (lo.toNat : Int) := by
  have hpat := longPattern_toNat lo hi
  rw [longDistance, sext16, BitVec.toInt_eq_toNat_cond]
  omega

theorem longDistance_range (lo hi : Byte) : -8192 ≤ longDistance lo hi ∧ longDistance lo hi ≤ -1 := by
  have hlo := lo.isLt
  have hhi := (hi.extractLsb' 3 5).isLt
  rw [longDistance_eq]
  omega

/-- Settles O9, from the three parts of the pattern. -/
theorem longDistanceOfItsBytes : Obligations.LongDistanceOfItsBytes := by
  intro lo hi
  have hpat := longPattern_toNat lo hi
  have hdist := longDistance_eq lo hi
  refine ⟨?_, ?_, ?_, by omega, hdist, longDistance_range lo hi⟩
  · rw [longPattern_eq_append]; exact BitVec.extractLsb'_append_eq_left
  · rw [longPattern_eq_append, BitVec.extractLsb'_append_eq_of_add_le (by decide)]
    exact BitVec.extractLsb'_append_eq_left
  · rw [longPattern_eq_append, BitVec.extractLsb'_append_eq_of_add_le (by decide)]
    exact BitVec.extractLsb'_append_eq_right

/-- The short distance in closed form (R104). -/
theorem shortDistance_eq (db : Byte) : shortDistance db = (db.toNat : Int) - 256 := by
  have hnat : (0xFF00#16 + db.setWidth 16).toNat = 0xFF00 + db.toNat := by bv_omega
  rw [shortDistance, sext16, BitVec.toInt_eq_toNat_cond, hnat]
  omega

/-- The long count is `highbyte[2:0]` plus 2 (R102). -/
theorem longCount_eq (hi : Byte) : longCount hi = (hi.extractLsb' 0 3).toNat + 2 := by
  have hmask : hi.toNat &&& 7 = hi.toNat % 8 := Nat.and_two_pow_sub_one_eq_mod hi.toNat 3
  simp [longCount, hmask]

/-- Settles O10, from the closed forms of the operands. -/
theorem countsDistancesAndDeltas : Obligations.CountsDistancesAndDeltas := by
  refine ⟨fun hi => ⟨longCount_eq hi, fun hc => ?_⟩, fun db => ⟨shortDistance_eq db, ?_⟩, le16_toNat, fun _ => rfl⟩
  · have hlt := (hi.extractLsb' 0 3).isLt
    have hpos : (hi.extractLsb' 0 3).toNat ≠ 0 := fun h0 => hc (BitVec.eq_of_toNat_eq h0)
    rw [longCount_eq]; omega
  · have hlt := db.isLt
    rw [shortDistance_eq]; omega

end Sys2Proof.Machine
end

section
/-! PROOFS. The logical images of the family `30_encoding.md`, the words of the opcode table, the pseudo-instruction
`COPY`, the header's fields. -/

namespace Sys2Proof.Machine

/-! ## Logical images (R90, R111) -/

/-- Control bits put below a number, the first one the most significant (R90). -/
def bitsOnto (a : Nat) (bs : List Bool) : Nat := bs.foldl (fun acc b => 2 * acc + b.toNat) a

/-- Raw bytes put below a number, the first one the most significant (R90). -/
def bytesOnto (a : Nat) (bs : List Byte) : Nat := bs.foldl (fun acc b => 256 * acc + b.toNat) a

theorem imageNat_eq (i : Instr) : imageNat i = bytesOnto (bitsOnto 0 (controlBits i)) (rawBytes i) := rfl

@[simp] theorem bytesOnto_nil (a : Nat) : bytesOnto a [] = a := rfl

@[simp] theorem bytesOnto_cons (a : Nat) (b : Byte) (bs : List Byte) :
    bytesOnto a (b :: bs) = bytesOnto (256 * a + b.toNat) bs := rfl

@[simp] theorem bitsOnto_cons (a : Nat) (b : Bool) (bs : List Bool) :
    bitsOnto a (b :: bs) = bitsOnto (2 * a + b.toNat) bs := rfl

theorem bitsOnto_shiftRight (bs : List Bool) : ∀ a : Nat, bitsOnto a bs >>> bs.length = a := by
  induction bs with
  | nil => intro a; rfl
  | cons b bs ih =>
    intro a
    have hb : b.toNat < 2 := b.toNat_lt
    rw [bitsOnto_cons, List.length_cons, Nat.shiftRight_succ, ih]
    omega

theorem bytesOnto_shiftRight (bs : List Byte) : ∀ a : Nat, bytesOnto a bs >>> (8 * bs.length) = a := by
  induction bs with
  | nil => intro a; rfl
  | cons b bs ih =>
    intro a
    have hb := b.isLt
    rw [bytesOnto_cons, List.length_cons, Nat.mul_add, Nat.shiftRight_add, ih, Nat.shiftRight_eq_div_pow]
    omega

/-- The raw bytes are read back from below the number they were put below. -/
theorem tableRaw_bytesOnto (bs : List Byte) : ∀ a : Nat, tableRaw (bytesOnto a bs) bs.length = bs := by
  induction bs with
  | nil => intro a; rfl
  | cons b bs ih =>
    intro a
    have hb := b.isLt
    have hbyte : BitVec.ofNat 8 (256 * a + b.toNat) = b := by
      apply BitVec.eq_of_toNat_eq
      rw [BitVec.toNat_ofNat]; omega
    rw [List.length_cons, tableRaw, bytesOnto_cons, ih, tableByte, bytesOnto_shiftRight, hbyte]

/-- The control bits of an image do not depend on the raw bytes below them. -/
theorem tableControl_shiftRight (w m k : Nat) : tableControl w m k = tableControl (w >>> (8 * m)) 0 k := by
  induction k with
  | zero => rfl
  | succ k ih => simp [tableControl, tableBit, Nat.testBit_shiftRight, ih]

/-- The control bits are read back from below the number they were put below. -/
theorem tableControl_bitsOnto (bs : List Bool) : ∀ a : Nat, tableControl (bitsOnto a bs) 0 bs.length = bs := by
  induction bs with
  | nil => intro a; rfl
  | cons b bs ih =>
    intro a
    have hbit : (bitsOnto (2 * a + b.toNat) bs).testBit bs.length = b := calc
      _ = (bitsOnto (2 * a + b.toNat) bs >>> bs.length).testBit 0 := by rw [Nat.testBit_shiftRight, Nat.add_zero]
      _ = (2 * a + b.toNat).testBit 0 := by rw [bitsOnto_shiftRight]
      _ = b := by cases b <;> simp [Nat.testBit_zero]
    rw [bitsOnto_cons, List.length_cons, tableControl, ih, tableBit, Nat.mul_zero, Nat.zero_add, hbit]

/-- The raw bytes of a token stand in its image (R90). -/
theorem tableRaw_imageNat (i : Instr) : tableRaw (imageNat i) (rawBytes i).length = rawBytes i :=
  tableRaw_bytesOnto (rawBytes i) _

/-- The control bits of a token stand in its image, above the raw bytes (R90). -/
theorem tableControl_imageNat (i : Instr) :
    tableControl (imageNat i) (rawBytes i).length (controlBits i).length = controlBits i := by
  rw [tableControl_shiftRight, imageNat_eq, bytesOnto_shiftRight, tableControl_bitsOnto]

/-- An image fits its width (R90, R111). -/
theorem imageNat_lt (i : Instr) : imageNat i < 2 ^ imageWidth i := by
  have hzero : imageNat i / 2 ^ imageWidth i = 0 := by
    rw [imageWidth, Nat.add_comm, ← Nat.shiftRight_eq_div_pow, Nat.shiftRight_add, imageNat_eq, bytesOnto_shiftRight,
      bitsOnto_shiftRight]
  exact (Nat.div_eq_zero_iff_lt (Nat.two_pow_pos _)).1 hzero

theorem imageWidth_eq (i : Instr) : imageWidth i = (tableRow i).width := by
  cases i <;> rfl

/-- A mask over raw bytes and the bits above them acts on each byte and on those bits. -/
theorem bytesOnto_land : ∀ (bs ms : List Byte) (a m : Nat), bs.length = ms.length →
    bytesOnto a bs &&& bytesOnto m ms = bytesOnto (a &&& m) (List.zipWith (· &&& ·) bs ms)
  | [], [], _, _, _ => rfl
  | b :: bs, x :: ms, a, m, h => by
    have hland : (256 * a + b.toNat) &&& (256 * m + x.toNat) = 256 * (a &&& m) + (b &&& x).toNat := by
      apply Nat.eq_of_testBit_eq
      intro j
      rw [BitVec.toNat_and, Nat.testBit_and, Nat.testBit_two_pow_mul_add a b.isLt, Nat.testBit_two_pow_mul_add m x.isLt,
        Nat.testBit_two_pow_mul_add (a &&& m) (Nat.and_lt_two_pow _ x.isLt)]
      split_ifs <;> rw [Nat.testBit_and]
    rw [bytesOnto_cons, bytesOnto_cons, bytesOnto_land bs ms _ _ (Nat.succ.inj h), hland]
    rfl

/-- The mask of a row of the opcode table, by the part of the image it acts on: the control bits, the raw bytes
(R111). -/
def rowMask : Instr → Nat × List Byte
  | .lit _ => (1, [0])
  | .scopy _ _ => (12, [0])
  | .lcopy _ _ _ => (3, [0, 0])
  | .endCode _ _ => (3, [0, 7, 0xFF])
  | .esc _ _ => (3, [0, 7, 0xFF])
  | .lcopyx _ _ _ => (3, [0, 7, 0])
  | .rdb _ => (0, [0])
  | .resc => (0, [0xFF, 0xFF, 0xFF])
  | .rend => (0, [0xFF, 0xFF, 0xFF])
  | .rdw _ => (0, [0xFF, 0, 0])

theorem tableRow_mask (i : Instr) : (tableRow i).mask = bytesOnto (rowMask i).1 (rowMask i).2 := by
  cases i <;> simp [tableRow, rowMask]

/-- The bits of a `highbyte` that END, ESC and LCOPYX fix are 0 (R95). -/
theorem highByte_land_seven (hi5 : BitVec 5) : (hi5 ++ 0#3).toNat &&& 7 = 0 := by
  decide +revert

/-- The image of a token is its row's `match` under its row's `mask` (R111). -/
theorem imageNat_land_mask (i : Instr) : imageNat i &&& (tableRow i).mask = (tableRow i).opcode := by
  have hlen : (rawBytes i).length = (rowMask i).2.length := by cases i <;> rfl
  rw [tableRow_mask, imageNat_eq, bytesOnto_land _ _ _ _ hlen]
  cases i with
  | scopy c db =>
    have hbits : bitsOnto 0 (controlBits (.scopy c db)) &&& 12 = 0 := by
      rw [controlBits]; decide +revert
    simp [hbits, rowMask, rawBytes, tableRow]
  | endCode lo hi5 => simp [highByte_land_seven, controlBits, bitsOnto, rowMask, rawBytes, tableRow]
  | esc lo hi5 => simp [highByte_land_seven, controlBits, bitsOnto, rowMask, rawBytes, tableRow]
  | lcopyx lo hi5 e => simp [highByte_land_seven, controlBits, bitsOnto, rowMask, rawBytes, tableRow]
  | _ => simp [controlBits, bitsOnto, rowMask, rawBytes, tableRow]

/-- A word of the table as wide as a code token's row is that many control bits and raw bytes (R111). -/
theorem tableImage_code {i : Instr} (hst : streamOf i = .code) (w : Nat) :
    tableImage (tableRow i).width w = tableCode (controlBits i).length (rawBytes i).length w := by
  cases i with
  | rdb b => cases hst
  | resc => cases hst
  | rend => cases hst
  | rdw t => cases hst
  | _ => rfl

/-- A word of 24 bits whose top byte is 0 is three raw bytes of the relocation stream (log entry 16). -/
theorem tableImage_low_24 {w : Nat} (h : w / 65536 = 0) : tableImage 24 w = tableReloc 3 w := if_pos h

theorem controlBits_reloc {i : Instr} (hst : streamOf i = .reloc) : controlBits i = [] := by
  cases i <;> simp_all [streamOf, controlBits]

/-- A word of the table as wide as a relocation token's row, made of its raw bytes (R111). -/
theorem tableImage_reloc {i : Instr} (hst : streamOf i = .reloc) :
    tableImage (tableRow i).width (imageNat i) = tableReloc (rawBytes i).length (imageNat i) := by
  cases i with
  | rdb b => rfl
  | resc => exact tableImage_low_24 rfl
  | rend => exact tableImage_low_24 rfl
  | rdw t =>
    have hlo := (loByte t).isLt
    have hhi := (hiByte t).isLt
    refine tableImage_low_24 ?_
    simp only [imageNat_eq, bitsOnto, controlBits, rawBytes, List.foldl_nil, bytesOnto_cons, bytesOnto_nil]
    simp; omega
  | lit b => cases hst
  | scopy c db => cases hst
  | lcopy lo hi5 c => cases hst
  | endCode lo hi5 => cases hst
  | esc lo hi5 => cases hst
  | lcopyx lo hi5 e => cases hst

/-- The image of a code token, as a word of its row's width, is its control word and its raw bytes (R91, R111). -/
theorem tableImage_imageNat_code {i : Instr} (hst : streamOf i = .code) :
    tableImage (tableRow i).width (imageNat i) =
      some (.code (packBits (controlBits i)) (rawBytes i ++ List.replicate (3 - (rawBytes i).length) 0)) := by
  have hlt : imageNat i < 2 ^ ((controlBits i).length + 8 * (rawBytes i).length) := imageNat_lt i
  rw [tableImage_code hst, tableCode, if_pos hlt, tableControl_imageNat, tableRaw_imageNat]

/-- The image of a relocation token, as a word of its row's width, is its raw bytes (R90, R111). -/
theorem tableImage_imageNat_reloc {i : Instr} (hst : streamOf i = .reloc) :
    tableImage (tableRow i).width (imageNat i) =
      some (.reloc (rawBytes i ++ List.replicate (3 - (rawBytes i).length) 0)) := by
  have hlt : imageNat i < 2 ^ (8 * (rawBytes i).length) := by
    simpa only [imageWidth, controlBits_reloc hst, List.length_nil, Nat.zero_add] using imageNat_lt i
  rw [tableImage_reloc hst, tableReloc, if_pos hlt, tableRaw_imageNat]

/-- A code token decodes from its own control word and raw bytes, whatever bytes follow (R91). -/
theorem decodeCode_alone {i : Instr} (hwf : wellFormed i = true) (hst : streamOf i = .code) (rest : List Byte) :
    ∃ q, decodeCode { buf := packBits (controlBits i), cnt := 16, bytes := rawBytes i ++ rest } = .ok (i, q) := by
  obtain ⟨p, q, hinit, hdec, -⟩ := codeTokenRoundTrip i rest hwf hst
  rw [encode, hst, List.append_assoc, posInit_wordBytes] at hinit
  cases hinit
  exact ⟨q, hdec⟩

/-- The image of a well-formed token, as a word of its row's width, decodes to the token (R90, R111). -/
theorem decodeTableWord_imageNat {i : Instr} (hwf : wellFormed i = true) :
    decodeTableWord (tableRow i).width (imageNat i) = some i := by
  cases hst : streamOf i with
  | code =>
    obtain ⟨q, hdec⟩ := decodeCode_alone hwf hst (List.replicate (3 - (rawBytes i).length) 0)
    simp only [decodeTableWord, tableImage_imageNat_code hst, hdec]
  | reloc =>
    simp only [decodeTableWord, tableImage_imageNat_reloc hst, decodeReloc_rawBytes hwf hst]

/-- Settles O8, from the image's width, its mask and its reading as a table word. -/
theorem imagesMatchTheOpcodeTable : Obligations.ImagesMatchTheOpcodeTable := fun i =>
  ⟨imageWidth_eq i, imageWidth_eq i ▸ imageNat_lt i, imageNat_land_mask i, decodeTableWord_imageNat⟩

/-- Settles O1, each word being the image of its token. -/
theorem tableWordsDecodeToTheirTokens : Obligations.TableWordsDecodeToTheirTokens :=
  ⟨decodeTableWord_imageNat (i := .lit 0x41) rfl, decodeTableWord_imageNat (i := .scopy 2 0xFD) rfl,
    decodeTableWord_imageNat (i := .lcopy 0xFE 31 6) rfl, decodeTableWord_imageNat (i := .endCode 0x99 31) rfl,
    decodeTableWord_imageNat (i := .esc 0x12 7) rfl, decodeTableWord_imageNat (i := .lcopyx 0xFF 31 0xFF) rfl,
    decodeTableWord_imageNat (i := .rdb 5) rfl, decodeTableWord_imageNat (i := .resc) rfl,
    decodeTableWord_imageNat (i := .rend) rfl, decodeTableWord_imageNat (i := .rdw 0x1234) rfl⟩

/-! ## The pseudo-instruction `COPY` (R112, R114) -/

/-- `SCOPY d, n` spells its own distance and count (R112). -/
theorem asmScopy_some {d : Int} {n : Nat} {i : Instr} (h : asmScopy d n = some i) :
    wellFormed i = true ∧ copyOperands i = some (d, n) := by
  unfold asmScopy at h
  split at h
  · rename_i hin
    cases h
    refine ⟨rfl, ?_⟩
    rw [copyOperands, shortDistance_eq, shortCount]
    simp
    omega
  · cases h

/-- The bytes that `LCOPY d, n` and `LCOPYX d, n` give the distance `d` (R101, R112). -/
theorem longDistance_of_operand {d : Int} (hlow : -8192 ≤ d) (hneg : d ≤ -1) (c : BitVec 3) :
    longDistance (BitVec.ofNat 8 ((d + 8192).toNat % 256)) (highByte (BitVec.ofNat 5 ((d + 8192).toNat / 256)) c) = d := by
  rw [longDistance_eq, highByte, highByte_high, BitVec.toNat_ofNat, BitVec.toNat_ofNat]
  omega

/-- `LCOPY d, n` spells its own distance and count (R112). -/
theorem asmLcopy_some {d : Int} {n : Nat} {i : Instr} (h : asmLcopy d n = some i) :
    wellFormed i = true ∧ copyOperands i = some (d, n) := by
  unfold asmLcopy at h
  split at h
  · rename_i hin
    obtain ⟨hlow, hneg, hn3, hn9⟩ := hin
    cases h
    have hcount : (BitVec.ofNat 3 (n - 2)).toNat = n - 2 := by rw [BitVec.toNat_ofNat]; omega
    refine ⟨?_, ?_⟩
    · have hne : BitVec.ofNat 3 (n - 2) ≠ 0 := fun h0 => by rw [h0] at hcount; simp at hcount; omega
      simpa [wellFormed] using hne
    · rw [copyOperands, longDistance_of_operand hlow hneg, longCount_eq, highByte, highByte_count, hcount,
        Nat.sub_add_cancel (by omega)]
  · cases h

/-- `LCOPYX d, n` spells its own distance and count (R112). -/
theorem asmLcopyx_some {d : Int} {n : Nat} {i : Instr} (h : asmLcopyx d n = some i) :
    wellFormed i = true ∧ copyOperands i = some (d, n) := by
  unfold asmLcopyx at h
  split at h
  · rename_i hin
    obtain ⟨hlow, hneg, hn3, hn256⟩ := hin
    cases h
    have hcount : (BitVec.ofNat 8 (n - 1)).toNat = n - 1 := by rw [BitVec.toNat_ofNat]; omega
    refine ⟨?_, ?_⟩
    · rw [wellFormed, hcount, decide_eq_true_eq]; omega
    · rw [copyOperands, longDistance_of_operand hlow hneg, extendedCount, hcount, Nat.sub_add_cancel (by omega)]
  · cases h

/-- The distances and counts of the well-formed copy tokens (R101 to R105). -/
theorem copyOperands_range {i : Instr} {d : Int} {n : Nat} (hwf : wellFormed i = true)
    (h : copyOperands i = some (d, n)) : -256 ≤ d ∧ n ≤ 5 ∨ -8192 ≤ d ∧ 3 ≤ n ∧ n ≤ 256 := by
  cases i with
  | scopy c db =>
    cases h
    have hc := c.isLt
    rw [shortDistance_eq, shortCount]
    omega
  | lcopy lo hi5 c =>
    cases h
    have hd := longDistance_range lo (highByte hi5 c)
    have hc := c.isLt
    have hpos : c.toNat ≠ 0 := fun h0 => (by simpa [wellFormed] using hwf : c ≠ 0) (BitVec.eq_of_toNat_eq h0)
    rw [longCount_eq, highByte, highByte_count] at *
    omega
  | lcopyx lo hi5 e =>
    cases h
    have hd := longDistance_range lo (highByte hi5 0)
    have he := e.isLt
    have hwide : 2 ≤ e.toNat := by simpa [wellFormed] using hwf
    rw [extendedCount]
    omega
  | lit b => cases h
  | endCode lo hi5 => cases h
  | esc lo hi5 => cases h
  | rdb b => cases h
  | resc => cases h
  | rend => cases h
  | rdw t => cases h

/-- `COPY d, n` spells its own distance and count (R114). -/
theorem asmCopy_some {d : Int} {n : Nat} {i : Instr} (h : asmCopy d n = some i) :
    wellFormed i = true ∧ copyOperands i = some (d, n) := by
  unfold asmCopy at h
  split_ifs at h
  · exact asmScopy_some h
  · exact asmLcopy_some h
  · exact asmLcopyx_some h

/-- Where `COPY d, n` has no expansion (R114). -/
theorem asmCopy_eq_none_iff {d : Int} {n : Nat} (hd : d ≤ -1) (hn : 2 ≤ n) :
    asmCopy d n = none ↔ n = 2 ∧ d < -256 ∨ 256 < n ∨ d < -8192 := by
  unfold asmCopy asmScopy asmLcopy asmLcopyx
  split_ifs <;> simp <;> omega

/-- Settles O11: what COPY spells has its operands, and outside its cases no well-formed token has them. -/
theorem copyPseudoInstructionSpellsTheCopy : Obligations.CopyPseudoInstructionSpellsTheCopy := by
  intro d n hd hn
  have hnone := asmCopy_eq_none_iff hd hn
  refine ⟨⟨fun h => ?_, fun h => ?_⟩, hnone, fun i => asmCopy_some⟩
  · rintro ⟨i, hwf, hi⟩
    have hout := hnone.1 h
    have hin := copyOperands_range hwf hi
    omega
  · by_contra hsome
    obtain ⟨i, hi⟩ := Option.ne_none_iff_exists'.1 hsome
    exact h ⟨i, asmCopy_some hi⟩

/-! ## The header's fields (R98, R121) -/

/-- Settles O35: each word of the serialized header is the two bytes of its field. -/
theorem headerFieldsStandAtTheirOffsets : Obligations.HeaderFieldsStandAtTheirOffsets := by
  intro h wordAt hword
  simp [hword, serializeHeader, wordBytes, loByte_add_hiByte]

end Sys2Proof.Machine
end

section
/-! PROOFS. The header codec (`40_header_codec.md`): the two directions of its round trip, and the input too short
for a header. -/

namespace Sys2Proof.Machine

/-! ## The round trip (R122) -/

theorem loByte_le16 (lo hi : Byte) : loByte (le16 lo hi) = lo :=
  BitVec.extractLsb'_append_eq_right

theorem hiByte_le16 (lo hi : Byte) : hiByte (le16 lo hi) = hi :=
  BitVec.extractLsb'_append_eq_left

/-- The word that two bytes make is stored as these two bytes (R62, R66). -/
theorem wordBytes_le16 (lo hi : Byte) : wordBytes (le16 lo hi) = [lo, hi] := by
  rw [wordBytes, loByte_le16, hiByte_le16]

/-- `HDC.DESER` after `HDC.SER`: each field is read back from its own bytes (R122). -/
theorem parseHeader_serializeHeader (h : Header) : parseHeader (serializeHeader h) = some h := by
  simp only [serializeHeader, wordBytes, List.cons_append, List.nil_append, parseHeader, le16_wordBytes]

/-- `HDC.SER` after `HDC.DESER`: each byte is carried by its own field (R122). -/
theorem serializeHeader_of_parseHeader {bs : List Byte} {h : Header} (hp : parseHeader bs = some h) :
    serializeHeader h = bs := by
  unfold parseHeader at hp
  split at hp
  · cases hp
    simp only [serializeHeader, wordBytes_le16, List.cons_append, List.nil_append]
  · cases hp

/-- The parse validates nothing but the length (R123). -/
theorem parseHeader_of_length {bs : List Byte} (hlen : bs.length = 28) : ∃ h, parseHeader bs = some h := by
  match bs, hlen with
  | [_, _, _, _, _, _, _, _, _, _, _, _, _, _, _, _, _, _, _, _, _, _, _, _, _, _, _, _], _ => exact ⟨_, rfl⟩

/-- Settles O36: every header is parsed back, and every 28 bytes are the parse of a header that serializes to them. -/
theorem headerCodecIsABijection : Obligations.HeaderCodecIsABijection := by
  refine ⟨fun h => ⟨serializeHeader_length h, parseHeader_serializeHeader h⟩, fun bs hlen => ?_⟩
  obtain ⟨h, hp⟩ := parseHeader_of_length hlen
  exact ⟨h, hp, serializeHeader_of_parseHeader hp⟩

/-! ## An input too short for a header (R120) -/

/-- The length is checked first, whatever `SRC` holds (R120). -/
theorem deserHeader_short {s : State} (hn : s.n < hdrLen) :
    deserHeader s = .error (raised .malformedHeader .hdc s) :=
  if_pos hn

theorem stepHdr_short {s : State} (hn : s.n < hdrLen) : stepHdr s = raised .malformedHeader .hdc s := by
  rw [stepHdr, deserHeader_short hn]

/-- The fault entry of a unit operation as the host sees it (R206, R214). -/
theorem faulted_raise (k : FaultKind) (u : UnitId) (s : State) :
    faulted (raise k u s) (causeCode k) (unitCode u) :=
  ⟨raise_phase k u s, raise_cause k u s, raise_funit k u s, raise_result k u s⟩

/-- Settles O37: the step of phase `S_HDR` ends in the fault entry of `HDC.DESER`, which keeps the input. -/
theorem shortInputIsMalformed : Obligations.ShortInputIsMalformed := by
  intro s hbox hphase hn
  have hstep : step s = .next (raise .malformedHeader .hdc s) := by
    rw [step_of_inbox_nil hbox, blockStep_sHdr hphase, stepHdr_short hn, raised]
  exact ⟨_, hstep, faulted_raise .malformedHeader .hdc s, inputKept_raise _ _ s⟩

end Sys2Proof.Machine
end

section
/-! PROOFS. The bit reader (`41_bit_reader.md`): what each of its operations answers, by the bytes left before
`PAY_LIMIT`, and the bounds they keep. -/

namespace Sys2Proof.Machine

/-! ## The fault entry of a token (R206, R214, R215) -/

/-- The fault entry of a token as the host sees it (R206, R214). -/
theorem faulted_raiseToken (k : FaultKind) (u : UnitId) (s : State) :
    faulted (raiseToken k u s) (causeCode k) (unitCode u) :=
  ⟨raiseToken_phase k u s, raiseToken_cause k u s, raiseToken_funit k u s, raiseToken_result k u s⟩

/-- Faults are precise at token grain (R215). -/
theorem faultKeeps_raiseToken (k : FaultKind) (u : UnitId) (s : State) : faultKeeps s (raiseToken k u s) :=
  ⟨raiseToken_out k u s, raiseToken_olen k u s, raiseToken_rel k u s, raiseToken_rcount k u s,
    raiseToken_acc k u s, inputKept_raiseToken k u s⟩

/-! ## Reads of `SRC` (R62) -/

theorem srcRead16_of_bytes {s : State} {a : Nat} {lo hi : Byte} (hlo : srcRead8 s a = .ok lo)
    (hhi : srcRead8 s (a + 1) = .ok hi) : srcRead16 s a = .ok (le16 lo hi) := by
  simp only [srcRead16, hlo, hhi]

/-- A word read of `SRC` where two values are held (R62). -/
theorem srcRead16_of_mem {s : State} {a : Nat} {lo hi : Byte} (hn : a + 2 ≤ s.n)
    (hlo : memRead s.src a = some lo) (hhi : memRead s.src (a + 1) = some hi) :
    srcRead16 s a = .ok (le16 lo hi) :=
  srcRead16_of_bytes (srcRead8_of_mem (by omega) hlo) (srcRead8_of_mem (by omega) hhi)

/-! ## `FETCH16` (R134) -/

theorem fetch16_short (fail : FaultKind → UnitId → State → Result) {s : State} (hl : s.payLimit < s.cur + 2) :
    fetch16 fail s = .error (fail .truncatedStream .dce s) :=
  if_pos hl

theorem fetch16_read (fail : FaultKind → UnitId → State → Result) {s : State} {w : Word}
    (hl : s.cur + 2 ≤ s.payLimit) (hw : srcRead16 s s.cur = .ok w) :
    fetch16 fail s = .ok (w, { s with cur := s.cur + 2 }) := by
  rw [fetch16, if_neg (by omega), hw]

/-! ## `NEXT_BIT` (R132) -/

/-- No refill falls due while bits are left after this one (R132). -/
theorem nextBit_shift {s : State} (h : s.bitCnt ≠ 1) :
    nextBit s = .ok (s.bitBuf.getLsbD 0, { s with bitBuf := s.bitBuf >>> 1, bitCnt := s.bitCnt - 1 }) := by
  have hleft : s.bitCnt - 1 ≠ 0 := by bv_omega
  simp only [nextBit, takeBit]
  exact if_neg hleft

/-- The call that delivers the last bit of a word refills from `CUR` as it stands (R132, R136). -/
theorem nextBit_refill {s : State} {w : Word} (h : s.bitCnt = 1) (hl : s.cur + 2 ≤ s.payLimit)
    (hw : srcRead16 s s.cur = .ok w) :
    nextBit s = .ok (s.bitBuf.getLsbD 0, { s with bitBuf := w, bitCnt := 16, cur := s.cur + 2 }) := by
  have hfetch := fetch16_read raisedToken (s := { s with bitBuf := s.bitBuf >>> 1, bitCnt := 0 }) hl hw
  have hdue : s.bitCnt - 1 = 0 := by rw [h]; rfl
  simp only [nextBit, takeBit, hdue, ↓reduceIte, hfetch]

/-- The last bit of a word is not delivered when its refill cannot be done (R136, R137). -/
theorem nextBit_short {s : State} (h : s.bitCnt = 1) (hl : s.payLimit < s.cur + 2) :
    nextBit s =
      .error (raisedToken .truncatedStream .dce { s with bitBuf := s.bitBuf >>> 1, bitCnt := 0 }) := by
  have hfetch := fetch16_short raisedToken (s := { s with bitBuf := s.bitBuf >>> 1, bitCnt := 0 }) hl
  have hdue : s.bitCnt - 1 = 0 := by rw [h]; rfl
  simp only [nextBit, takeBit, hdue, ↓reduceIte, hfetch]

/-! ## `NEXT_BYTE` (R133) -/

theorem nextByte_short {s : State} (hl : s.payLimit < s.cur + 1) :
    nextByte s = .error (raisedToken .truncatedStream .dce s) :=
  if_pos hl

theorem nextByte_read {s : State} {b : Byte} (hl : s.cur + 1 ≤ s.payLimit) (hb : srcRead8 s s.cur = .ok b) :
    nextByte s = .ok (b, { s with cur := s.cur + 1 }) := by
  rw [nextByte, if_neg (by omega), hb]

/-! ## The obligations -/

/-- Settles O15: each operation keeps the bounds; `BRD.INIT` leaves a full control word with `CUR` past it. -/
theorem bitReaderInvariantKept : Obligations.BitReaderInvariantKept := by
  refine ⟨fun s t h => ?_, fun s t b hr h => readerOk_nextBit hr h, fun s t b hr h => readerOk_nextByte hr h⟩
  obtain ⟨hl, w, -, rfl⟩ := initBits_ok h
  exact readerOk_of_full rfl (le_refl _) hl

/-- Settles O12. -/
theorem fetchSixteenReadsOrRaises : Obligations.FetchSixteenReadsOrRaises := by
  refine fun s => ⟨fun hl => ⟨?_, ?_⟩, fun lo hi hl hn hlo hhi => ?_⟩
  · exact ⟨_, fetch16_short raisedToken hl, faulted_raiseToken .truncatedStream .dce s, faultKeeps_raiseToken _ _ s⟩
  · exact ⟨_, fetch16_short raised hl, faulted_raise .truncatedStream .dce s, inputKept_raise _ _ s⟩
  · exact ⟨le16 lo hi, le16_toNat lo hi, fun fail => fetch16_read fail hl (srcRead16_of_mem (by omega) hlo hhi)⟩

/-- Settles O13: no refill falls due, or the refill is done, or it raises. -/
theorem nextBitDeliversAndRefills : Obligations.NextBitDeliversAndRefills := by
  refine fun s => ⟨fun h2 _ => ?_, fun lo hi h1 hl hn hlo hhi => ?_, fun h1 hl => ?_⟩
  · have hcnt : s.bitCnt ≠ 1 := by bv_omega
    exact nextBit_shift hcnt
  · have hcnt : s.bitCnt = 1 := BitVec.eq_of_toNat_eq h1
    have hread := srcRead16_of_mem (show s.cur + 2 ≤ s.n by omega) hlo hhi
    exact ⟨le16 lo hi, le16_toNat lo hi, nextBit_refill hcnt hl hread⟩
  · have hcnt : s.bitCnt = 1 := BitVec.eq_of_toNat_eq h1
    exact ⟨_, nextBit_short hcnt hl, faulted_raiseToken .truncatedStream .dce _, faultKeeps_raiseToken _ _ _⟩

/-- Settles O14. -/
theorem nextByteReadsOrRaises : Obligations.NextByteReadsOrRaises := by
  refine fun s => ⟨fun hl => ?_, fun b hl hn hb => ?_⟩
  · exact ⟨_, nextByte_short hl, faulted_raiseToken .truncatedStream .dce s, faultKeeps_raiseToken _ _ s⟩
  · exact nextByte_read hl (srcRead8_of_mem (by omega) hb)

end Sys2Proof.Machine
end

section
/-! PROOFS. The machine's fetch and the pure decoder read alike: over any two readers whose reads agree the dispatch
agrees (R141, R160), and the machine's reads agree with those over the list of the bytes up to the region's limit. A
truncated stream (R137, R161) is the case that both fail. -/

namespace Sys2Proof.Machine

/-! ## Two readers that read alike -/

/-- Two reads end alike: both deliver the same value and leave positions related by `R`, or both fail, the first as
`E` says. -/
inductive ReadsAlike {α σ τ ε δ : Type} (R : σ → τ → Prop) (E : ε → Prop) :
    Except ε (α × σ) → Except δ (α × τ) → Prop
  | done {a : α} {s : σ} {p : τ} (h : R s p) : ReadsAlike R E (.ok (a, s)) (.ok (a, p))
  | failed {e : ε} {d : δ} (h : E e) : ReadsAlike R E (.error e) (.error d)

section Dispatch

variable {σ τ ε δ : Type} {R : σ → τ → Prop} {E : ε → Prop}
  {bit : σ → Except ε (Bool × σ)} {byte : σ → Except ε (Byte × σ)} {word : σ → Except ε (Word × σ)}
  {bit' : τ → Except δ (Bool × τ)} {byte' : τ → Except δ (Byte × τ)} {word' : τ → Except δ (Word × τ)}

/-- Where the first reader fails as `E` says when the second fails. -/
theorem ReadsAlike.error_of_error {α : Type} {x : Except ε (α × σ)} {d : δ}
    (h : ReadsAlike (α := α) R E x (.error d)) : ∃ e, x = .error e ∧ E e := by
  cases h with
  | failed he => exact ⟨_, rfl, he⟩

theorem readLongCopy_alike (hbyte : ∀ s p, R s p → ReadsAlike R E (byte s) (byte' p)) {s : σ} {p : τ}
    (hs : R s p) : ReadsAlike R E (readLongCopy byte s) (readLongCopy byte' p) := by
  unfold readLongCopy
  have h1 := hbyte s p hs
  generalize byte s = x1, byte' p = y1 at h1
  cases h1 with
  | failed he => exact .failed he
  | @done lo s1 p1 hs1 =>
    have h2 := hbyte s1 p1 hs1
    dsimp only
    generalize byte s1 = x2, byte' p1 = y2 at h2
    cases h2 with
    | failed he => exact .failed he
    | @done hi s2 p2 hs2 =>
      dsimp only
      split_ifs with hc
      · exact .done hs2
      · have h3 := hbyte s2 p2 hs2
        generalize byte s2 = x3, byte' p2 = y3 at h3
        cases h3 with
        | failed he => exact .failed he
        | done hs3 => dsimp only; split_ifs <;> exact .done hs3

theorem readShortCopy_alike (hbit : ∀ s p, R s p → ReadsAlike R E (bit s) (bit' p))
    (hbyte : ∀ s p, R s p → ReadsAlike R E (byte s) (byte' p)) {s : σ} {p : τ} (hs : R s p) :
    ReadsAlike R E (readShortCopy bit byte s) (readShortCopy bit' byte' p) := by
  unfold readShortCopy
  have h1 := hbit s p hs
  generalize bit s = x1, bit' p = y1 at h1
  cases h1 with
  | failed he => exact .failed he
  | @done c1 s1 p1 hs1 =>
    have h2 := hbit s1 p1 hs1
    dsimp only
    generalize bit s1 = x2, bit' p1 = y2 at h2
    cases h2 with
    | failed he => exact .failed he
    | @done c0 s2 p2 hs2 =>
      have h3 := hbyte s2 p2 hs2
      dsimp only
      generalize byte s2 = x3, byte' p2 = y3 at h3
      cases h3 with
      | failed he => exact .failed he
      | done hs3 => exact .done hs3

/-- The dispatch of the code stream reads alike over readers that read alike (R141). -/
theorem readCodeToken_alike (hbit : ∀ s p, R s p → ReadsAlike R E (bit s) (bit' p))
    (hbyte : ∀ s p, R s p → ReadsAlike R E (byte s) (byte' p)) {s : σ} {p : τ} (hs : R s p) :
    ReadsAlike R E (readCodeToken bit byte s) (readCodeToken bit' byte' p) := by
  unfold readCodeToken
  have h1 := hbit s p hs
  generalize bit s = x1, bit' p = y1 at h1
  cases h1 with
  | failed he => exact .failed he
  | @done b1 s1 p1 hs1 =>
    cases b1 with
    | true =>
      have h2 := hbyte s1 p1 hs1
      dsimp only
      generalize byte s1 = x2, byte' p1 = y2 at h2
      cases h2 with
      | failed he => exact .failed he
      | done hs2 => exact .done hs2
    | false =>
      have h2 := hbit s1 p1 hs1
      dsimp only
      generalize bit s1 = x2, bit' p1 = y2 at h2
      cases h2 with
      | failed he => exact .failed he
      | @done b2 s2 p2 hs2 =>
        cases b2 with
        | true => exact readLongCopy_alike hbyte hs2
        | false => exact readShortCopy_alike hbit hbyte hs2

/-- The dispatch of the relocation stream reads alike over readers that read alike (R160). -/
theorem readRelocToken_alike (hbyte : ∀ s p, R s p → ReadsAlike R E (byte s) (byte' p))
    (hword : ∀ s p, R s p → ReadsAlike R E (word s) (word' p)) {s : σ} {p : τ} (hs : R s p) :
    ReadsAlike R E (readRelocToken byte word s) (readRelocToken byte' word' p) := by
  unfold readRelocToken
  have h1 := hbyte s p hs
  generalize byte s = x1, byte' p = y1 at h1
  cases h1 with
  | failed he => exact .failed he
  | @done b s1 p1 hs1 =>
    dsimp only
    split_ifs with hb
    · exact .done hs1
    · have h2 := hword s1 p1 hs1
      generalize word s1 = x2, word' p1 = y2 at h2
      cases h2 with
      | failed he => exact .failed he
      | done hs2 => dsimp only; split_ifs <;> exact .done hs2

end Dispatch

/-! ## The bytes of `SRC` up to a limit -/

/-- The bytes of `SRC` from an address up to the limit of its region (R26, R71). -/
def bytesAhead (s : State) (a limit : Nat) (bs : List Byte) : Prop :=
  a ≤ limit ∧ srcReadRange s a (limit - a) = .ok bs

/-- A range read of `SRC` looks at `SRC` and `N` alone. -/
theorem srcReadRange_congr {s t : State} (hn : t.n = s.n) (hsrc : t.src = s.src) : ∀ len a : Nat,
    srcReadRange t a len = srcReadRange s a len := by
  intro len
  induction len with
  | zero => intro a; rfl
  | succ len ih => intro a; simp only [srcReadRange, srcRead8, hn, hsrc, ih]

theorem bytesAhead_congr {s t : State} {a limit : Nat} {bs : List Byte} (h : bytesAhead s a limit bs)
    (hn : t.n = s.n) (hsrc : t.src = s.src) : bytesAhead t a limit bs := by
  obtain ⟨hle, hr⟩ := h
  exact ⟨hle, (srcReadRange_congr hn hsrc _ a).trans hr⟩

theorem bytesAhead_length {s : State} {a limit : Nat} {bs : List Byte} (h : bytesAhead s a limit bs) :
    a + bs.length = limit := by
  obtain ⟨hle, hr⟩ := h
  have hlen := srcReadRange_length hr
  omega

/-- The first of the bytes ahead is the byte at the address, the others are ahead of the next one. -/
theorem bytesAhead_cons {s : State} {a limit : Nat} {b : Byte} {bs : List Byte}
    (h : bytesAhead s a limit (b :: bs)) : srcRead8 s a = .ok b ∧ bytesAhead s (a + 1) limit bs := by
  have hlen : a + (bs.length + 1) = limit := bytesAhead_length h
  obtain ⟨-, hr⟩ := h
  rw [show limit - a = bs.length + 1 by omega, srcReadRange] at hr
  split at hr
  · cases hr
  · rename_i hb
    split at hr
    · cases hr
    · rename_i hbs
      cases hr
      exact ⟨hb, by omega, by rwa [show limit - (a + 1) = bs.length by omega]⟩

/-- A byte can be read before the limit, or none is left (R71). -/
theorem bytesAhead_byte {s : State} {a limit : Nat} {bs : List Byte} (h : bytesAhead s a limit bs) :
    (limit < a + 1 ∧ bs = []) ∨
    ∃ b rest, bs = b :: rest ∧ a + 1 ≤ limit ∧ srcRead8 s a = .ok b ∧ bytesAhead s (a + 1) limit rest := by
  have hlen := bytesAhead_length h
  cases bs with
  | nil =>
    simp only [List.length_nil] at hlen
    exact .inl ⟨by omega, rfl⟩
  | cons b rest =>
    obtain ⟨hb, hrest⟩ := bytesAhead_cons h
    simp only [List.length_cons] at hlen
    exact .inr ⟨b, rest, rfl, by omega, hb, hrest⟩

/-- A word can be read before the limit, or fewer than two bytes are left (R62, R71). -/
theorem bytesAhead_word {s : State} {a limit : Nat} {bs : List Byte} (h : bytesAhead s a limit bs) :
    (limit < a + 2 ∧ bs.length < 2) ∨
    ∃ lo hi rest, bs = lo :: hi :: rest ∧ a + 2 ≤ limit ∧ srcRead16 s a = .ok (le16 lo hi) ∧
      bytesAhead s (a + 2) limit rest := by
  obtain ⟨hl, rfl⟩ | ⟨lo, bs', rfl, hl, hlo, h1⟩ := bytesAhead_byte h
  · exact .inl ⟨by omega, by simp⟩
  · obtain ⟨hl', rfl⟩ | ⟨hi, rest, rfl, hl', hhi, h2⟩ := bytesAhead_byte h1
    · exact .inl ⟨hl', by simp⟩
    · exact .inr ⟨lo, hi, rest, rfl, hl', srcRead16_of_bytes hlo hhi, h2⟩

/-! ## The code stream -/

/-- The bit reader stands at a position of the pure decoder (R28). -/
def codeReaderAt (s : State) (p : CodePos) : Prop :=
  s.bitBuf = p.buf ∧ s.bitCnt = p.cnt ∧ bytesAhead s s.cur s.payLimit p.bytes

/-- A step that ends so takes a fault of the block; it does not stop the model (R214). -/
def isNext (o : Result) : Prop := ∃ t, o = .next t

/-- `NEXT_BIT` where a refill falls due and fewer than two bytes are left (R136, R137). -/
theorem posBit_short (buf : Word) {bs : List Byte} (h : bs.length < 2) :
    posBit { buf := buf, cnt := 1, bytes := bs } = .error .truncated := by
  match bs, h with
  | [], _ => simp [posBit, takeBit]
  | [_], _ => simp [posBit, takeBit]

theorem nextBit_alike (s : State) (p : CodePos) (h : codeReaderAt s p) :
    ReadsAlike codeReaderAt isNext (nextBit s) (posBit p) := by
  obtain ⟨buf, cnt, bytes⟩ := p
  obtain ⟨rfl, rfl, hahead⟩ := h
  by_cases hdue : s.bitCnt = 1
  · obtain ⟨hl, hshort⟩ | ⟨lo, hi, rest, rfl, hl, hw, hrest⟩ := bytesAhead_word hahead
    · rw [nextBit_short hdue hl, hdue, posBit_short _ hshort]
      exact .failed ⟨_, rfl⟩
    · rw [nextBit_refill hdue hl hw, hdue, posBit_refill]
      exact .done ⟨rfl, rfl, bytesAhead_congr hrest rfl rfl⟩
  · rw [nextBit_shift hdue, posBit_shift _ hdue]
    exact .done ⟨rfl, rfl, bytesAhead_congr hahead rfl rfl⟩

theorem nextByte_alike (s : State) (p : CodePos) (h : codeReaderAt s p) :
    ReadsAlike codeReaderAt isNext (nextByte s) (posByte p) := by
  obtain ⟨buf, cnt, bytes⟩ := p
  obtain ⟨hbuf, hcnt, hahead⟩ := h
  obtain ⟨hl, rfl⟩ | ⟨b, rest, rfl, hl, hb, hrest⟩ := bytesAhead_byte hahead
  · rw [nextByte_short hl]
    exact .failed ⟨_, rfl⟩
  · rw [nextByte_read hl hb]
    exact .done ⟨hbuf, hcnt, bytesAhead_congr hrest rfl rfl⟩

/-- The fetch of a code token reads as the pure decoder does at the same position (R141). -/
theorem fetchCode_alike {s : State} {p : CodePos} (h : codeReaderAt s p) :
    ReadsAlike codeReaderAt isNext (fetchCode s) (decodeCode p) :=
  readCodeToken_alike nextBit_alike nextByte_alike h

/-- Where the bytes end inside a code token the fetch ends in the fault entry of `DCE`, after reads that moved only
the bit reader (R137, R141). -/
theorem fetchCode_truncated {s : State} {p : CodePos} {d : DecodeError} (h : codeReaderAt s p)
    (hd : decodeCode p = .error d) :
    ∃ s', codeReads s s' ∧ fetchCode s = .error (raisedToken .truncatedStream .dce s') := by
  have halike := fetchCode_alike h
  rw [hd] at halike
  obtain ⟨o, ho, t, hnext⟩ := halike.error_of_error
  obtain ⟨s', hr, rfl⟩ | ⟨f, rfl⟩ := fetchCode_error ho
  · exact ⟨s', hr, ho⟩
  · cases hnext

/-! ## The relocation stream -/

/-- `RCUR` stands before the bytes that the pure decoder has ahead (R33). -/
def relocReaderAt (s : State) (bs : List Byte) : Prop := bytesAhead s s.rcur s.relLimit bs

theorem relocByte_short {s : State} (hl : s.relLimit < s.rcur + 1) :
    relocByte s = .error (raisedToken .truncatedStream .rtd s) :=
  if_pos hl

theorem relocByte_read {s : State} {b : Byte} (hl : s.rcur + 1 ≤ s.relLimit) (hb : srcRead8 s s.rcur = .ok b) :
    relocByte s = .ok (b, { s with rcur := s.rcur + 1 }) := by
  rw [relocByte, if_neg (by omega), hb]

theorem relocWord_short {s : State} (hl : s.relLimit < s.rcur + 2) :
    relocWord s = .error (raisedToken .truncatedStream .rtd s) :=
  if_pos hl

theorem relocWord_read {s : State} {w : Word} (hl : s.rcur + 2 ≤ s.relLimit) (hw : srcRead16 s s.rcur = .ok w) :
    relocWord s = .ok (w, { s with rcur := s.rcur + 2 }) := by
  rw [relocWord, if_neg (by omega), hw]

/-- `RWORD` is all or nothing (R71, R161). -/
theorem listWord_short {bs : List Byte} (h : bs.length < 2) : listWord bs = .error .truncated := by
  match bs, h with
  | [], _ => rfl
  | [_], _ => rfl

theorem relocByte_alike (s : State) (bs : List Byte) (h : relocReaderAt s bs) :
    ReadsAlike relocReaderAt isNext (relocByte s) (listByte bs) := by
  obtain ⟨hl, rfl⟩ | ⟨b, rest, rfl, hl, hb, hrest⟩ := bytesAhead_byte h
  · rw [relocByte_short hl]
    exact .failed ⟨_, rfl⟩
  · rw [relocByte_read hl hb]
    exact .done (bytesAhead_congr hrest rfl rfl)

theorem relocWord_alike (s : State) (bs : List Byte) (h : relocReaderAt s bs) :
    ReadsAlike relocReaderAt isNext (relocWord s) (listWord bs) := by
  obtain ⟨hl, hshort⟩ | ⟨lo, hi, rest, rfl, hl, hw, hrest⟩ := bytesAhead_word h
  · rw [relocWord_short hl, listWord_short hshort]
    exact .failed ⟨_, rfl⟩
  · rw [relocWord_read hl hw]
    exact .done (bytesAhead_congr hrest rfl rfl)

/-- The fetch of a relocation token reads as the pure decoder does on the same bytes (R160). -/
theorem fetchReloc_alike {s : State} {bs : List Byte} (h : relocReaderAt s bs) :
    ReadsAlike relocReaderAt isNext (fetchReloc s) (decodeReloc bs) :=
  readRelocToken_alike relocByte_alike relocWord_alike h

/-- Where the bytes end inside a relocation token the fetch ends in the fault entry of `RTD`, after reads that moved
only `RCUR` (R160, R161). -/
theorem fetchReloc_truncated {s : State} {bs : List Byte} {d : DecodeError} (h : relocReaderAt s bs)
    (hd : decodeReloc bs = .error d) :
    ∃ s', (s' = s ∨ relocReads s s') ∧ fetchReloc s = .error (raisedToken .truncatedStream .rtd s') := by
  have halike := fetchReloc_alike h
  rw [hd] at halike
  obtain ⟨o, ho, t, hnext⟩ := halike.error_of_error
  obtain ⟨s', hr, rfl⟩ | ⟨f, rfl⟩ := fetchReloc_error ho
  · exact ⟨s', hr, ho⟩
  · cases hnext

/-! ## The obligation -/

/-- A fault after some reads of a code token keeps what the token found (R141, R215). -/
theorem faultKeeps_codeReads {s s' : State} (h : codeReads s s') (k : FaultKind) (u : UnitId) :
    faultKeeps s (raiseToken k u s') := by
  obtain ⟨e, -⟩ := h
  rw [e]
  exact faultKeeps_raiseToken k u _

/-- A fault after some reads of a relocation token keeps what the token found (R160, R215). -/
theorem faultKeeps_relocReads {s s' : State} (h : s' = s ∨ relocReads s s') (k : FaultKind) (u : UnitId) :
    faultKeeps s (raiseToken k u s') := by
  obtain rfl | ⟨e, -⟩ := h
  · exact faultKeeps_raiseToken k u _
  · rw [e]
    exact faultKeeps_raiseToken k u _

/-- Settles O34: the fetch fails as the pure decoder does, and its failure is the fault entry of its unit. -/
theorem truncatedStreamsRaise : Obligations.TruncatedStreamsRaise := by
  refine ⟨fun s bs hbox hphase hl hr hd => ?_, fun s bs hbox hphase hl hr hd => ?_⟩
  · obtain ⟨s', hreads, hf⟩ := fetchCode_truncated ⟨rfl, rfl, hl, hr⟩ hd
    have hstep : step s = .next (raiseToken .truncatedStream .dce s') := by
      rw [step_of_inbox_nil hbox, blockStep_sCode hphase, hf, runFetched, raisedToken]
    exact ⟨_, hstep, faulted_raiseToken .truncatedStream .dce s', faultKeeps_codeReads hreads _ _⟩
  · obtain ⟨s', hreads, hf⟩ := fetchReloc_truncated ⟨hl, hr⟩ hd
    have hstep : step s = .next (raiseToken .truncatedStream .rtd s') := by
      rw [step_of_inbox_nil hbox, blockStep_sRel hphase, hf, runFetched, raisedToken]
    exact ⟨_, hstep, faulted_raiseToken .truncatedStream .rtd s', faultKeeps_relocReads hreads _ _⟩

end Sys2Proof.Machine
end

section
/-! PROOFS. The code tokens (`42_code_tokens.md`): `APPEND`, `COPY` in its closed form and in chunks, and the tokens
that are one of them with their operands. -/

namespace Sys2Proof.Machine

/-! ## `APPEND` (R142) -/

theorem append_fits {v : Byte} {s : State} (hc : withinCap (s.olen + 1) s.outCap = true) :
    append v s = .next (pushOut s v) :=
  if_pos hc

/-- `APPEND` past the capacity ends in its fault entry (R142, R214). -/
theorem append_overflows (v : Byte) {s : State} (hc : withinCap (s.olen + 1) s.outCap = false) :
    ∃ t, append v s = .next t ∧ faulted t 4 3 ∧ faultKeeps s t := by
  have ht : append v s = .next (raiseToken .outputOverflow .dce s) := by
    rw [append, hc, if_neg Bool.false_ne_true, raisedToken]
  exact ⟨_, ht, faulted_raiseToken .outputOverflow .dce s, faultKeeps_raiseToken _ _ s⟩

/-- Settles O16. -/
theorem appendWritesOrOverflows : Obligations.AppendWritesOrOverflows := by
  refine fun v s => ⟨fun hc => ⟨_, append_fits hc, rfl, ?_, fun a ha => ?_, rfl⟩, append_overflows v⟩
  · exact memRead_memWrite_self s.out s.olen v
  · exact memRead_memWrite_ne s.out v ha

/-- Settles O19: the meaning of `LIT` is `APPEND`. -/
theorem litAppendsItsByte : Obligations.LitAppendsItsByte := by
  intro b s hc
  obtain ⟨hfits, -⟩ := appendWritesOrOverflows b s
  exact hfits hc

/-! ## The byte-by-byte loop of `COPY` (R148) -/

/-- A loop that ends has read its first byte and appended it before the others (R84). -/
theorem copyLoop_succ {k a : Nat} {s t : State} (h : copyLoop (k + 1) a s = .next t) :
    ∃ v, memRead s.out a = some v ∧ copyLoop k (a + 1) (pushOut s v) = .next t := by
  simp only [copyLoop, cellRead] at h
  cases hv : memRead s.out a with
  | none => rw [hv] at h; cases h
  | some v => rw [hv] at h; exact ⟨v, rfl, h⟩

/-- The loop writes only the `k` bytes from `OLEN` up. -/
theorem copyLoop_outside : ∀ {k a : Nat} {s t : State}, copyLoop k a s = .next t → ∀ b : Nat,
    (b < s.olen ∨ s.olen + k ≤ b) → memRead t.out b = memRead s.out b := by
  intro k
  induction k with
  | zero => intro a s t h b _; cases h; rfl
  | succ k ih =>
    intro a s t h b hb
    obtain ⟨v, -, hk⟩ := copyLoop_succ h
    rw [ih hk b (by rw [pushOut_olen]; omega), pushOut_out, memRead_memWrite_ne _ _ (by omega)]

/-- The bytes between the source position and `OLEN` repeat with their number `p` as period: an append writes the
byte `p` places below it, so it only moves the period on (R148). -/
theorem copyLoop_inside : ∀ {k a p : Nat} {s t : State}, 0 < p → a + p = s.olen → copyLoop k a s = .next t →
    ∀ i < k, memRead t.out (s.olen + i) = memRead s.out (a + i % p) := by
  intro k
  induction k with
  | zero => intro a p s t _ _ _ i hi; omega
  | succ k ih =>
    intro a p s t hp hap h i hi
    obtain ⟨v, hv, hk⟩ := copyLoop_succ h
    have hself : memRead (pushOut s v).out s.olen = memRead s.out a :=
      (memRead_memWrite_self s.out s.olen v).trans hv.symm
    cases i with
    | zero =>
      rw [Nat.zero_mod, Nat.add_zero, Nat.add_zero, ← hself]
      exact copyLoop_outside hk s.olen (.inl (Nat.lt_succ_self s.olen))
    | succ i =>
      have hlt := Nat.mod_lt i hp
      have hrest := ih hp (by rw [pushOut_olen]; omega) hk i (by omega)
      rw [pushOut_olen, Nat.add_right_comm, Nat.add_assoc] at hrest
      rw [hrest, ← Nat.mod_add_mod i p 1]
      by_cases hwrap : i % p + 1 = p
      · rw [hwrap, Nat.mod_self, Nat.add_zero, show a + 1 + i % p = s.olen by omega]
        exact hself
      · rw [Nat.mod_eq_of_lt (show i % p + 1 < p by omega), Nat.add_right_comm, Nat.add_assoc]
        exact memRead_memWrite_ne s.out v (by omega)

/-- A finished loop is the overlap copy in its closed form (R148). -/
theorem copied_of_copyLoop {d : Int} {n : Nat} {s t : State} (hd : d < 0) (hreach : 0 ≤ (s.olen : Int) + d)
    (h : copyLoop n ((s.olen : Int) + d).toNat s = .next t) : copied d n s t := by
  obtain ⟨holen, hframe, -⟩ := copyLoop_next h
  exact ⟨holen, copyLoop_inside (by omega) (by omega) h, copyLoop_outside h, hframe⟩

/-! ## `COPY` (R148, R220) -/

/-- A distance that reaches before byte 0 traps, whatever the capacity (R148, R220). -/
theorem copy_reaches_back {d : Int} (n : Nat) {s : State} (hd : (s.olen : Int) + d < 0) :
    ∃ t, copy d n s = .next t ∧ faulted t 3 3 ∧ faultKeeps s t := by
  have ht : copy d n s = .next (raiseToken .badBackReference .dce s) := if_pos hd
  exact ⟨_, ht, faulted_raiseToken .badBackReference .dce s, faultKeeps_raiseToken _ _ s⟩

/-- A copy within reach that would pass the capacity traps before its first byte (R148, R220). -/
theorem copy_overflows {d : Int} {n : Nat} {s : State} (hreach : 0 ≤ (s.olen : Int) + d)
    (hc : withinCap (s.olen + n) s.outCap = false) :
    ∃ t, copy d n s = .next t ∧ faulted t 4 3 ∧ faultKeeps s t := by
  have ht : copy d n s = .next (raiseToken .outputOverflow .dce s) := by
    rw [copy, if_neg (not_lt.2 hreach), hc, Bool.not_false, if_pos rfl, raisedToken]
  exact ⟨_, ht, faulted_raiseToken .outputOverflow .dce s, faultKeeps_raiseToken _ _ s⟩

/-- A copy within reach and capacity is its loop (R148). -/
theorem copy_eq_copyLoop {d : Int} {n : Nat} {s : State} (hreach : 0 ≤ (s.olen : Int) + d)
    (hc : withinCap (s.olen + n) s.outCap = true) : copy d n s = copyLoop n ((s.olen : Int) + d).toNat s := by
  rw [copy, if_neg (not_lt.2 hreach), hc, Bool.not_true, if_neg Bool.false_ne_true]

/-- A copy within reach and capacity completes in its closed form, and `OUT` stays a segment (R63, R148). -/
theorem copy_copies {d : Int} {n : Nat} {s : State} (hd : d < 0) (hcov : covers s.out s.olen)
    (hreach : 0 ≤ (s.olen : Int) + d) (hc : withinCap (s.olen + n) s.outCap = true) :
    ∃ t, copy d n s = .next t ∧ copied d n s t ∧ covers t.out t.olen := by
  obtain ⟨t, ht⟩ := copyLoop_runs (k := n) (a := ((s.olen : Int) + d).toNat) hcov (by omega)
  obtain ⟨-, -, hseg⟩ := copyLoop_next ht
  exact ⟨t, (copy_eq_copyLoop hreach hc).trans ht, copied_of_copyLoop hd hreach ht, hseg hcov⟩

/-- Settles O17: the two checks in their order, then the loop's closed form. -/
theorem overlapCopyInClosedForm : Obligations.OverlapCopyInClosedForm :=
  fun _ n _ hd hcov => ⟨copy_reaches_back n, copy_overflows, copy_copies hd hcov⟩

/-! ## Copies in chunks (R150) -/

/-- A range read looks at its own addresses alone. -/
theorem cellReadRange_congr {α : Type} (sp : Space) {m m' : Mem α} : ∀ {len a : Nat},
    (∀ b, a ≤ b → b < a + len → memRead m' b = memRead m b) →
    cellReadRange sp m' a len = cellReadRange sp m a len := by
  intro len
  induction len with
  | zero => intro a _; rfl
  | succ len ih =>
    intro a h
    have hfirst := h a (le_refl a) (by omega)
    have hrest := ih (a := a + 1) fun b hb hlt => h b (by omega) (by omega)
    simp only [cellReadRange, cellRead, hfirst, hrest]

/-- Bytes below `OLEN` read as before after an append. -/
theorem cellReadRange_pushOut {s : State} {a len : Nat} (h : a + len ≤ s.olen) (v : Byte) :
    cellReadRange .out (pushOut s v).out a len = cellReadRange .out s.out a len :=
  cellReadRange_congr .out fun b _ hb => memRead_memWrite_ne s.out v (by omega)

/-- A chunk no longer than the bytes between its source position and `OLEN` reads no byte that it appends, so reading
it at once is reading it byte by byte (R150). -/
theorem copyChunk_eq_copyLoop : ∀ {k a : Nat} {s : State}, a + k ≤ s.olen → copyChunk k a s = copyLoop k a s := by
  intro k
  induction k with
  | zero => intro a s _; rfl
  | succ k ih =>
    intro a s h
    simp only [copyChunk, copyLoop, cellReadRange]
    cases cellRead .out s.out a with
    | error f => rfl
    | ok v =>
      have hfit : a + 1 + k ≤ (pushOut s v).olen := by rw [pushOut_olen]; omega
      dsimp only
      rw [← ih hfit, copyChunk, cellReadRange_pushOut (by omega)]
      cases cellReadRange .out s.out (a + 1) k <;> rfl

/-- A loop of `j + k` bytes is a loop of `j` bytes and then one of `k`. -/
theorem copyLoop_add {k : Nat} {t : State} : ∀ {j a : Nat} {s : State}, copyLoop j a s = .next t →
    copyLoop (j + k) a s = copyLoop k (a + j) t := by
  intro j
  induction j with
  | zero => intro a s h; cases h; rw [Nat.zero_add, Nat.add_zero]
  | succ j ih =>
    intro a s h
    obtain ⟨v, hv, hj⟩ := copyLoop_succ h
    rw [Nat.add_right_comm, ← Nat.add_assoc a, Nat.add_right_comm a, ← ih hj]
    simp only [copyLoop, cellRead, hv]

/-- A chunk that fits completes (R150). -/
theorem copyLoop_runs_of_fits {k a : Nat} {s : State} (hcov : covers s.out s.olen) (h : a + k ≤ s.olen) :
    ∃ t, copyLoop k a s = .next t := by
  cases k with
  | zero => exact ⟨s, rfl⟩
  | succ k => exact copyLoop_runs hcov (by omega)

/-- Settles O18, by induction on the chunks: each is a part of the loop, and leaves `OUT` a segment. -/
theorem chunkedCopyEqualsByteLoop : Obligations.ChunkedCopyEqualsByteLoop := by
  intro ks
  induction ks with
  | nil => intro a s _ _; rfl
  | cons k ks ih =>
    intro a s hcov hfits
    obtain ⟨hfit, hrest⟩ := hfits
    obtain ⟨t, ht⟩ := copyLoop_runs_of_fits hcov hfit
    obtain ⟨holen, -, hseg⟩ := copyLoop_next ht
    rw [copyInChunks, copyChunk_eq_copyLoop hfit, ht, List.sum_cons, copyLoop_add ht]
    exact ih (a + k) t (hseg hcov) (holen ▸ hrest)

/-! ## The copy tokens (R144 to R146) -/

/-- `SCOPY` is a copy of `c + 2` bytes at distance `db - 256` (R104, R105, R144). -/
theorem exec_scopy_eq (c : BitVec 2) (db : Byte) (s : State) :
    exec (.scopy c db) s = copy ((db.toNat : Int) - 256) (c.toNat + 2) s := by
  rw [exec, execScopy, shortDistance_eq, shortCount]

/-- `LCOPY` is a copy of `c + 2` bytes at the long distance of its bytes (R101, R102, R145). -/
theorem exec_lcopy_eq (lo : Byte) (hi5 : BitVec 5) (c : BitVec 3) (s : State) :
    exec (.lcopy lo hi5 c) s = copy (-8192 + 256 * (hi5.toNat : Int) + (lo.toNat : Int)) (c.toNat + 2) s := by
  rw [exec, execLcopy, longDistance_eq, longCount_eq, highByte, highByte_high, highByte_count]

/-- `LCOPYX` is a copy of `e + 1` bytes at the long distance of its bytes (R101, R103, R146). -/
theorem exec_lcopyx_eq (lo : Byte) (hi5 : BitVec 5) (e : Byte) (s : State) :
    exec (.lcopyx lo hi5 e) s = copy (-8192 + 256 * (hi5.toNat : Int) + (lo.toNat : Int)) (e.toNat + 1) s := by
  rw [exec, execLcopyx, longDistance_eq, extendedCount, highByte, highByte_high]

/-- The count field of `SCOPY`, its first bit the more significant (R105, log entry 14). -/
theorem countField_toNat (c : BitVec 2) : c.toNat = 2 * (c.getLsbD 1).toNat + (c.getLsbD 0).toNat := by
  decide +revert

/-- Settles O20. -/
theorem scopyCopiesItsBytes : Obligations.ScopyCopiesItsBytes := by
  intro c db s hcov hreach hc
  have hdb := db.isLt
  rw [exec_scopy_eq, countField_toNat]
  obtain ⟨t, ht, hcopied, -⟩ := copy_copies (d := (db.toNat : Int) - 256) (by omega) hcov (by omega) hc
  exact ⟨t, ht, hcopied⟩

/-- A long copy within reach and capacity completes in its closed form, whatever its count (R101, R145, R146). -/
theorem copy_long_copies (lo : Byte) (hi5 : BitVec 5) {n : Nat} {s : State} (hcov : covers s.out s.olen)
    (hreach : 8192 ≤ s.olen + 256 * hi5.toNat + lo.toNat) (hc : withinCap (s.olen + n) s.outCap = true) :
    ∃ t, copy (-8192 + 256 * (hi5.toNat : Int) + (lo.toNat : Int)) n s = .next t ∧
      copied (-8192 + 256 * (hi5.toNat : Int) + (lo.toNat : Int)) n s t := by
  have hlo := lo.isLt
  have hhi := hi5.isLt
  obtain ⟨t, ht, hcopied, -⟩ := copy_copies (d := -8192 + 256 * (hi5.toNat : Int) + (lo.toNat : Int)) (by omega) hcov
    (by omega) hc
  exact ⟨t, ht, hcopied⟩

/-- Settles O21. -/
theorem lcopyCopiesItsBytes : Obligations.LcopyCopiesItsBytes := by
  intro lo hi5 c s hcov hreach hc
  rw [exec_lcopy_eq]
  exact copy_long_copies lo hi5 hcov hreach hc

/-- Settles O22. -/
theorem lcopyxCopiesItsBytes : Obligations.LcopyxCopiesItsBytes := by
  intro lo hi5 e s hcov hreach hc
  rw [exec_lcopyx_eq]
  exact copy_long_copies lo hi5 hcov hreach hc

/-- Settles O23: `LIT` traps as `APPEND` does, each copy token as `COPY` does with its operands. -/
theorem outputTokensTrap : Obligations.OutputTokensTrap := by
  intro s lo db b e hi5 c2 c3
  rw [exec_scopy_eq, exec_lcopy_eq, exec_lcopyx_eq]
  refine ⟨append_overflows b, fun hback => ?_, fun hreach => ?_, fun hback => ⟨?_, ?_⟩, fun hreach => ⟨?_, ?_⟩⟩
  · exact copy_reaches_back _ (by omega)
  · exact copy_overflows (by omega)
  · exact copy_reaches_back _ (by omega)
  · exact copy_reaches_back _ (by omega)
  · exact copy_overflows (by omega)
  · exact copy_overflows (by omega)

/-! ## The tokens without output (R147, R149) -/

/-- Settles O24: the meaning of `ESC` is the state it finds. -/
theorem escHasNoEffect : Obligations.EscHasNoEffect := fun _ _ _ => rfl

/-- Settles O25: the meaning of `END` is `enterReloc`. -/
theorem endStartsTheRelocationDecoder : Obligations.EndStartsTheRelocationDecoder := fun _ _ _ => rfl

end Sys2Proof.Machine
end

section
/-! PROOFS. The code stream (`42_code_tokens.md`): a step runs the token that the pure decoder reads (R141), and a
stream of literals reproduces its bytes (R154). -/

namespace Sys2Proof.Machine

/-! ## A reader that follows another -/

section Dispatch

variable {σ τ ε δ : Type} {R : σ → τ → Prop}
  {bit : σ → Except ε (Bool × σ)} {byte : σ → Except ε (Byte × σ)}
  {bit' : τ → Except δ (Bool × τ)} {byte' : τ → Except δ (Byte × τ)}

/-- From positions related by `R`, a read that the second reader does is done by the first one too, with the same
value, and the positions after it are related again. Of reads that the second reader does not do nothing is said, where
`ReadsAlike` has both fail. -/
def Follows {α : Type} (R : σ → τ → Prop) (read : σ → Except ε (α × σ)) (read' : τ → Except δ (α × τ)) : Prop :=
  ∀ {s p a q}, R s p → read' p = .ok (a, q) → ∃ t, read s = .ok (a, t) ∧ R t q

theorem readLongCopy_follows (hbyte : Follows R byte byte') :
    Follows R (readLongCopy byte) (readLongCopy byte') := by
  intro s p i q hs h
  unfold readLongCopy at h
  split at h
  · cases h
  · rename_i lo p1 h1
    obtain ⟨s1, e1, hs1⟩ := hbyte hs h1
    split at h
    · cases h
    · rename_i hi p2 h2
      obtain ⟨s2, e2, hs2⟩ := hbyte hs1 h2
      dsimp only at h
      split at h
      · rename_i hc
        cases h
        exact ⟨s2, by simp only [readLongCopy, e1, e2, if_pos hc], hs2⟩
      · rename_i hc
        split at h
        · cases h
        · rename_i x p3 h3
          obtain ⟨s3, e3, hs3⟩ := hbyte hs2 h3
          simp only [readLongCopy, e1, e2, if_neg hc, e3]
          split_ifs at h ⊢ <;> cases h <;> exact ⟨s3, rfl, hs3⟩

theorem readShortCopy_follows (hbit : Follows R bit bit') (hbyte : Follows R byte byte') :
    Follows R (readShortCopy bit byte) (readShortCopy bit' byte') := by
  intro s p i q hs h
  unfold readShortCopy at h
  split at h
  · cases h
  · rename_i c1 p1 h1
    obtain ⟨s1, e1, hs1⟩ := hbit hs h1
    split at h
    · cases h
    · rename_i c0 p2 h2
      obtain ⟨s2, e2, hs2⟩ := hbit hs1 h2
      split at h
      · cases h
      · rename_i db p3 h3
        obtain ⟨s3, e3, hs3⟩ := hbyte hs2 h3
        cases h
        exact ⟨s3, by simp only [readShortCopy, e1, e2, e3], hs3⟩

/-- The dispatch of the code stream follows where its reads follow (R141). -/
theorem readCodeToken_follows (hbit : Follows R bit bit') (hbyte : Follows R byte byte') :
    Follows R (readCodeToken bit byte) (readCodeToken bit' byte') := by
  intro s p i q hs h
  unfold readCodeToken at h
  split at h
  · cases h
  · rename_i p1 h1
    obtain ⟨s1, e1, hs1⟩ := hbit hs h1
    split at h
    · cases h
    · rename_i b p2 h2
      obtain ⟨s2, e2, hs2⟩ := hbyte hs1 h2
      cases h
      exact ⟨s2, by simp only [readCodeToken, e1, e2], hs2⟩
  · rename_i p1 h1
    obtain ⟨s1, e1, hs1⟩ := hbit hs h1
    split at h
    · cases h
    · rename_i p2 h2
      obtain ⟨s2, e2, hs2⟩ := hbit hs1 h2
      obtain ⟨t, et, ht⟩ := readLongCopy_follows hbyte hs2 h
      exact ⟨t, by simp only [readCodeToken, e1, e2, et], ht⟩
    · rename_i p2 h2
      obtain ⟨s2, e2, hs2⟩ := hbit hs1 h2
      obtain ⟨t, et, ht⟩ := readShortCopy_follows hbit hbyte hs2 h
      exact ⟨t, by simp only [readCodeToken, e1, e2, et], ht⟩

end Dispatch

/-! ## The fetch follows the pure decoder (R141) -/

/-- The bit reader stands at a position of the pure decoder whose bytes are those of `SRC` up to `limit`. The limit
may lie below `PAY_LIMIT`: then the decoder runs out of bytes where the block reads on. -/
def codeReaderWithin (limit : Nat) (s : State) (p : CodePos) : Prop :=
  limit ≤ s.payLimit ∧ s.bitBuf = p.buf ∧ s.bitCnt = p.cnt ∧ bytesAhead s s.cur limit p.bytes

theorem nextBit_follows (limit : Nat) : Follows (codeReaderWithin limit) nextBit posBit := by
  intro s p b q hs h
  obtain ⟨buf, cnt, bytes⟩ := p
  obtain ⟨hle, rfl, rfl, hahead⟩ := hs
  by_cases hdue : s.bitCnt = 1
  · obtain ⟨-, hshort⟩ | ⟨lo, hi, rest, rfl, hl, hw, hrest⟩ := bytesAhead_word hahead
    · rw [hdue, posBit_short _ hshort] at h
      cases h
    · rw [hdue, posBit_refill] at h
      cases h
      exact ⟨_, nextBit_refill hdue (hl.trans hle) hw, hle, rfl, rfl, bytesAhead_congr hrest rfl rfl⟩
  · rw [posBit_shift _ hdue] at h
    cases h
    exact ⟨_, nextBit_shift hdue, hle, rfl, rfl, bytesAhead_congr hahead rfl rfl⟩

theorem nextByte_follows (limit : Nat) : Follows (codeReaderWithin limit) nextByte posByte := by
  intro s p b q hs h
  obtain ⟨buf, cnt, bytes⟩ := p
  obtain ⟨hle, hbuf, hcnt, hahead⟩ := hs
  obtain ⟨-, rfl⟩ | ⟨b', rest, rfl, hl, hb, hrest⟩ := bytesAhead_byte hahead
  · cases h
  · cases h
    exact ⟨_, nextByte_read (hl.trans hle) hb, hle, hbuf, hcnt, bytesAhead_congr hrest rfl rfl⟩

/-- Where the pure decoder reads a token the block fetches it, and only its bit reader moves, to the decoder's
position (R141). -/
theorem fetchCode_follows {limit : Nat} {s : State} {p q : CodePos} {i : Instr} (hs : codeReaderWithin limit s p)
    (h : decodeCode p = .ok (i, q)) :
    ∃ t, fetchCode s = .ok (i, t) ∧ codeReaderWithin limit t q ∧
      t = { s with bitBuf := q.buf, bitCnt := q.cnt, cur := limit - q.bytes.length } := by
  obtain ⟨t, ht, hwithin⟩ := readCodeToken_follows (nextBit_follows limit) (nextByte_follows limit) hs h
  have ⟨_, hbuf, hcnt, hahead⟩ := hwithin
  have hlen := bytesAhead_length hahead
  obtain ⟨⟨hframe, -⟩, -⟩ := fetchCode_ok ht
  have hcur : t.cur = limit - q.bytes.length := by omega
  exact ⟨t, ht, hwithin, by rw [← hbuf, ← hcnt, ← hcur]; exact hframe⟩

/-- `BRD.INIT` where the payload has a first word (R131). -/
theorem initBits_read {s : State} {w : Word} (hl : s.payBase + 2 ≤ s.payLimit) (hw : srcRead16 s s.payBase = .ok w) :
    initBits s = .ok { s with cur := s.payBase + 2, bitBuf := w, bitCnt := 16 } := by
  have hfetch := fetch16_read raised (s := { s with cur := s.payBase }) hl hw
  simp only [initBits, hfetch]

/-- `BRD.INIT` starts the bit reader at the first position of the pure decoder (R131). -/
theorem initBits_follows {limit : Nat} {s : State} {bs : List Byte} {p : CodePos} (hle : limit ≤ s.payLimit)
    (hahead : bytesAhead s s.payBase limit bs) (h : posInit bs = .ok p) :
    ∃ t, initBits s = .ok t ∧ codeReaderWithin limit t p := by
  obtain ⟨-, hshort⟩ | ⟨lo, hi, rest, rfl, hl, hw, hrest⟩ := bytesAhead_word hahead
  · match bs, hshort with
    | [], _ => cases h
    | [_], _ => cases h
  · cases h
    exact ⟨_, initBits_read (hl.trans hle) hw, hle, rfl, rfl, bytesAhead_congr hrest rfl rfl⟩

/-! ## One step (R140, R141, R160) -/

/-- Settles O31: with no host move pending, the step is the block's own, by its phase. -/
theorem stepRunsTheFetchedToken : Obligations.StepRunsTheFetchedToken := by
  refine fun s t i hbox => ⟨fun hp hf => ?_, fun hp hf => ?_⟩
  · rw [step_of_inbox_nil hbox, blockStep_sCode hp, hf, runFetched]
  · rw [step_of_inbox_nil hbox, blockStep_sRel hp, hf, runFetched]

theorem step_of_fetchCode {s t : State} {i : Instr} (hbox : s.inbox = []) (hp : s.phase = .sCode)
    (hf : fetchCode s = .ok (i, t)) : step s = exec i t := by
  obtain ⟨hcode, -⟩ := stepRunsTheFetchedToken s t i hbox
  exact hcode hp hf

/-- Settles O32: here the decoder's bytes end at `PAY_LIMIT` itself. -/
theorem stepRunsTheCodeTokenAtCur : Obligations.StepRunsTheCodeTokenAtCur := by
  intro s bs i p hbox hp hle hr hd
  obtain ⟨t, hf, -, rfl⟩ := fetchCode_follows (limit := s.payLimit) ⟨le_refl _, rfl, rfl, hle, hr⟩ hd
  exact step_of_fetchCode hbox hp hf

/-! ## A stream of literals (R154) -/

theorem withinCap_mono {a b : Nat} {cap : Option Nat} (hab : a ≤ b) (h : withinCap b cap = true) :
    withinCap a cap = true := by
  cases cap with
  | none => rfl
  | some c => simp only [withinCap, decide_eq_true_eq] at h ⊢; omega

/-- A run of any machine takes a step that answers a next state, then runs on. -/
theorem run_succ_of_step (M : Host.Core) {s t : M.State} (k : Nat) (h : M.step s = .next t) :
    M.run (k + 1) s = M.run k t := by
  simp only [Host.Core.run, h]

theorem runSteps_succ {s t : State} (k : Nat) (h : step s = .next t) : runSteps (k + 1) s = runSteps k t :=
  run_succ_of_step Sys2Proof.core k h

/-- The block runs the code stream with the items `es` ahead, their bytes ending at `limit`, after `n` control bits;
`OUT` is a segment (R63, R140). -/
def codeLoopAt (limit n : Nat) (es : List Item) (s : State) : Prop :=
  s.inbox = [] ∧ s.phase = .sCode ∧ codeReaderWithin limit s (posAt [] n es) ∧ covers s.out s.olen

/-- A step of the loop is the token whose items are ahead; the fetch before it leaves the loop past them, with `OUT`
and its length as they were. -/
theorem codeLoopAt_step {limit n : Nat} {es : List Item} {s : State} {i : Instr} (hwf : wellFormed i = true)
    (hst : streamOf i = .code) (h : codeLoopAt limit n (itemsOf i ++ es) s) :
    ∃ t, step s = exec i t ∧ codeLoopAt limit (n + (controlBits i).length) es t ∧ t.out = s.out ∧
      t.olen = s.olen ∧ t.outCap = s.outCap := by
  obtain ⟨hbox, hp, hreader, hcov⟩ := h
  obtain ⟨_, hf, hwithin, rfl⟩ := fetchCode_follows hreader (decodeCode_posAt hwf hst [] n es)
  exact ⟨_, step_of_fetchCode hbox hp hf, ⟨hbox, hp, hwithin, hcov⟩, rfl, rfl, rfl⟩

/-- An append leaves the loop where it stood. -/
theorem codeLoopAt_pushOut {limit n : Nat} {es : List Item} {s : State} (h : codeLoopAt limit n es s) (v : Byte) :
    codeLoopAt limit n es (pushOut s v) := by
  obtain ⟨hbox, hp, ⟨hle, hbuf, hcnt, hahead⟩, hcov⟩ := h
  exact ⟨hbox, hp, ⟨hle, hbuf, hcnt, bytesAhead_congr hahead rfl rfl⟩, covers_memWrite hcov v⟩

/-- The loop over literals and the terminator appends the literal bytes and leaves for `S_REL` (R143, R149, R154). -/
theorem literals_run (limit : Nat) (lo : Byte) (hi5 : BitVec 5) (bs : List Byte) : ∀ (n : Nat) (s : State),
    codeLoopAt limit n ((bs.map Instr.lit ++ [Instr.endCode lo hi5]).flatMap itemsOf) s →
    withinCap (s.olen + bs.length) s.outCap = true →
    ∃ t, runSteps (bs.length + 1) s = .next t ∧ t.phase = .sRel ∧ t.olen = s.olen + bs.length ∧
      covers t.out t.olen ∧ t.out.map Prod.snd = s.out.map Prod.snd ++ bs := by
  induction bs with
  | nil =>
    intro n s h _
    obtain ⟨t, hstep, ⟨-, -, -, hcov⟩, hout, holen, -⟩ :=
      codeLoopAt_step (i := .endCode lo hi5) (es := []) rfl rfl h
    exact ⟨enterReloc t, runSteps_succ 0 hstep, rfl, holen, hcov, by rw [enterReloc_out, hout, List.append_nil]⟩
  | cons b bs ih =>
    intro n s h hcap
    simp only [List.length_cons] at hcap ⊢
    obtain ⟨t, hstep, hloop, hout, holen, hcapEq⟩ := codeLoopAt_step (i := .lit b) rfl rfl h
    have ⟨_, _, _, hcov⟩ := hloop
    rw [← holen, ← hcapEq] at hcap
    have happend : step s = .next (pushOut t b) :=
      hstep.trans (append_fits (withinCap_mono (by omega) hcap))
    obtain ⟨u, hrun, hp, hlen, hcovu, hbytes⟩ := ih _ (pushOut t b) (codeLoopAt_pushOut hloop b)
      (by rwa [pushOut_olen, pushOut_outCap, Nat.add_assoc, Nat.add_comm 1])
    refine ⟨u, (runSteps_succ _ happend).trans hrun, hp, ?_, hcovu, ?_⟩
    · rw [hlen, pushOut_olen, holen]; omega
    · rw [hbytes, pushOut_out, covers_memWrite_eq hcov, hout]; simp

/-- The start of `DCE.RUN` on the payload of a code stream stands before all its items, with `OUT` empty (R131,
R140). -/
theorem enterCode_layoutCode {s : State} {is : List Instr} (hbox : s.inbox = [])
    (hl : s.payBase + (layoutCode is).length ≤ s.payLimit)
    (hr : srcReadRange s s.payBase (layoutCode is).length = .ok (layoutCode is)) :
    ∃ t, enterCode s = .ok t ∧ codeLoopAt (s.payBase + (layoutCode is).length) 0 (is.flatMap itemsOf) t ∧
      t.out = [] ∧ t.olen = 0 ∧ t.outCap = s.outCap := by
  have hahead : bytesAhead s s.payBase (s.payBase + (layoutCode is).length) (layoutCode is) :=
    ⟨Nat.le_add_right _ _, by rwa [Nat.add_sub_cancel_left]⟩
  have hpos := posInit_layoutCode is []
  rw [List.append_nil] at hpos
  obtain ⟨t, ht, hreader⟩ := initBits_follows (s := { s with phase := .sCode, olen := 0, out := [] }) hl
    (bytesAhead_congr hahead rfl rfl) hpos
  obtain ⟨-, w, -, rfl⟩ := initBits_ok ht
  exact ⟨_, ht, ⟨hbox, rfl, hreader, covers_nil⟩, rfl, rfl, rfl⟩

/-- Settles O60: the start of the code decoder on the layout, then the loop over its literals. -/
theorem literalStreamReproducesItsBytes : Obligations.LiteralStreamReproducesItsBytes := by
  intro s bs pl lo hi5 hbox hpl hl hr hcap
  subst hpl
  obtain ⟨s0, hstart, hloop, hout, holen, hcapEq⟩ := enterCode_layoutCode hbox hl hr
  obtain ⟨t, hrun, hp, hlen, hcov, hbytes⟩ := literals_run _ lo hi5 bs 0 s0 hloop
    (by rwa [holen, Nat.zero_add, hcapEq])
  rw [holen, Nat.zero_add] at hlen
  exact ⟨s0, t, hstart, hrun, hp, hlen, hlen ▸ hcov, by rw [hbytes, hout]; rfl⟩

end Sys2Proof.Machine
end

section
/-! PROOFS. The relocation tokens (`43_reloc_tokens.md`): `ADD` and `EMIT` by their checks, the tokens that are one of
them with their deltas, the order of the emitted values, and the step that runs a token. -/

namespace Sys2Proof.Machine

/-! ## `ADD` (R162) -/

/-- A sum that fits 20 bits goes to `ACC` alone (R162). -/
theorem accumulate_adds {x : Nat} {s : State} (hfit : s.acc.toNat + x ≤ accMax) :
    ∃ t, accumulate x s = .next t ∧ t.acc.toNat = s.acc.toNat + x ∧ t = { s with acc := t.acc } := by
  have ht : accumulate x s = .next { s with acc := BitVec.ofNat 20 (s.acc.toNat + x) } := if_neg (not_lt.2 hfit)
  exact ⟨_, ht, toNat_ofNat_of_le_accMax hfit, rfl⟩

theorem accumulate_overflows {x : Nat} {s : State} (hover : accMax < s.acc.toNat + x) :
    ∃ t, accumulate x s = .next t ∧ faulted t 5 4 ∧ faultKeeps s t := by
  have ht : accumulate x s = .next (raiseToken .relocOverflow .rtd s) := if_pos hover
  exact ⟨_, ht, faulted_raiseToken .relocOverflow .rtd s, faultKeeps_raiseToken _ _ s⟩

/-! ## `ADD` then `EMIT` (R162, R167, R220) -/

/-- A sum that fits 20 bits is appended to `REL` where its capacity allows (R162, R167). -/
theorem accumulateEmit_emits {x : Nat} {s : State} (hfit : s.acc.toNat + x ≤ accMax)
    (hc : withinCap (s.rcount + 1) s.relCap = true) :
    ∃ t, accumulateEmit x s = .next t ∧ emitted x s t := by
  rw [accumulateEmit, if_neg (not_lt.2 hfit), hc, Bool.not_true, if_neg Bool.false_ne_true]
  exact ⟨_, rfl, toNat_ofNat_of_le_accMax hfit, rfl, memRead_memWrite_self _ _ _,
    fun _ ha => memRead_memWrite_ne _ _ ha, rfl⟩

/-- The check of the sum comes first: it traps whatever the capacity (R220). -/
theorem accumulateEmit_reloc_overflows {x : Nat} {s : State} (hover : accMax < s.acc.toNat + x) :
    ∃ t, accumulateEmit x s = .next t ∧ faulted t 5 4 ∧ faultKeeps s t := by
  have ht : accumulateEmit x s = .next (raiseToken .relocOverflow .rtd s) := if_pos hover
  exact ⟨_, ht, faulted_raiseToken .relocOverflow .rtd s, faultKeeps_raiseToken _ _ s⟩

/-- A sum that fits past the capacity traps before `ACC` is written (R215, R220, log entry 10). -/
theorem accumulateEmit_output_overflows {x : Nat} {s : State} (hfit : s.acc.toNat + x ≤ accMax)
    (hc : withinCap (s.rcount + 1) s.relCap = false) :
    ∃ t, accumulateEmit x s = .next t ∧ faulted t 4 4 ∧ faultKeeps s t := by
  have ht : accumulateEmit x s = .next (raiseToken .outputOverflow .rtd s) := by
    rw [accumulateEmit, if_neg (not_lt.2 hfit), hc, Bool.not_false, if_pos rfl, raisedToken]
  exact ⟨_, ht, faulted_raiseToken .outputOverflow .rtd s, faultKeeps_raiseToken _ _ s⟩

/-! ## The meanings of the tokens (R163 to R166) -/

theorem exec_rdb_eq (b : Byte) (s : State) : exec (.rdb b) s = accumulateEmit b.toNat s := rfl

theorem exec_rdw_eq (w : Word) (s : State) : exec (.rdw w) s = accumulateEmit w.toNat s := rfl

theorem exec_resc_eq (s : State) : exec .resc s = accumulate 0xFFF s := rfl

/-- Settles O26: both tokens are `ADD` then `EMIT` of their deltas. -/
theorem rdbAndRdwEmitTheSum : Obligations.RdbAndRdwEmitTheSum := by
  intro b w s hc
  rw [exec_rdb_eq, exec_rdw_eq]
  exact ⟨fun hfit => accumulateEmit_emits hfit hc, fun hfit => accumulateEmit_emits hfit hc⟩

/-- Settles O27: `RESC` is `ADD` alone. -/
theorem rescAddsWithoutEmitting : Obligations.RescAddsWithoutEmitting := by
  intro s hfit
  rw [exec_resc_eq]
  exact accumulate_adds hfit

/-- Settles O28: the meaning of `REND` is `enterRegs`. -/
theorem rendEndsTheRelocationDecoder : Obligations.RendEndsTheRelocationDecoder := fun _ => rfl

/-- Settles O29: the traps of `ADD` and of `EMIT`, in their order. -/
theorem relocTokensTrap : Obligations.RelocTokensTrap := by
  intro b w s
  rw [exec_rdb_eq, exec_rdw_eq, exec_resc_eq]
  refine ⟨accumulateEmit_reloc_overflows, accumulateEmit_reloc_overflows, accumulate_overflows, fun hc => ⟨?_, ?_⟩⟩
  · exact fun hfit => accumulateEmit_output_overflows hfit hc
  · exact fun hfit => accumulateEmit_output_overflows hfit hc

/-! ## The emitted values rise (R169) -/

/-- `ACC` does not decrease, and an entry is emitted only of a value greater than `ACC` was (R162, R167, R169). -/
def relocProgress (s t : State) : Prop :=
  s.acc.toNat ≤ t.acc.toNat ∧
  ((t.rcount = s.rcount ∧ t.rel = s.rel) ∨
    (t.rcount = s.rcount + 1 ∧ memRead t.rel s.rcount = some t.acc ∧ s.acc.toNat < t.acc.toNat))

/-- An entry of a positive delta is greater than `ACC` was. -/
theorem relocProgress_of_emitted {x : Nat} {s t : State} (hx : 0 < x) (h : emitted x s t) : relocProgress s t := by
  obtain ⟨hacc, hcount, hread, -, -⟩ := h
  exact ⟨by omega, .inr ⟨hcount, hread, by omega⟩⟩

/-- A fault keeps `ACC` and the entries, whatever it is (R215). -/
theorem relocProgress_raiseToken (k : FaultKind) (u : UnitId) (s : State) : relocProgress s (raiseToken k u s) :=
  ⟨le_refl _, .inl ⟨raiseToken_rcount k u s, raiseToken_rel k u s⟩⟩

theorem relocProgress_accumulateEmit {x : Nat} {s t : State} (hx : 0 < x) (h : accumulateEmit x s = .next t) :
    relocProgress s t := by
  obtain ⟨-, rfl⟩ | ⟨-, -, rfl⟩ | ⟨hfit, hc, -⟩ := accumulateEmit_next h
  · exact relocProgress_raiseToken _ _ s
  · exact relocProgress_raiseToken _ _ s
  · obtain ⟨t', ht', hemitted⟩ := accumulateEmit_emits hfit hc
    cases h.symm.trans ht'
    exact relocProgress_of_emitted hx hemitted

theorem relocProgress_accumulate {x : Nat} {s t : State} (h : accumulate x s = .next t) : relocProgress s t := by
  obtain ⟨-, rfl⟩ | ⟨hfit, rfl⟩ := accumulate_next h
  · exact relocProgress_raiseToken _ _ s
  · exact ⟨(Nat.le_add_right _ x).trans (toNat_ofNat_of_le_accMax hfit).ge, .inl ⟨rfl, rfl⟩⟩

/-- The delta of a well-formed `RDB` is not 0 (R96, R163). -/
theorem rdb_delta_pos {b : Byte} (hwf : wellFormed (.rdb b) = true) : 0 < b.toNat := by
  have hb : b ≠ 0 := by simpa [wellFormed] using hwf
  exact Nat.pos_of_ne_zero fun e => hb (BitVec.eq_of_toNat_eq e)

/-- The delta of a well-formed `RDW` is not 0 (R97, R164). -/
theorem rdw_delta_pos {w : Word} (hwf : wellFormed (.rdw w) = true) : 0 < w.toNat := by
  have hw : 2 ≤ w.toNat := by simpa [wellFormed] using hwf
  omega

theorem exec_reloc_progress {i : Instr} {s t : State} (hst : streamOf i = .reloc) (hwf : wellFormed i = true)
    (h : exec i s = .next t) : relocProgress s t := by
  cases i with
  | rdb b => exact relocProgress_accumulateEmit (rdb_delta_pos hwf) h
  | rdw w => exact relocProgress_accumulateEmit (rdw_delta_pos hwf) h
  | resc => exact relocProgress_accumulate ((exec_resc_eq s).symm.trans h)
  | rend => cases h; exact ⟨le_refl _, .inl ⟨rfl, rfl⟩⟩
  | lit b => cases hst
  | scopy c db => cases hst
  | lcopy lo hi5 c => cases hst
  | endCode lo hi5 => cases hst
  | esc lo hi5 => cases hst
  | lcopyx lo hi5 e => cases hst

/-- Settles O30: the token's own rise, and the order of the entries, which every token keeps. -/
theorem emittedValuesIncrease : Obligations.EmittedValuesIncrease := by
  intro i s t hst hwf h
  obtain ⟨hacc, hentry⟩ := exec_reloc_progress hst hwf h
  exact ⟨hacc, hentry, fun hc hrise hbelow => exec_reloc_keeps_order hst hwf hc hrise hbelow h⟩

/-! ## One step (R160, R161) -/

/-- Where the second of two reads that end alike delivers a value, the first delivers it too. -/
theorem ReadsAlike.ok_of_ok {α σ τ ε δ : Type} {R : σ → τ → Prop} {E : ε → Prop} {x : Except ε (α × σ)} {a : α}
    {p : τ} (h : ReadsAlike (δ := δ) R E x (.ok (a, p))) : ∃ s, x = .ok (a, s) ∧ R s p := by
  cases h with
  | done hs => exact ⟨_, rfl, hs⟩

/-- Where the pure decoder reads a relocation token the block fetches it, and only `RCUR` moves, to the decoder's
position (R160). -/
theorem fetchReloc_of_decodeReloc {s : State} {bs rest : List Byte} {i : Instr} (hs : relocReaderAt s bs)
    (hd : decodeReloc bs = .ok (i, rest)) :
    fetchReloc s = .ok (i, { s with rcur := s.relLimit - rest.length }) := by
  have halike := fetchReloc_alike hs
  rw [hd] at halike
  obtain ⟨t, ht, hahead⟩ := halike.ok_of_ok
  obtain ⟨⟨hframe, -⟩, -⟩ := fetchReloc_ok ht
  have hlen : t.rcur + rest.length = t.relLimit := bytesAhead_length hahead
  have hlimit : t.relLimit = s.relLimit := by rw [hframe]
  have hrcur : t.rcur = s.relLimit - rest.length := by omega
  rw [ht, hframe, hrcur]

/-- Settles O33: the step is `exec` of the fetched token, which is the decoder's. -/
theorem stepRunsTheRelocTokenAtRcur : Obligations.StepRunsTheRelocTokenAtRcur := by
  intro s bs rest i hbox hp hle hr hd
  obtain ⟨-, hreloc⟩ := stepRunsTheFetchedToken s _ i hbox
  exact hreloc hp (fetchReloc_of_decodeReloc ⟨hle, hr⟩ hd)

end Sys2Proof.Machine
end

section
/-! PROOFS. The header reconstructor (`44_header_reconstructor.md`): its computed fields, the exact bounds within which
each of them fits its 16-bit slot, and the two ways phase `S_BUILD` ends. -/

namespace Sys2Proof.Machine

/-! ## The computed fields (R176 to R178) -/

/-- A field that fits its slot is stored whole (R181). -/
theorem toNat_word_of_le_fieldMax {v : Nat} (h : v ≤ fieldMax) : (BitVec.ofNat 16 v).toNat = v :=
  Nat.mod_eq_of_lt (Nat.lt_succ_of_le h)

/-- `last_page_bytes` fits whatever the length is (R181). -/
theorem lastPageOf_le (olen : Nat) : lastPageOf olen ≤ fieldMax := by
  simp only [lastPageOf, pageSize, fieldMax]
  omega

/-- `page_count` fits up to 65535 full pages (R176, R181). -/
theorem pagesOf_le_iff (olen : Nat) : pagesOf olen ≤ fieldMax ↔ olen ≤ 33553920 := by
  simp only [pagesOf, ceilDiv, pageSize, fieldMax]
  omega

/-- The division of R177 is exact: an entry has four bytes. -/
theorem relocItemsOf_entries (rcount : Nat) : relocItemsOf (relentLen * rcount) = rcount :=
  Nat.mul_div_cancel_left rcount (by decide)

/-- `header_paragraphs` fits wherever `relocation_item_count` does (R181). -/
theorem headerParasOf_entries_le {rcount : Nat} (h : rcount ≤ fieldMax) :
    headerParasOf (relentLen * rcount) ≤ fieldMax := by
  simp only [headerParasOf, ceilDiv, hdrLen, relentLen, paraSize, fieldMax] at h ⊢
  omega

/-- Every field fits its slot exactly up to the bounds of R181; `header_paragraphs` adds none of its own. -/
theorem fieldsOverflow_eq_false_iff (olen rcount : Nat) :
    fieldsOverflow olen (relentLen * rcount) = false ↔ olen ≤ 33553920 ∧ rcount ≤ 65535 := by
  have hsplit : fieldsOverflow olen (relentLen * rcount) = false ↔
      (pagesOf olen ≤ fieldMax ∧ rcount ≤ fieldMax) ∧ headerParasOf (relentLen * rcount) ≤ fieldMax := by
    simp only [fieldsOverflow, relocItemsOf_entries, Bool.or_eq_false_iff, decide_eq_false_iff_not, not_lt]
  rw [hsplit, pagesOf_le_iff]
  exact ⟨And.left, fun ⟨holen, hcount⟩ => ⟨⟨holen, hcount⟩, headerParasOf_entries_le hcount⟩⟩

/-! ## `HRC.BUILD` (R175, R181) -/

theorem buildHeader_fits {s : State} (holen : s.olen ≤ 33553920) (hcount : s.rcount ≤ 65535) :
    buildHeader s =
      .ok { s with hout := newHeader s.hin.minalloc s.hin.maxalloc s.olen (relentLen * s.rcount) s.ep } := by
  rw [buildHeader, (fieldsOverflow_eq_false_iff _ _).2 ⟨holen, hcount⟩, if_neg Bool.false_ne_true]

theorem buildHeader_overflows {s : State} (h : 33553920 < s.olen ∨ 65535 < s.rcount) :
    buildHeader s = .error (raised .fieldOverflow .hrc s) := by
  have hover : fieldsOverflow s.olen (relentLen * s.rcount) = true := by
    rw [← Bool.not_eq_false, fieldsOverflow_eq_false_iff]
    omega
  exact if_pos hover

/-! ## Phase `S_BUILD` -/

/-- The step of phase `S_BUILD` with no host move pending, where every field fits. -/
theorem step_sBuild_fits {s : State} (hbox : s.inbox = []) (hphase : s.phase = .sBuild)
    (holen : s.olen ≤ 33553920) (hcount : s.rcount ≤ 65535) :
    step s = .next { s with
      hout := newHeader s.hin.minalloc s.hin.maxalloc s.olen (relentLen * s.rcount) s.ep, phase := .sEmit } := by
  rw [step_of_inbox_nil hbox, blockStep_sBuild hphase, stepBuild, buildHeader_fits holen hcount]

theorem step_sBuild_overflows {s : State} (hbox : s.inbox = []) (hphase : s.phase = .sBuild)
    (h : 33553920 < s.olen ∨ 65535 < s.rcount) : step s = .next (raise .fieldOverflow .hrc s) := by
  rw [step_of_inbox_nil hbox, blockStep_sBuild hphase, stepBuild, buildHeader_overflows h, raised]

/-- Settles O41: the four computed fields fit their slots; the others are constants or copies. -/
theorem newHeaderFields : Obligations.NewHeaderFields := by
  intro s hbox hphase holen hcount
  have hlast := toNat_word_of_le_fieldMax (lastPageOf_le s.olen)
  have hpages := toNat_word_of_le_fieldMax ((pagesOf_le_iff s.olen).2 holen)
  have hitems : (BitVec.ofNat 16 (relocItemsOf (relentLen * s.rcount))).toNat = s.rcount := by
    rw [relocItemsOf_entries, toNat_word_of_le_fieldMax hcount]
  have hparas := toNat_word_of_le_fieldMax (headerParasOf_entries_le hcount)
  exact ⟨_, step_sBuild_fits hbox hphase holen hcount, rfl, rfl, rfl, hlast, hpages, hitems, hparas,
    rfl, rfl, rfl, rfl, rfl, rfl, rfl, rfl, rfl⟩

/-- Settles O42: past either bound the step is the fault entry of `HRC.BUILD`, which keeps the input. -/
theorem fieldOverflowPastItsBounds : Obligations.FieldOverflowPastItsBounds := by
  intro s hbox hphase h
  exact ⟨_, step_sBuild_overflows hbox hphase h, faulted_raise .fieldOverflow .hrc s, inputKept_raise _ _ s⟩

end Sys2Proof.Machine
end

section
/-! PROOFS. The sequencer (`45_sequencer.md`): what phases `S_HDR`, `S_REGS` and `S_EMIT` answer (R191 to R196), the
order of the phases (R193), and `START` (R199). -/

namespace Sys2Proof.Machine

/-! ## Phase `S_HDR`: the header (R120) -/

theorem deserHeader_read {s : State} {bs : List Byte} {hd : Header} (hn : hdrLen ≤ s.n)
    (hr : srcReadRange s 0 hdrLen = .ok bs) (hp : parseHeader bs = some hd) :
    deserHeader s = .ok { s with hin := hd } := by
  rw [deserHeader, if_neg (by omega), hr]
  simp only [hp]

/-! ## Phase `S_HDR`: the regions (R191, R194) -/

/-- The loader offset never lies below the payload: `cs` is a word without a sign (R191). -/
theorem payloadStart_le_loaderOff (hd : Header) : payloadStart hd ≤ loaderOff hd := by
  simp only [payloadStart, loaderOff, paraSize]
  omega

/-- The register block ends before the relocation payload starts, so one bound decides the checks (R194). -/
theorem checkRegions_outside {s : State} (h : s.n < loaderOff s.hin + relTableOff) :
    checkRegions s = .error (raised .malformedHeader .seq s) := by
  have hpay := payloadStart_le_loaderOff s.hin
  rw [checkRegions, if_neg (by omega), if_pos h, ite_self]

theorem checkRegions_fits {s : State} (h : loaderOff s.hin + relTableOff ≤ s.n) :
    checkRegions s = .ok (deriveRegions s) := by
  have hpay := payloadStart_le_loaderOff s.hin
  have hregs : loaderOff s.hin + regblkLen ≤ s.n := by
    simp only [regblkLen, relTableOff] at h ⊢
    omega
  rw [checkRegions, if_neg (by omega), if_neg (by omega), if_neg (by omega)]

theorem stepHdr_outside {s : State} {hd : Header} (hs : deserHeader s = .ok { s with hin := hd })
    (h : s.n < loaderOff hd + relTableOff) :
    stepHdr s = raised .malformedHeader .seq { s with hin := hd } := by
  have hcheck := checkRegions_outside (s := { s with hin := hd }) h
  simp only [stepHdr, hs, hcheck]

theorem stepHdr_fits {s : State} {hd : Header} (hs : deserHeader s = .ok { s with hin := hd })
    (h : loaderOff hd + relTableOff ≤ s.n) :
    stepHdr s = finish (enterCode (deriveRegions { s with hin := hd })) := by
  have hcheck := checkRegions_fits (s := { s with hin := hd }) h
  simp only [stepHdr, hs, hcheck]

/-! ## Phase `S_HDR`: the start of the code decoder (R131, R140) -/

theorem initBits_short {s : State} (hl : s.payLimit < s.payBase + 2) :
    initBits s = .error (raised .truncatedStream .dce { s with cur := s.payBase }) := by
  have hfetch := fetch16_short raised (s := { s with cur := s.payBase }) hl
  simp only [initBits, hfetch]

theorem initBits_stops {s : State} {f : Fault} (hl : s.payBase + 2 ≤ s.payLimit)
    (hf : srcRead16 s s.payBase = .error f) : initBits s = .error (.fault f) := by
  have hread : srcRead16 { s with cur := s.payBase } s.payBase = .error f := hf
  rw [initBits, fetch16, if_neg (by dsimp only; omega), hread]

/-- The state from which the code decoder reads its first control word: the regions of the header `hd`, `CUR` at the
start of the payload (R131, R140, R191). -/
def codeEntry (hd : Header) (s : State) : State :=
  { deriveRegions { s with hin := hd } with phase := .sCode, olen := 0, out := [], cur := payloadStart hd }

theorem stepHdr_shortPayload {s : State} {hd : Header} (hs : deserHeader s = .ok { s with hin := hd })
    (hfit : loaderOff hd + relTableOff ≤ s.n) (hshort : loaderOff hd < payloadStart hd + 2) :
    stepHdr s = raised .truncatedStream .dce (codeEntry hd s) := by
  rw [stepHdr_fits hs hfit, enterCode, initBits_short hshort, finish]
  rfl

theorem stepHdr_stops {s : State} {hd : Header} {f : Fault} (hs : deserHeader s = .ok { s with hin := hd })
    (hfit : loaderOff hd + relTableOff ≤ s.n) (hpay : payloadStart hd + 2 ≤ loaderOff hd)
    (hf : srcRead16 s (payloadStart hd) = .error f) : stepHdr s = .fault f := by
  rw [stepHdr_fits hs hfit, enterCode, initBits_stops hpay hf, finish]

theorem stepHdr_starts {s : State} {hd : Header} {w : Word} (hs : deserHeader s = .ok { s with hin := hd })
    (hfit : loaderOff hd + relTableOff ≤ s.n) (hpay : payloadStart hd + 2 ≤ loaderOff hd)
    (hw : srcRead16 s (payloadStart hd) = .ok w) : stepHdr s = .next (codeStart hd w s) := by
  rw [stepHdr_fits hs hfit, enterCode, initBits_read hpay hw, finish]
  rfl

theorem step_sHdr {s : State} (hbox : s.inbox = []) (hphase : s.phase = .sHdr) : step s = stepHdr s := by
  rw [step_of_inbox_nil hbox, blockStep_sHdr hphase]

/-- Settles O38: the start of the relocation payload, the farther of the two, decides; the step ends in the fault entry
of the region checks. -/
theorem regionsPastTheInputAreMalformed : Obligations.RegionsPastTheInputAreMalformed := by
  intro s bs hd hbox hphase hn hr hp hpast
  have hout : s.n < loaderOff hd + relTableOff := by
    simp only [loaderOff, paraSize, relTableOff]
    omega
  have hstep := (step_sHdr hbox hphase).trans (stepHdr_outside (deserHeader_read hn hr hp) hout)
  exact ⟨_, hstep, faulted_raise .malformedHeader .seq _, inputKept_raise _ _ { s with hin := hd }⟩

/-- Settles O39: the regions fit, so the step ends as `BRD.INIT` does on the first word of the payload. -/
theorem headerStepStartsTheCodeStream : Obligations.HeaderStepStartsTheCodeStream := by
  rintro s bs hd _ _ hbox hphase hn hr hp rfl rfl hfit
  have hs := deserHeader_read hn hr hp
  refine ⟨fun hshort => ?_, fun lo hi hpay hlo hhi => ?_⟩
  · have hstep := (step_sHdr hbox hphase).trans (stepHdr_shortPayload hs hfit hshort)
    exact ⟨_, hstep, faulted_raise .truncatedStream .dce _, inputKept_raise _ _ (codeEntry hd s)⟩
  · have hw : srcRead16 s (payloadStart hd) = .ok (le16 lo hi) := srcRead16_of_mem (by
      simp only [payloadStart, paraSize]
      omega) hlo hhi
    exact ⟨le16 lo hi, le16_toNat lo hi, (step_sHdr hbox hphase).trans (stepHdr_starts hs hfit hpay hw)⟩

/-! ## Phase `S_REGS` (R195) -/

/-- The first two of the bytes ahead are the word at the address (R62). -/
theorem bytesAhead_cons_cons {s : State} {a limit : Nat} {lo hi : Byte} {bs : List Byte}
    (h : bytesAhead s a limit (lo :: hi :: bs)) :
    srcRead16 s a = .ok (le16 lo hi) ∧ bytesAhead s (a + 2) limit bs := by
  obtain ⟨hlo, hrest⟩ := bytesAhead_cons h
  obtain ⟨hhi, hrest⟩ := bytesAhead_cons hrest
  exact ⟨srcRead16_of_bytes hlo hhi, hrest⟩

theorem stepRegs_read {s : State} {ip cs sp ss : Word} (hip : srcRead16 s s.regBase = .ok ip)
    (hcs : srcRead16 s (s.regBase + 2) = .ok cs) (hsp : srcRead16 s (s.regBase + 4) = .ok sp)
    (hss : srcRead16 s (s.regBase + 6) = .ok ss) :
    stepRegs s = .next { s with ep := { ip := ip, cs := cs, sp := sp, ss := ss }, phase := .sBuild } := by
  rw [stepRegs, hip, hcs, hsp, hss]

/-- Settles O40: the eight bytes are read as four words, one after another. -/
theorem registerBlockIsReadInOrder : Obligations.RegisterBlockIsReadInOrder := by
  intro s b0 b1 b2 b3 b4 b5 b6 b7 hbox hphase _ hr
  have hahead : bytesAhead s s.regBase (s.regBase + 8) [b0, b1, b2, b3, b4, b5, b6, b7] :=
    ⟨Nat.le_add_right _ _, by rwa [Nat.add_sub_cancel_left]⟩
  obtain ⟨hip, hahead⟩ := bytesAhead_cons_cons hahead
  obtain ⟨hcs, hahead⟩ := bytesAhead_cons_cons hahead
  obtain ⟨hsp, hahead⟩ := bytesAhead_cons_cons hahead
  obtain ⟨hss, -⟩ := bytesAhead_cons_cons hahead
  have hstep := (step_of_inbox_nil hbox).trans ((blockStep_sRegs hphase).trans (stepRegs_read hip hcs hsp hss))
  exact ⟨_, hstep, rfl, le16_toNat b0 b1, le16_toNat b2 b3, le16_toNat b4 b5, le16_toNat b6 b7⟩

/-! ## Phase `S_EMIT` (R196) -/

section Segments

variable {α : Type}

/-- Several cells written from the covered length up append their values. -/
theorem values_memWriteList (xs : List α) : ∀ (m : Mem α) (len : Nat), covers m len →
    (memWriteList m len xs).map Prod.snd = m.map Prod.snd ++ xs := by
  induction xs with
  | nil => intro m len _; rw [memWriteList, List.append_nil]
  | cons x xs ih =>
    intro m len h
    rw [memWriteList, ih _ _ (covers_memWrite h x), covers_memWrite_eq h]
    simp

theorem values_memOfList (xs : List α) : (memOfList xs).map Prod.snd = xs :=
  values_memWriteList xs [] 0 covers_nil

/-- A segment is determined by its values. -/
theorem eq_memOfList_of_covers {m : Mem α} {len : Nat} (h : covers m len) : m = memOfList (m.map Prod.snd) := by
  have hlen : (m.map Prod.snd).length = len := by
    rw [List.length_map, ← List.length_map (f := Prod.fst), h, List.length_range]
  have haddrs : m.map Prod.fst = (memOfList (m.map Prod.snd)).map Prod.fst := by
    rw [h, covers_memOfList, hlen]
  exact (List.zip_of_prod haddrs rfl).trans (List.zip_of_prod rfl (values_memOfList _)).symm

theorem cellReadRange_of_cells (sp : Space) (m : Mem α) : ∀ (vs : List α) (a : Nat),
    (∀ (k : Nat) (h : k < vs.length), memRead m (a + k) = some vs[k]) →
    cellReadRange sp m a vs.length = .ok vs := by
  intro vs
  induction vs with
  | nil => intro a _; rfl
  | cons v vs ih =>
    intro a h
    have hv : memRead m a = some v := h 0 (Nat.succ_pos _)
    have hvs : cellReadRange sp m (a + 1) vs.length = .ok vs := ih (a + 1) fun k hk => by
      have hcell := h (k + 1) (Nat.succ_lt_succ hk)
      rwa [← Nat.add_assoc, Nat.add_right_comm] at hcell
    simp only [List.length_cons, cellReadRange, cellRead, hv, hvs]

/-- A segment read whole gives its values, in ascending order of the addresses. -/
theorem cellReadRange_segment (sp : Space) {m : Mem α} {len : Nat} (h : covers m len) :
    cellReadRange sp m 0 len = .ok (m.map Prod.snd) := by
  have hlen : len = (m.map Prod.snd).length := by
    rw [List.length_map, ← List.length_map (f := Prod.fst), h, List.length_range]
  rw [hlen]
  refine cellReadRange_of_cells sp m _ 0 fun k hk => ?_
  have hcell := memRead_memWriteList_add (m.map Prod.snd) [] 0 k hk
  rwa [← memOfList, ← eq_memOfList_of_covers h] at hcell

end Segments

/-- `RESULT` is a segment: the output image of the two segments `REL` and `OUT`, each read whole (R196). -/
theorem stepEmit_writes {s : State} (hout : covers s.out s.olen) (hrel : covers s.rel s.rcount) :
    ∃ r, stepEmit s = .next { s with result := r, phase := .done } ∧
      covers r (hdrLen + relentLen * s.rcount + s.olen) ∧
      r.map Prod.snd = outputImage s.hout (s.rel.map Prod.snd) (s.out.map Prod.snd) := by
  have hrels := cellReadRange_segment .rel hrel
  have houts := cellReadRange_segment .out hout
  have hcov := covers_memOfList (outputImage s.hout (s.rel.map Prod.snd) (s.out.map Prod.snd))
  rw [outputImage_length, cellReadRange_length hrels, cellReadRange_length houts] at hcov
  exact ⟨_, by rw [stepEmit, hrels, houts], hcov, values_memOfList _⟩

/-- Settles O43. -/
theorem outputImageIsTheConcatenation : Obligations.OutputImageIsTheConcatenation := by
  intro s hbox hphase hout hrel
  obtain ⟨r, hemit, hcov, hvalues⟩ := stepEmit_writes hout hrel
  exact ⟨_, (step_of_inbox_nil hbox).trans ((blockStep_sEmit hphase).trans hemit), rfl, hcov, hvalues⟩

/-! ## The order of the phases (R193) -/

/-- How one step of the block's own may move `PHASE` (R193): on to the next phase, not at all within a stream, or to
`FAULT` from a running job. -/
abbrev phaseMoves (p q : Phase) : Prop :=
  q = nextPhase p ∨ (q = p ∧ (p = .sCode ∨ p = .sRel)) ∨ (q = .fault ∧ statusOf p = 1)

theorem codeStep_phase {s t : State} (hp : s.phase = .sCode) (h : runFetched (fetchCode s) = .next t) :
    phaseMoves .sCode t.phase := by
  obtain hf | ⟨i, s', hf, hx⟩ := runFetched_next h
  · obtain ⟨s', -, ho⟩ | ⟨f, ho⟩ := fetchCode_error hf
    · cases ho; exact .inr (.inr ⟨rfl, rfl⟩)
    · cases ho
  · obtain ⟨⟨hreads, -⟩, hst, -⟩ := fetchCode_ok hf
    obtain (rfl | rfl) | ⟨-, rfl⟩ | ⟨-, hout, -⟩ := exec_code_next hst hx
    · exact .inr (.inr ⟨rfl, rfl⟩)
    · exact .inr (.inr ⟨rfl, rfl⟩)
    · exact .inl rfl
    · have hkept : t.phase = .sCode := by rw [hout, hreads]; exact hp
      exact .inr (.inl ⟨hkept, .inl rfl⟩)

theorem relocStep_phase {s t : State} (hp : s.phase = .sRel) (h : runFetched (fetchReloc s) = .next t) :
    phaseMoves .sRel t.phase := by
  obtain hf | ⟨i, s', hf, hx⟩ := runFetched_next h
  · obtain ⟨s', -, ho⟩ | ⟨f, ho⟩ := fetchReloc_error hf
    · cases ho; exact .inr (.inr ⟨rfl, rfl⟩)
    · cases ho
  · obtain ⟨⟨hreads, -⟩, hst, -⟩ := fetchReloc_ok hf
    obtain (rfl | rfl) | ⟨-, rfl⟩ | ⟨-, hrel, -⟩ := exec_reloc_next hst hx
    · exact .inr (.inr ⟨rfl, rfl⟩)
    · exact .inr (.inr ⟨rfl, rfl⟩)
    · exact .inl rfl
    · have hkept : t.phase = .sRel := by rw [hrel, hreads]; exact hp
      exact .inr (.inl ⟨hkept, .inr rfl⟩)

theorem stepHdr_phase {s t : State} (h : stepHdr s = .next t) : phaseMoves .sHdr t.phase := by
  obtain ⟨k, u, s', -, rfl⟩ | ⟨hd, w, -, -, -, rfl⟩ := stepHdr_next h
  · exact .inr (.inr ⟨rfl, rfl⟩)
  · exact .inl rfl

theorem stepBuild_phase {s t : State} (h : stepBuild s = .next t) : phaseMoves .sBuild t.phase := by
  obtain rfl | ⟨hd, rfl⟩ := stepBuild_next h
  · exact .inr (.inr ⟨rfl, rfl⟩)
  · exact .inl rfl

theorem blockStep_phase {s t : State} (h : blockStep s = .next t) : phaseMoves s.phase t.phase := by
  cases hp : s.phase with
  | idle => cases (blockStep_waiting (.inl hp)).symm.trans h; exact .inl hp
  | done => cases (blockStep_waiting (.inr (.inl hp))).symm.trans h; exact .inl hp
  | fault => cases (blockStep_waiting (.inr (.inr hp))).symm.trans h; exact .inl hp
  | sHdr => exact stepHdr_phase ((blockStep_sHdr hp).symm.trans h)
  | sCode => exact codeStep_phase hp ((blockStep_sCode hp).symm.trans h)
  | sRel => exact relocStep_phase hp ((blockStep_sRel hp).symm.trans h)
  | sRegs =>
    obtain ⟨ep, rfl⟩ := stepRegs_next ((blockStep_sRegs hp).symm.trans h)
    exact .inl rfl
  | sBuild => exact stepBuild_phase ((blockStep_sBuild hp).symm.trans h)
  | sEmit =>
    obtain ⟨rel, out, -, -, rfl⟩ := stepEmit_next ((blockStep_sEmit hp).symm.trans h)
    exact .inl rfl

/-- Settles O58: with no host move pending, the step is the block's own. -/
theorem phasesFollowTheJobOrder : Obligations.PhasesFollowTheJobOrder := fun _ _ hbox h =>
  blockStep_phase ((step_of_inbox_nil hbox).symm.trans h)

/-! ## `START` (R199) -/

/-- Settles O45. -/
theorem startBeginsAJobOrIsIgnored : Obligations.StartBeginsAJobOrIsIgnored := by
  intro s rest hm
  refine ⟨fun hrun => ?_, fun hrun => ?_⟩
  · exact (step_of_inbox_cons hm).trans (hostMove_start_running (s := { s with inbox := rest }) hrun)
  · have hstep := (step_of_inbox_cons hm).trans (hostMove_start (s := { s with inbox := rest }) hrun)
    exact ⟨_, hstep, rfl, rfl, rfl, rfl, rfl, rfl, rfl, rfl, rfl, rfl, rfl⟩

end Sys2Proof.Machine
end

section
/-! PROOFS. A job depends only on its input and the parameters (R198, R241): what a job's course can look at in a phase
is a normal form of the state, and every step of the block answers alike from a state and from its normal form. -/

namespace Sys2Proof.Machine

/-! ## The cells of `SRC` below `N` -/

/-- The cells of `SRC` that exist (R61) and hold a value, in the order of their addresses. -/
@[irreducible] def inputCells (src : Memory) (n : Nat) : Memory :=
  (List.range n).filterMap fun a => (memRead src a).map (Prod.mk a)

/-- A memory made of the values of a function, read at an address. -/
theorem memRead_filterMap {α : Type} (f : Nat → Option α) (a : Nat) : ∀ as : List Nat,
    memRead (as.filterMap fun b => (f b).map (Prod.mk b)) a = if a ∈ as then f a else none := by
  intro as
  induction as with
  | nil => rfl
  | cons b as ih =>
    cases hb : f b with
    | none =>
      rw [List.filterMap_cons_none (by rw [hb]; rfl), ih]
      by_cases hab : a = b
      · subst hab; simp [hb]
      · simp [hab]
    | some v =>
      rw [List.filterMap_cons_some (b := (b, v)) (by rw [hb]; rfl), memRead, ih]
      by_cases hab : a = b
      · subst hab; simp [hb]
      · simp [hab]

theorem memRead_inputCells {src : Memory} {n a : Nat} (h : a < n) : memRead (inputCells src n) a = memRead src a := by
  rw [inputCells, memRead_filterMap, if_pos (List.mem_range.2 h)]

/-- Only the cells below `N` count. -/
theorem inputCells_congr {src src' : Memory} {n : Nat} (h : ∀ a < n, memRead src a = memRead src' a) :
    inputCells src n = inputCells src' n := by
  unfold inputCells
  exact List.filterMap_congr fun a ha => by rw [h a (List.mem_range.1 ha)]

@[simp] theorem inputCells_inputCells (src : Memory) (n : Nat) : inputCells (inputCells src n) n = inputCells src n :=
  inputCells_congr fun _ => memRead_inputCells

/-! ## The normal form of a state in the course of a job -/

/-- Phase `S_EMIT`: what lies above `N` in `SRC`, and the number of the next free value, are not looked at. -/
def emitForm (s : State) : State := { s with src := inputCells s.src s.n, free := 0 }

/-- Phase `S_BUILD`: nor is `HOUT`, which is yet to be written. -/
def buildForm (s : State) : State := { s with src := inputCells s.src s.n, free := 0, hout := Header.zero }

/-- Phases `S_REL` and `S_REGS`: nor is `EP`. -/
def relForm (s : State) : State :=
  { s with src := inputCells s.src s.n, free := 0, hout := Header.zero, ep := State.reset.ep }

/-- Phase `S_CODE`: nor is what `RTD.RUN` starts by writing (R160). -/
def codeForm (s : State) : State :=
  { s with
    src := inputCells s.src s.n, free := 0, hout := Header.zero, ep := State.reset.ep,
    rcur := 0, acc := 0, rcount := 0, rel := [] }

/-- Phase `S_HDR`, and the phases between jobs: no register but `PHASE`, `CAUSE`, `FUNIT` and `N`, and no memory of the
block but `RESULT`, is looked at (R21). -/
def statusForm (s : State) : State :=
  { State.reset with
    phase := s.phase, cause := s.cause, funit := s.funit, n := s.n, src := inputCells s.src s.n,
    result := s.result, outCap := s.outCap, relCap := s.relCap, inbox := s.inbox }

/-- What the rest of a job's course, and the host, can look at (R198). -/
def courseForm (s : State) : State :=
  match s.phase with
  | .sCode => codeForm s
  | .sRel => relForm s
  | .sRegs => relForm s
  | .sBuild => buildForm s
  | .sEmit => emitForm s
  | .idle => statusForm s
  | .sHdr => statusForm s
  | .done => statusForm s
  | .fault => statusForm s

theorem courseForm_sCode {s : State} (h : s.phase = .sCode) : courseForm s = codeForm s := by
  simp only [courseForm, h]

theorem courseForm_sRel {s : State} (h : s.phase = .sRel) : courseForm s = relForm s := by
  simp only [courseForm, h]

theorem courseForm_sRegs {s : State} (h : s.phase = .sRegs) : courseForm s = relForm s := by
  simp only [courseForm, h]

theorem courseForm_sBuild {s : State} (h : s.phase = .sBuild) : courseForm s = buildForm s := by
  simp only [courseForm, h]

theorem courseForm_sEmit {s : State} (h : s.phase = .sEmit) : courseForm s = emitForm s := by
  simp only [courseForm, h]

theorem courseForm_sHdr {s : State} (h : s.phase = .sHdr) : courseForm s = statusForm s := by
  simp only [courseForm, h]

theorem courseForm_waiting {s : State} (h : s.phase = .idle ∨ s.phase = .done ∨ s.phase = .fault) :
    courseForm s = statusForm s := by
  rcases h with h | h | h <;> simp only [courseForm, h]

/-- The normal form keeps what the host can read (R43), and the moves pending. -/
theorem courseForm_keeps (s : State) :
    (courseForm s).phase = s.phase ∧ (courseForm s).cause = s.cause ∧ (courseForm s).funit = s.funit ∧
      (courseForm s).n = s.n ∧ (courseForm s).src = inputCells s.src s.n ∧ (courseForm s).result = s.result ∧
      (courseForm s).inbox = s.inbox := by
  unfold courseForm
  split <;> exact ⟨rfl, rfl, rfl, rfl, rfl, rfl, rfl⟩

theorem hostView_courseForm (s : State) : hostView (courseForm s) = hostView s := by
  obtain ⟨hphase, hcause, hfunit, hn, hsrc, hresult, -⟩ := courseForm_keeps s
  have hcells : (List.range s.n).map (memRead (inputCells s.src s.n)) = (List.range s.n).map (memRead s.src) :=
    List.map_congr_left fun a ha => memRead_inputCells (List.mem_range.1 ha)
  unfold hostView running
  rw [hphase, hcause, hfunit, hn, hsrc, hresult, hcells]

/-! ### Normal forms of normal forms -/

theorem emitForm_emitForm (s : State) : emitForm (emitForm s) = emitForm s := by
  simp only [emitForm, inputCells_inputCells]

theorem buildForm_buildForm (s : State) : buildForm (buildForm s) = buildForm s := by
  simp only [buildForm, inputCells_inputCells]

theorem relForm_relForm (s : State) : relForm (relForm s) = relForm s := by
  simp only [relForm, inputCells_inputCells]

theorem codeForm_codeForm (s : State) : codeForm (codeForm s) = codeForm s := by
  simp only [codeForm, inputCells_inputCells]

theorem statusForm_statusForm (s : State) : statusForm (statusForm s) = statusForm s := by
  simp only [statusForm, inputCells_inputCells]

theorem courseForm_courseForm (s : State) : courseForm (courseForm s) = courseForm s := by
  obtain ⟨hphase, -⟩ := courseForm_keeps s
  cases hp : s.phase with
  | sCode => rw [courseForm_sCode (hphase.trans hp), courseForm_sCode hp, codeForm_codeForm]
  | sRel => rw [courseForm_sRel (hphase.trans hp), courseForm_sRel hp, relForm_relForm]
  | sRegs => rw [courseForm_sRegs (hphase.trans hp), courseForm_sRegs hp, relForm_relForm]
  | sBuild => rw [courseForm_sBuild (hphase.trans hp), courseForm_sBuild hp, buildForm_buildForm]
  | sEmit => rw [courseForm_sEmit (hphase.trans hp), courseForm_sEmit hp, emitForm_emitForm]
  | sHdr => rw [courseForm_sHdr (hphase.trans hp), courseForm_sHdr hp, statusForm_statusForm]
  | idle => rw [courseForm_waiting (.inl (hphase.trans hp)), courseForm_waiting (.inl hp), statusForm_statusForm]
  | done =>
    rw [courseForm_waiting (.inr (.inl (hphase.trans hp))), courseForm_waiting (.inr (.inl hp)), statusForm_statusForm]
  | fault =>
    rw [courseForm_waiting (.inr (.inr (hphase.trans hp))), courseForm_waiting (.inr (.inr hp)), statusForm_statusForm]

/-! ### Outcomes -/

/-- The normal form of an outcome: two outcomes with one normal form are alike for the rest of the job. -/
def courseOutcome : Result → Result
  | .next s => .next (courseForm s)
  | .fault f => .fault f
  | .refused r => .refused r

theorem viewOf_courseOutcome (o : Result) : viewOf (courseOutcome o) = viewOf o := by
  cases o with
  | next s => simp only [courseOutcome, viewOf, hostView_courseForm]
  | fault f => rfl
  | refused r => rfl

/-- Two states with the same input and the same parameters, as far as a job can look at them. -/
def inputAlike (s t : State) : Prop :=
  s.n = t.n ∧ inputCells s.src s.n = inputCells t.src t.n ∧ s.outCap = t.outCap ∧ s.relCap = t.relCap ∧
    s.inbox = t.inbox

/-- After a fault only the input and what the fault entry writes is looked at, whatever values it leaves free (R214). -/
theorem courseOutcome_raised {s t : State} (h : inputAlike s t) (k : FaultKind) (u : UnitId) :
    courseOutcome (raised k u s) = courseOutcome (raised k u t) := by
  obtain ⟨hn, hsrc, hout, hrel, hbox⟩ := h
  simp only [raised, courseOutcome, courseForm_waiting (.inr (.inr (raise_phase k u _))), statusForm, raise_phase,
    raise_cause, raise_funit, raise_n, raise_src, raise_result, raise_outCap, raise_relCap, raise_inbox, hn, hout,
    hrel, hbox, hn ▸ hsrc]

theorem courseOutcome_raisedToken {s t : State} (h : inputAlike s t) (k : FaultKind) (u : UnitId) :
    courseOutcome (raisedToken k u s) = courseOutcome (raisedToken k u t) := by
  rw [raisedToken, courseOutcome, courseForm_waiting (.inr (.inr (raiseToken_phase k u s)))]
  exact courseOutcome_raised h k u

theorem inputAlike_statusForm (s : State) : inputAlike (statusForm s) s :=
  ⟨rfl, inputCells_inputCells s.src s.n, rfl, rfl, rfl⟩

theorem inputAlike_codeForm (s : State) : inputAlike (codeForm s) s :=
  ⟨rfl, inputCells_inputCells s.src s.n, rfl, rfl, rfl⟩

theorem inputAlike_relForm (s : State) : inputAlike (relForm s) s :=
  ⟨rfl, inputCells_inputCells s.src s.n, rfl, rfl, rfl⟩

theorem inputAlike_buildForm (s : State) : inputAlike (buildForm s) s :=
  ⟨rfl, inputCells_inputCells s.src s.n, rfl, rfl, rfl⟩

/-! ## Reads of `SRC` -/

theorem inputAlike_memRead {s t : State} (h : inputAlike s t) {a : Nat} (ha : a < t.n) :
    memRead s.src a = memRead t.src a := by
  obtain ⟨hn, hsrc, -⟩ := h
  rw [← memRead_inputCells (src := s.src) (n := s.n) (by omega), hsrc, memRead_inputCells ha]

theorem srcRead8_inputAlike {s t : State} (h : inputAlike s t) (a : Nat) : srcRead8 s a = srcRead8 t a := by
  have ⟨hn, _⟩ := h
  unfold srcRead8
  rw [hn]
  split_ifs with ha
  · rfl
  · rw [cellRead, cellRead, inputAlike_memRead h (by omega)]

theorem srcRead16_inputAlike {s t : State} (h : inputAlike s t) (a : Nat) : srcRead16 s a = srcRead16 t a := by
  simp only [srcRead16, srcRead8_inputAlike h]

theorem srcReadRange_inputAlike {s t : State} (h : inputAlike s t) : ∀ len a : Nat,
    srcReadRange s a len = srcReadRange t a len := by
  intro len
  induction len with
  | zero => intro a; rfl
  | succ len ih => intro a; simp only [srcReadRange, srcRead8_inputAlike h, ih]

/-! ## A dispatch of reads carries over to another reader -/

section Dispatch

variable {σ τ ε δ : Type} {f : σ → τ} {g : ε → δ}
  {bit : σ → Except ε (Bool × σ)} {byte : σ → Except ε (Byte × σ)} {word : σ → Except ε (Word × σ)}
  {bit' : τ → Except δ (Bool × τ)} {byte' : τ → Except δ (Byte × τ)} {word' : τ → Except δ (Word × τ)}

/-- The result of a read, its position and its failure carried over. -/
def carryRead {α : Type} (f : σ → τ) (g : ε → δ) : Except ε (α × σ) → Except δ (α × τ)
  | .error e => .error (g e)
  | .ok (a, s) => .ok (a, f s)

/-- The second reader, from a position carried over, reads what the first one does. -/
def Carries {α : Type} (f : σ → τ) (g : ε → δ) (read : σ → Except ε (α × σ)) (read' : τ → Except δ (α × τ)) : Prop :=
  ∀ s, read' (f s) = carryRead f g (read s)

theorem readLongCopy_carries (hbyte : Carries f g byte byte') :
    Carries f g (readLongCopy byte) (readLongCopy byte') := by
  intro s
  simp only [readLongCopy, hbyte s]
  rcases byte s with e | ⟨lo, s1⟩
  · rfl
  simp only [carryRead, hbyte s1]
  rcases byte s1 with e | ⟨hi, s2⟩
  · rfl
  dsimp only
  split_ifs with hc
  · rfl
  simp only [hbyte s2]
  rcases byte s2 with e | ⟨x, s3⟩
  · rfl
  simp only [carryRead]
  split_ifs <;> rfl

theorem readShortCopy_carries (hbit : Carries f g bit bit') (hbyte : Carries f g byte byte') :
    Carries f g (readShortCopy bit byte) (readShortCopy bit' byte') := by
  intro s
  simp only [readShortCopy, hbit s]
  rcases bit s with e | ⟨c1, s1⟩
  · rfl
  simp only [carryRead, hbit s1]
  rcases bit s1 with e | ⟨c0, s2⟩
  · rfl
  simp only [carryRead, hbyte s2]
  rcases byte s2 with e | ⟨db, s3⟩ <;> rfl

/-- The dispatch of the code stream carries over where its reads do (R141). -/
theorem readCodeToken_carries (hbit : Carries f g bit bit') (hbyte : Carries f g byte byte') :
    Carries f g (readCodeToken bit byte) (readCodeToken bit' byte') := by
  intro s
  simp only [readCodeToken, hbit s]
  rcases bit s with e | ⟨_ | _, s1⟩
  · rfl
  · simp only [carryRead, hbit s1]
    rcases bit s1 with e | ⟨_ | _, s2⟩
    · rfl
    · exact readShortCopy_carries hbit hbyte s2
    · exact readLongCopy_carries hbyte s2
  · simp only [carryRead, hbyte s1]
    rcases byte s1 with e | ⟨b, s2⟩ <;> rfl

/-- The dispatch of the relocation stream carries over where its reads do (R160). -/
theorem readRelocToken_carries (hbyte : Carries f g byte byte') (hword : Carries f g word word') :
    Carries f g (readRelocToken byte word) (readRelocToken byte' word') := by
  intro s
  simp only [readRelocToken, hbyte s]
  rcases byte s with e | ⟨b, s1⟩
  · rfl
  simp only [carryRead]
  split_ifs with hb
  · rfl
  simp only [hword s1]
  rcases word s1 with e | ⟨w, s2⟩
  · rfl
  simp only [carryRead]
  split_ifs <;> rfl

end Dispatch

/-! ## The fetches -/

/-- A read of the machine whose failures are normal forms. -/
def courseRead {α : Type} (read : State → Read α) (s : State) : Read α := carryRead id courseOutcome (read s)

/-- Reading from the normal form `f` of a state ends as reading from the state does: with the same value and the normal
form of the state after it, or with an outcome alike. -/
abbrev ReadsForm {α : Type} (f : State → State) (read : State → Read α) : Prop :=
  Carries f courseOutcome read (courseRead read)

theorem courseRead_carries {α : Type} (read : State → Read α) : Carries id courseOutcome read (courseRead read) :=
  fun _ => rfl

theorem ReadsForm.ok {α : Type} {f : State → State} {read : State → Read α} (h : ReadsForm f read) {s t : State}
    {a : α} (hr : read s = .ok (a, t)) : read (f s) = .ok (a, f t) := by
  have hf := h s
  rw [courseRead, hr] at hf
  generalize read (f s) = r at hf
  match r, hf with
  | .ok (_, _), rfl => rfl

theorem ReadsForm.error {α : Type} {f : State → State} {read : State → Read α} (h : ReadsForm f read) {s : State}
    {o : Result} (hr : read s = .error o) : ∃ o', read (f s) = .error o' ∧ courseOutcome o' = courseOutcome o := by
  have hf := h s
  rw [courseRead, hr] at hf
  generalize read (f s) = r at hf
  match r, hf with
  | .error o', hf => exact ⟨o', rfl, Except.error.inj hf⟩

/-- The four reads of `SRC` in a stream have one shape: a fault entry past the limit of the region, else a read that
can stop the model, and a cursor moved on (R71). -/
def boundedRead {α : Type} (past : Prop) [Decidable past] (fail : Result) (x : Except Fault α) (t : State) : Read α :=
  if past then .error fail
  else
    match x with
    | .error e => .error (.fault e)
    | .ok v => .ok (v, t)

theorem boundedRead_form {α : Type} {past : Prop} [Decidable past] {fail fail' : Result} {x x' : Except Fault α}
    {f : State → State} {t : State} (hfail : courseOutcome fail' = courseOutcome fail) (hx : x' = x) :
    carryRead id courseOutcome (boundedRead past fail' x' (f t)) =
      carryRead f courseOutcome (boundedRead past fail x t) := by
  subst hx
  unfold boundedRead
  split_ifs with h
  · exact congrArg Except.error hfail
  · cases x' <;> rfl

theorem fetch16_eq_boundedRead (s : State) : fetch16 raisedToken s =
    boundedRead (s.payLimit < s.cur + 2) (raisedToken .truncatedStream .dce s) (srcRead16 s s.cur)
      { s with cur := s.cur + 2 } := by
  unfold fetch16 boundedRead
  cases srcRead16 s s.cur <;> rfl

theorem nextByte_eq_boundedRead (s : State) : nextByte s =
    boundedRead (s.payLimit < s.cur + 1) (raisedToken .truncatedStream .dce s) (srcRead8 s s.cur)
      { s with cur := s.cur + 1 } := by
  unfold nextByte boundedRead
  cases srcRead8 s s.cur <;> rfl

theorem relocByte_eq_boundedRead (s : State) : relocByte s =
    boundedRead (s.relLimit < s.rcur + 1) (raisedToken .truncatedStream .rtd s) (srcRead8 s s.rcur)
      { s with rcur := s.rcur + 1 } := by
  unfold relocByte boundedRead
  cases srcRead8 s s.rcur <;> rfl

theorem relocWord_eq_boundedRead (s : State) : relocWord s =
    boundedRead (s.relLimit < s.rcur + 2) (raisedToken .truncatedStream .rtd s) (srcRead16 s s.rcur)
      { s with rcur := s.rcur + 2 } := by
  unfold relocWord boundedRead
  cases srcRead16 s s.rcur <;> rfl

theorem fetch16_codeForm : ReadsForm codeForm (fetch16 raisedToken) := by
  intro s
  have hs := inputAlike_codeForm s
  rw [courseRead, fetch16_eq_boundedRead, fetch16_eq_boundedRead]
  exact boundedRead_form (past := s.payLimit < s.cur + 2) (f := codeForm) (t := { s with cur := s.cur + 2 })
    (courseOutcome_raisedToken hs _ _) (srcRead16_inputAlike hs _)

theorem nextByte_codeForm : ReadsForm codeForm nextByte := by
  intro s
  have hs := inputAlike_codeForm s
  rw [courseRead, nextByte_eq_boundedRead, nextByte_eq_boundedRead]
  exact boundedRead_form (past := s.payLimit < s.cur + 1) (f := codeForm) (t := { s with cur := s.cur + 1 })
    (courseOutcome_raisedToken hs _ _) (srcRead8_inputAlike hs _)

theorem relocByte_relForm : ReadsForm relForm relocByte := by
  intro s
  have hs := inputAlike_relForm s
  rw [courseRead, relocByte_eq_boundedRead, relocByte_eq_boundedRead]
  exact boundedRead_form (past := s.relLimit < s.rcur + 1) (f := relForm) (t := { s with rcur := s.rcur + 1 })
    (courseOutcome_raisedToken hs _ _) (srcRead8_inputAlike hs _)

theorem relocWord_relForm : ReadsForm relForm relocWord := by
  intro s
  have hs := inputAlike_relForm s
  rw [courseRead, relocWord_eq_boundedRead, relocWord_eq_boundedRead]
  exact boundedRead_form (past := s.relLimit < s.rcur + 2) (f := relForm) (t := { s with rcur := s.rcur + 2 })
    (courseOutcome_raisedToken hs _ _) (srcRead16_inputAlike hs _)

/-- The call that delivers the last bit of a word ends as its refill does (R132, R136). -/
theorem nextBit_of_fetch_error {s : State} {o : Result} (h : s.bitCnt = 1)
    (hf : fetch16 raisedToken { s with bitBuf := s.bitBuf >>> 1, bitCnt := 0 } = .error o) :
    nextBit s = .error o := by
  have hdue : s.bitCnt - 1 = 0 := by rw [h]; rfl
  simp only [nextBit, takeBit, hdue, ↓reduceIte, hf]

theorem nextBit_of_fetch_ok {s t : State} {w : Word} (h : s.bitCnt = 1)
    (hf : fetch16 raisedToken { s with bitBuf := s.bitBuf >>> 1, bitCnt := 0 } = .ok (w, t)) :
    nextBit s = .ok (s.bitBuf.getLsbD 0, { t with bitBuf := w, bitCnt := 16 }) := by
  have hdue : s.bitCnt - 1 = 0 := by rw [h]; rfl
  simp only [nextBit, takeBit, hdue, ↓reduceIte, hf]

theorem nextBit_codeForm : ReadsForm codeForm nextBit := by
  intro s
  by_cases hdue : s.bitCnt = 1
  · have hdue' : (codeForm s).bitCnt = 1 := hdue
    rw [courseRead]
    cases hf : fetch16 raisedToken { s with bitBuf := s.bitBuf >>> 1, bitCnt := 0 } with
    | error o =>
      obtain ⟨o', hf', ho⟩ := fetch16_codeForm.error hf
      rw [nextBit_of_fetch_error hdue hf, nextBit_of_fetch_error hdue' hf']
      exact congrArg Except.error ho
    | ok r =>
      obtain ⟨w, t⟩ := r
      rw [nextBit_of_fetch_ok hdue hf, nextBit_of_fetch_ok hdue' (fetch16_codeForm.ok hf)]
      rfl
  · rw [courseRead, nextBit_shift hdue, nextBit_shift (s := codeForm s) hdue]
    rfl

theorem fetchCode_codeForm : ReadsForm codeForm fetchCode := by
  intro s
  have hread := readCodeToken_carries (courseRead_carries nextBit) (courseRead_carries nextByte) (codeForm s)
  exact hread.symm.trans (readCodeToken_carries nextBit_codeForm nextByte_codeForm s)

theorem fetchReloc_relForm : ReadsForm relForm fetchReloc := by
  intro s
  have hread := readRelocToken_carries (courseRead_carries relocByte) (courseRead_carries relocWord) (relForm s)
  exact hread.symm.trans (readRelocToken_carries relocByte_relForm relocWord_relForm s)

/-- A fetched token is run from the normal form as it is from the state, where its meaning answers alike. -/
theorem runFetched_form {f : State → State} {fetch : State → Read Instr} (h : ReadsForm f fetch) {s : State}
    (hexec : ∀ i t, fetch s = .ok (i, t) → courseOutcome (exec i (f t)) = courseOutcome (exec i t)) :
    courseOutcome (runFetched (fetch (f s))) = courseOutcome (runFetched (fetch s)) := by
  cases hf : fetch s with
  | error o =>
    obtain ⟨o', hf', ho⟩ := h.error hf
    rw [hf']
    exact ho
  | ok r =>
    obtain ⟨i, t⟩ := r
    rw [h.ok hf]
    exact hexec i t hf

/-! ## The tokens' meanings -/

/-- A state and its normal form are alike. -/
theorem courseOutcome_codeForm {s : State} (hp : s.phase = .sCode) :
    courseOutcome (.next (codeForm s)) = courseOutcome (.next s) := by
  rw [courseOutcome, courseOutcome, ← courseForm_sCode hp, courseForm_courseForm]

theorem courseOutcome_relForm {s : State} (hp : s.phase = .sRel ∨ s.phase = .sRegs) :
    courseOutcome (.next (relForm s)) = courseOutcome (.next s) := by
  have hform : courseForm s = relForm s := hp.elim courseForm_sRel courseForm_sRegs
  rw [courseOutcome, courseOutcome, ← hform, courseForm_courseForm]

theorem append_codeForm (v : Byte) {s : State} (hp : s.phase = .sCode) :
    courseOutcome (append v (codeForm s)) = courseOutcome (append v s) := by
  have hform : append v (codeForm s) =
      if withinCap (s.olen + 1) s.outCap then .next (codeForm (pushOut s v))
      else raisedToken .outputOverflow .dce (codeForm s) := rfl
  rw [hform, append]
  split_ifs
  · exact courseOutcome_codeForm (s := pushOut s v) hp
  · exact courseOutcome_raisedToken (inputAlike_codeForm s) _ _

theorem copyLoop_codeForm : ∀ (k a : Nat) {s : State}, s.phase = .sCode →
    courseOutcome (copyLoop k a (codeForm s)) = courseOutcome (copyLoop k a s) := by
  intro k
  induction k with
  | zero => intro a s hp; exact courseOutcome_codeForm hp
  | succ k ih =>
    intro a s hp
    have hread : cellRead .out (codeForm s).out a = cellRead .out s.out a := rfl
    simp only [copyLoop, hread]
    cases cellRead .out s.out a with
    | error f => rfl
    | ok v => exact ih (a + 1) (s := pushOut s v) hp

theorem copy_codeForm (d : Int) (n : Nat) {s : State} (hp : s.phase = .sCode) :
    courseOutcome (copy d n (codeForm s)) = courseOutcome (copy d n s) := by
  have hform : copy d n (codeForm s) =
      if (s.olen : Int) + d < 0 then raisedToken .badBackReference .dce (codeForm s)
      else if !withinCap (s.olen + n) s.outCap then raisedToken .outputOverflow .dce (codeForm s)
      else copyLoop n ((s.olen : Int) + d).toNat (codeForm s) := rfl
  rw [hform, copy]
  split_ifs
  · exact courseOutcome_raisedToken (inputAlike_codeForm s) _ _
  · exact courseOutcome_raisedToken (inputAlike_codeForm s) _ _
  · exact copyLoop_codeForm n _ hp

/-- `RTD.RUN` starts by writing what the normal form of phase `S_CODE` leaves out (R160). -/
theorem enterReloc_codeForm (s : State) :
    courseOutcome (.next (enterReloc (codeForm s))) = courseOutcome (.next (enterReloc s)) :=
  courseOutcome_relForm (s := enterReloc s) (.inl rfl)

theorem exec_codeForm {i : Instr} {s : State} (hi : streamOf i = .code) (hp : s.phase = .sCode) :
    courseOutcome (exec i (codeForm s)) = courseOutcome (exec i s) := by
  cases i with
  | lit b => exact append_codeForm b hp
  | scopy c db => exact copy_codeForm _ _ hp
  | lcopy lo hi5 c => exact copy_codeForm _ _ hp
  | lcopyx lo hi5 e => exact copy_codeForm _ _ hp
  | esc lo hi5 => exact courseOutcome_codeForm hp
  | endCode lo hi5 => exact enterReloc_codeForm s
  | rdb b => cases hi
  | resc => cases hi
  | rend => cases hi
  | rdw w => cases hi

theorem accumulate_relForm (x : Nat) {s : State} (hp : s.phase = .sRel) :
    courseOutcome (accumulate x (relForm s)) = courseOutcome (accumulate x s) := by
  have hform : accumulate x (relForm s) =
      if accMax < s.acc.toNat + x then raisedToken .relocOverflow .rtd (relForm s)
      else .next (relForm { s with acc := BitVec.ofNat 20 (s.acc.toNat + x) }) := rfl
  rw [hform, accumulate]
  split_ifs
  · exact courseOutcome_raisedToken (inputAlike_relForm s) _ _
  · exact courseOutcome_relForm (.inl hp)

theorem accumulateEmit_relForm (x : Nat) {s : State} (hp : s.phase = .sRel) :
    courseOutcome (accumulateEmit x (relForm s)) = courseOutcome (accumulateEmit x s) := by
  have hform : accumulateEmit x (relForm s) =
      if accMax < s.acc.toNat + x then raisedToken .relocOverflow .rtd (relForm s)
      else if !withinCap (s.rcount + 1) s.relCap then raisedToken .outputOverflow .rtd (relForm s)
      else .next (relForm { s with
        acc := BitVec.ofNat 20 (s.acc.toNat + x),
        rel := memWrite s.rel s.rcount (BitVec.ofNat 20 (s.acc.toNat + x)), rcount := s.rcount + 1 }) := rfl
  rw [hform, accumulateEmit]
  split_ifs
  · exact courseOutcome_raisedToken (inputAlike_relForm s) _ _
  · exact courseOutcome_raisedToken (inputAlike_relForm s) _ _
  · exact courseOutcome_relForm (.inl hp)

theorem exec_relForm {i : Instr} {s : State} (hi : streamOf i = .reloc) (hp : s.phase = .sRel) :
    courseOutcome (exec i (relForm s)) = courseOutcome (exec i s) := by
  cases i with
  | rdb b => exact accumulateEmit_relForm _ hp
  | rdw w => exact accumulateEmit_relForm _ hp
  | resc =>
    rw [exec_resc_eq, exec_resc_eq]
    exact accumulate_relForm _ hp
  | rend => exact courseOutcome_relForm (s := enterRegs s) (.inr rfl)
  | lit b => cases hi
  | scopy c db => cases hi
  | lcopy lo hi5 c => cases hi
  | endCode lo hi5 => cases hi
  | esc lo hi5 => cases hi
  | lcopyx lo hi5 e => cases hi

/-! ## The steps of the sequencer -/

theorem deserHeader_stops {s : State} {f : Fault} (hn : hdrLen ≤ s.n) (hf : srcReadRange s 0 hdrLen = .error f) :
    deserHeader s = .error (.fault f) := by
  rw [deserHeader, if_neg (by omega), hf]

theorem courseOutcome_codeStart (hd : Header) (w : Word) (s : State) :
    courseOutcome (.next (codeStart hd w (statusForm s))) = courseOutcome (.next (codeStart hd w s)) := by
  have hform : codeForm (codeStart hd w (statusForm s)) = codeForm (codeStart hd w s) := by
    simp only [codeForm, codeStart, deriveRegions, statusForm, inputCells_inputCells]
  rw [courseOutcome, courseOutcome, courseForm_sCode rfl, courseForm_sCode rfl, hform]

/-- Phase `S_HDR` looks at `N` and `SRC` alone: each of its outcomes is reached from the normal form too (R120, R131,
R194). -/
theorem stepHdr_statusForm (s : State) : courseOutcome (stepHdr (statusForm s)) = courseOutcome (stepHdr s) := by
  have hs := inputAlike_statusForm s
  by_cases hn : s.n < hdrLen
  · rw [stepHdr_short hn, stepHdr_short (s := statusForm s) hn]
    exact courseOutcome_raised hs _ _
  have hn : hdrLen ≤ s.n := by omega
  have hbytes := srcReadRange_inputAlike hs hdrLen 0
  cases hr : srcReadRange s 0 hdrLen with
  | error f =>
    rw [stepHdr, stepHdr, deserHeader_stops hn hr, deserHeader_stops (s := statusForm s) hn (hbytes.trans hr)]
  | ok bs =>
    obtain ⟨hd, hp⟩ := parseHeader_of_length (srcReadRange_length hr)
    have hdr := deserHeader_read hn hr hp
    have hdr' := deserHeader_read (s := statusForm s) hn (hbytes.trans hr) hp
    by_cases hout : s.n < loaderOff hd + relTableOff
    · rw [stepHdr_outside hdr hout, stepHdr_outside hdr' hout]
      exact courseOutcome_raised hs _ _
    have hfit : loaderOff hd + relTableOff ≤ s.n := by omega
    by_cases hshort : loaderOff hd < payloadStart hd + 2
    · rw [stepHdr_shortPayload hdr hfit hshort, stepHdr_shortPayload hdr' hfit hshort]
      exact courseOutcome_raised hs _ _
    have hpay : payloadStart hd + 2 ≤ loaderOff hd := by omega
    have hword := srcRead16_inputAlike hs (payloadStart hd)
    cases hw : srcRead16 s (payloadStart hd) with
    | error f => rw [stepHdr_stops hdr hfit hpay hw, stepHdr_stops hdr' hfit hpay (hword.trans hw)]
    | ok w =>
      rw [stepHdr_starts hdr hfit hpay hw, stepHdr_starts hdr' hfit hpay (hword.trans hw)]
      exact courseOutcome_codeStart hd w s

theorem stepRegs_relForm (s : State) : courseOutcome (stepRegs (relForm s)) = courseOutcome (stepRegs s) := by
  have hread : ∀ a, srcRead16 (relForm s) a = srcRead16 s a := srcRead16_inputAlike (inputAlike_relForm s)
  have hbase : (relForm s).regBase = s.regBase := rfl
  unfold stepRegs
  rw [hread, hread, hread, hread, hbase]
  split
  · simp only [courseOutcome, courseForm_sBuild, buildForm, relForm, inputCells_inputCells]
  all_goals rfl

theorem stepBuild_buildForm (s : State) :
    courseOutcome (stepBuild (buildForm s)) = courseOutcome (stepBuild s) := by
  by_cases hover : 33553920 < s.olen ∨ 65535 < s.rcount
  · rw [stepBuild, stepBuild, buildHeader_overflows hover, buildHeader_overflows (s := buildForm s) hover]
    exact courseOutcome_raised (inputAlike_buildForm s) _ _
  · have holen : s.olen ≤ 33553920 := by omega
    have hcount : s.rcount ≤ 65535 := by omega
    rw [stepBuild, stepBuild, buildHeader_fits holen hcount, buildHeader_fits (s := buildForm s) holen hcount]
    simp only [courseOutcome, courseForm_sEmit, emitForm, buildForm, inputCells_inputCells]

theorem stepEmit_emitForm (s : State) : courseOutcome (stepEmit (emitForm s)) = courseOutcome (stepEmit s) := by
  have hrel : cellReadRange .rel (emitForm s).rel 0 (emitForm s).rcount = cellReadRange .rel s.rel 0 s.rcount := rfl
  have hout : cellReadRange .out (emitForm s).out 0 (emitForm s).olen = cellReadRange .out s.out 0 s.olen := rfl
  unfold stepEmit
  rw [hrel, hout]
  split
  · simp only [courseOutcome, courseForm, statusForm, emitForm, inputCells_inputCells]
  all_goals rfl

/-! ## A job's course -/

/-- Every step of the block's own answers alike from a state and from its normal form. -/
theorem blockStep_courseForm (s : State) : courseOutcome (blockStep (courseForm s)) = courseOutcome (blockStep s) := by
  obtain ⟨hphase, -⟩ := courseForm_keeps s
  have hwait : (s.phase = .idle ∨ s.phase = .done ∨ s.phase = .fault) →
      courseOutcome (blockStep (courseForm s)) = courseOutcome (blockStep s) := fun hp => by
    rw [blockStep_waiting hp, blockStep_waiting (by rwa [hphase]), courseOutcome, courseOutcome, courseForm_courseForm]
  cases hp : s.phase with
  | idle => exact hwait (.inl hp)
  | done => exact hwait (.inr (.inl hp))
  | fault => exact hwait (.inr (.inr hp))
  | sHdr =>
    rw [blockStep_sHdr hp, blockStep_sHdr (hphase.trans hp), courseForm_sHdr hp]
    exact stepHdr_statusForm s
  | sCode =>
    rw [blockStep_sCode hp, blockStep_sCode (hphase.trans hp), courseForm_sCode hp]
    refine runFetched_form fetchCode_codeForm fun i t hf => ?_
    obtain ⟨⟨hreads, -⟩, hi, -⟩ := fetchCode_ok hf
    exact exec_codeForm hi (by rw [hreads]; exact hp)
  | sRel =>
    rw [blockStep_sRel hp, blockStep_sRel (hphase.trans hp), courseForm_sRel hp]
    refine runFetched_form fetchReloc_relForm fun i t hf => ?_
    obtain ⟨⟨hreads, -⟩, hi, -⟩ := fetchReloc_ok hf
    exact exec_relForm hi (by rw [hreads]; exact hp)
  | sRegs =>
    rw [blockStep_sRegs hp, blockStep_sRegs (hphase.trans hp), courseForm_sRegs hp]
    exact stepRegs_relForm s
  | sBuild =>
    rw [blockStep_sBuild hp, blockStep_sBuild (hphase.trans hp), courseForm_sBuild hp]
    exact stepBuild_buildForm s
  | sEmit =>
    rw [blockStep_sEmit hp, blockStep_sEmit (hphase.trans hp), courseForm_sEmit hp]
    exact stepEmit_emitForm s

/-- States alike step alike. -/
theorem blockStep_alike {s t : State} (h : courseForm s = courseForm t) :
    courseOutcome (blockStep s) = courseOutcome (blockStep t) := by
  rw [← blockStep_courseForm s, h, blockStep_courseForm t]

theorem next_of_courseOutcome {o : Result} {s : State} (h : courseOutcome o = courseOutcome (.next s)) :
    ∃ t, o = .next t ∧ courseForm t = courseForm s := by
  cases o with
  | next t => exact ⟨t, rfl, Host.Outcome.next.inj h⟩
  | fault f => cases h
  | refused r => cases h

theorem fault_of_courseOutcome {o : Result} {f : Fault} (h : courseOutcome o = courseOutcome (.fault f)) :
    o = .fault f := by
  cases o with
  | next t => cases h
  | fault f' => exact h
  | refused r => cases h

theorem refused_of_courseOutcome {o : Result} {r : Refusal} (h : courseOutcome o = courseOutcome (.refused r)) :
    o = .refused r := by
  cases o with
  | next t => cases h
  | fault f => cases h
  | refused r' => exact h

/-- A run of any machine ends at the first fault. -/
theorem run_succ_of_fault (M : Host.Core) {s : M.State} {f : M.Fault} (k : Nat) (h : M.step s = .fault f) :
    M.run (k + 1) s = .fault f := by
  simp only [Host.Core.run, h]

/-- A run of any machine ends at the first refusal. -/
theorem run_succ_of_refused (M : Host.Core) {s : M.State} {r : M.Refusal} (k : Nat) (h : M.step s = .refused r) :
    M.run (k + 1) s = .refused r := by
  simp only [Host.Core.run, h]

theorem runSteps_fault {s : State} {f : Fault} (k : Nat) (h : step s = .fault f) : runSteps (k + 1) s = .fault f :=
  run_succ_of_fault Sys2Proof.core k h

theorem runSteps_refused {s : State} {r : Refusal} (k : Nat) (h : step s = .refused r) :
    runSteps (k + 1) s = .refused r :=
  run_succ_of_refused Sys2Proof.core k h

/-- States alike run alike, with no host move pending: such a run is made of the block's own steps. -/
theorem runSteps_alike (k : Nat) : ∀ {s t : State}, s.inbox = [] → t.inbox = [] → courseForm s = courseForm t →
    courseOutcome (runSteps k s) = courseOutcome (runSteps k t) := by
  induction k with
  | zero => intro s t _ _ h; exact congrArg Host.Outcome.next h
  | succ k ih =>
    intro s t hs ht h
    have hstep := blockStep_alike h
    rw [← step_of_inbox_nil hs, ← step_of_inbox_nil ht] at hstep
    cases hb : step s with
    | next s' =>
      rw [hb] at hstep
      obtain ⟨t', hc, hform⟩ := next_of_courseOutcome hstep.symm
      obtain ⟨-, -, -, -, hs'⟩ := blockNeverWritesItsInput s s' hs hb
      obtain ⟨-, -, -, -, ht'⟩ := blockNeverWritesItsInput t t' ht hc
      rw [runSteps_succ k hb, runSteps_succ k hc]
      exact ih hs' ht' hform.symm
    | fault f =>
      rw [hb] at hstep
      rw [runSteps_fault k hb, runSteps_fault k (fault_of_courseOutcome hstep.symm)]
    | refused r =>
      rw [hb] at hstep
      rw [runSteps_refused k hb, runSteps_refused k (refused_of_courseOutcome hstep.symm)]

/-- What a job starts from, as far as its course can look at it, is `N`, the bytes of `SRC` below it and the parameters
(R198, R199, R241). -/
theorem courseForm_startJob {s t : State} (h : inputAlike s t) : courseForm (startJob s) = courseForm (startJob t) := by
  obtain ⟨hn, hsrc, hout, hrel, hbox⟩ := h
  rw [courseForm_sHdr rfl, courseForm_sHdr rfl]
  simp only [statusForm, startJob_phase, startJob_cause, startJob_funit, startJob_n, startJob_src, startJob_result,
    startJob_outCap, startJob_relCap, startJob_inbox, hn, hout, hrel, hbox, hn ▸ hsrc]

/-- Settles O55. -/
theorem jobDependsOnlyOnItsInput : Obligations.JobDependsOnlyOnItsInput := by
  intro s t k hs ht hn hsrc hout hrel
  have halike : inputAlike s t := ⟨hn, by rw [inputCells_congr hsrc, hn], hout, hrel, hs.trans ht.symm⟩
  rw [← viewOf_courseOutcome, ← viewOf_courseOutcome (runSteps k (startJob t)),
    runSteps_alike k (s := startJob s) (t := startJob t) hs ht (courseForm_startJob halike)]

end Sys2Proof.Machine
end

section
/-! PROOFS. Faults (`60_exceptions.md`): which fault entries a step can end in, and what a faulting token leaves as it
was (R206, R214, R215). -/

namespace Sys2Proof.Machine

/-! ## The token steps that end in a fault (R215) -/

/-- A step of the code stream that faults is the fault entry of `DCE` with a row of R206, after some reads of its token
and nothing else (R141, R215). -/
theorem codeStep_fault {s t : State} (hp : s.phase = .sCode) (h : runFetched (fetchCode s) = .next t)
    (hfault : t.phase = .fault) :
    ∃ k s', codeReads s s' ∧ (causeCode k, unitCode .dce) ∈ faultTable ∧ t = raiseToken k .dce s' := by
  obtain hf | ⟨i, s', hf, hx⟩ := runFetched_next h
  · obtain ⟨s', hreads, ho⟩ | ⟨f, ho⟩ := fetchCode_error hf
    · cases ho; exact ⟨.truncatedStream, s', hreads, by decide, rfl⟩
    · cases ho
  · obtain ⟨hreads, hst, -⟩ := fetchCode_ok hf
    obtain (ht | ht) | ⟨-, rfl⟩ | ⟨-, hout, -⟩ := exec_code_next hst hx
    · exact ⟨.badBackReference, s', hreads, by decide, ht⟩
    · exact ⟨.outputOverflow, s', hreads, by decide, ht⟩
    · cases hfault
    · have hkept : t.phase = .sCode := by rw [hout, hreads.1]; exact hp
      cases hkept.symm.trans hfault

/-- A step of the relocation stream that faults is the fault entry of `RTD` with a row of R206, after some reads of its
token and nothing else (R160, R215). -/
theorem relocStep_fault {s t : State} (hp : s.phase = .sRel) (h : runFetched (fetchReloc s) = .next t)
    (hfault : t.phase = .fault) :
    ∃ k s', (s' = s ∨ relocReads s s') ∧ (causeCode k, unitCode .rtd) ∈ faultTable ∧ t = raiseToken k .rtd s' := by
  obtain hf | ⟨i, s', hf, hx⟩ := runFetched_next h
  · obtain ⟨s', hreads, ho⟩ | ⟨f, ho⟩ := fetchReloc_error hf
    · cases ho; exact ⟨.truncatedStream, s', hreads, by decide, rfl⟩
    · cases ho
  · obtain ⟨hreads, hst, -⟩ := fetchReloc_ok hf
    obtain (ht | ht) | ⟨-, rfl⟩ | ⟨-, hrel, -⟩ := exec_reloc_next hst hx
    · exact ⟨.relocOverflow, s', .inr hreads, by decide, ht⟩
    · exact ⟨.outputOverflow, s', .inr hreads, by decide, ht⟩
    · cases hfault
    · have hkept : t.phase = .sRel := by rw [hrel, hreads.1]; exact hp
      cases hkept.symm.trans hfault

/-- Settles O59: the fault entry of a token, after reads that move only the reader of its stream. -/
theorem faultingTokenHasNoEffect : Obligations.FaultingTokenHasNoEffect := by
  intro s t hbox hphase h hfault
  have hb : blockStep s = .next t := (step_of_inbox_nil hbox).symm.trans h
  rcases hphase with hp | hp
  · obtain ⟨k, s', hreads, -, rfl⟩ := codeStep_fault hp ((blockStep_sCode hp).symm.trans hb) hfault
    exact ⟨faultKeeps_codeReads hreads k .dce, raiseToken_result k .dce s'⟩
  · obtain ⟨k, s', hreads, -, rfl⟩ := relocStep_fault hp ((blockStep_sRel hp).symm.trans hb) hfault
    exact ⟨faultKeeps_relocReads hreads k .rtd, raiseToken_result k .rtd s'⟩

/-! ## The pair a fault records (R206) -/

/-- `CAUSE` and `FUNIT` hold a row of the table of R206. -/
abbrev recordsRow (t : State) : Prop := (t.cause, t.funit) ∈ faultTable

theorem recordsRow_raise {k : FaultKind} {u : UnitId} (h : (causeCode k, unitCode u) ∈ faultTable) (s : State) :
    recordsRow (raise k u s) := by
  rw [recordsRow, raise_cause, raise_funit]; exact h

theorem recordsRow_raiseToken {k : FaultKind} {u : UnitId} (h : (causeCode k, unitCode u) ∈ faultTable) (s : State) :
    recordsRow (raiseToken k u s) := by
  rw [recordsRow, raiseToken_cause, raiseToken_funit]; exact h

/-- The header step faults in `HDC`, in the region checks of `SEQ`, or in the first fetch of `DCE` (R131, R194). -/
theorem stepHdr_recordsRow {s t : State} (h : stepHdr s = .next t) (hfault : t.phase = .fault) : recordsRow t := by
  unfold stepHdr at h
  split at h
  next o ho =>
    subst h
    obtain e | ⟨f, -, -, e⟩ := deserHeader_error ho
    · cases e; exact recordsRow_raise (k := .malformedHeader) (u := .hdc) (by decide) _
    · cases e
  next s1 _ =>
    split at h
    next o ho =>
      subst h
      cases checkRegions_error ho
      exact recordsRow_raise (k := .malformedHeader) (u := .seq) (by decide) _
    next s2 _ =>
      cases he : enterCode s2 with
      | error o =>
        rw [he, finish] at h
        subst h
        obtain e | ⟨f, -, -, e⟩ := initBits_error he
        · cases e; exact recordsRow_raise (k := .truncatedStream) (u := .dce) (by decide) _
        · cases e
      | ok s3 =>
        rw [he] at h
        cases h
        obtain ⟨-, w, -, rfl⟩ := initBits_ok he
        cases hfault

theorem blockStep_recordsRow {s t : State} (h : blockStep s = .next t) (hfault : t.phase = .fault)
    (hrun : statusOf s.phase = 1) : recordsRow t := by
  cases hp : s.phase with
  | idle => rw [hp] at hrun; cases hrun
  | done => rw [hp] at hrun; cases hrun
  | fault => rw [hp] at hrun; cases hrun
  | sHdr => exact stepHdr_recordsRow ((blockStep_sHdr hp).symm.trans h) hfault
  | sCode =>
    obtain ⟨k, s', -, hrow, rfl⟩ := codeStep_fault hp ((blockStep_sCode hp).symm.trans h) hfault
    exact recordsRow_raiseToken hrow s'
  | sRel =>
    obtain ⟨k, s', -, hrow, rfl⟩ := relocStep_fault hp ((blockStep_sRel hp).symm.trans h) hfault
    exact recordsRow_raiseToken hrow s'
  | sRegs =>
    obtain ⟨ep, rfl⟩ := stepRegs_next ((blockStep_sRegs hp).symm.trans h)
    cases hfault
  | sBuild =>
    obtain rfl | ⟨hd, rfl⟩ := stepBuild_next ((blockStep_sBuild hp).symm.trans h)
    · exact recordsRow_raise (k := .fieldOverflow) (u := .hrc) (by decide) s
    · cases hfault
  | sEmit =>
    obtain ⟨rel, out, -, -, rfl⟩ := stepEmit_next ((blockStep_sEmit hp).symm.trans h)
    cases hfault

/-! ## Where `FAULT` is entered from (R214) -/

/-- A block that waits stays in its phase (R254), so only a running job faults. -/
theorem blockStep_fault_running {s t : State} (h : blockStep s = .next t) (hfault : t.phase = .fault)
    (hs : s.phase ≠ .fault) : statusOf s.phase = 1 := by
  by_contra hw
  cases (blockStep_waiting ((statusOf_ne_one_iff _).1 hw)).symm.trans h
  exact hs hfault

/-- No move of the host enters `FAULT` (R246). -/
theorem phase_fault_of_hostMove {m : HostMove} {s t : State} (h : hostMove m s = .next t)
    (hfault : t.phase = .fault) : s.phase = .fault := by
  obtain ⟨-, a, bs, rfl⟩ | ⟨-, n, rfl⟩ | ⟨-, rfl⟩ | ⟨-, rfl⟩ | rfl := hostMove_next h
  · exact hfault
  · exact hfault
  · exact hfault
  · cases hfault
  · cases hfault

/-- Settles O57: a move of the host never enters `FAULT`, and a step of the block's own that does records a row. -/
theorem faultsAreThoseOfTheTable : Obligations.FaultsAreThoseOfTheTable := by
  intro s t h hfault hs
  cases hbox : s.inbox with
  | nil =>
    have hb : blockStep s = .next t := (step_of_inbox_nil hbox).symm.trans h
    have hrun := blockStep_fault_running hb hfault hs
    exact ⟨blockStep_recordsRow hb hfault hrun, hrun⟩
  | cons m rest => exact absurd (phase_fault_of_hostMove ((step_of_inbox_cons hbox).symm.trans h) hfault) hs

end Sys2Proof.Machine
end

section
/-! PROOFS. Reset, the waiting between jobs, and the end of every job (`70_reset_and_hazards.md`): a bound on the steps
a job has left, which every step of the block lowers, and the invariant, which keeps a job from stopping (R240,
R254, R255). -/

namespace Sys2Proof.Machine

/-! ## Reset and waiting (R240, R254) -/

/-- Settles O46: the step is the host's move, and its values are those `State.reset` is written with. -/
theorem powerOnResetAbandonsAnyJob : Obligations.PowerOnResetAbandonsAnyJob := fun _ _ hm =>
  ⟨_, step_of_inbox_cons hm, rfl, rfl, rfl, rfl, rfl, rfl, rfl, rfl, rfl, rfl⟩

/-- Settles O50: with no host move pending, the step is the block's own. -/
theorem blockWaitsBetweenJobs : Obligations.BlockWaitsBetweenJobs := fun _ hbox hp =>
  (step_of_inbox_nil hbox).trans (blockStep_waiting hp)

/-! ## The steps a job has left (R255) -/

/-- A bound on the steps of the block until it waits: one for each byte of the two streams that is not yet read, and one
for each of the other phases that is not yet done. -/
def stepsLeft (s : State) : Nat :=
  match s.phase with
  | .idle => 0
  | .sHdr => s.n + 4
  | .sCode => (s.payLimit - s.cur) + (s.relLimit - s.relBase) + 3
  | .sRel => (s.relLimit - s.rcur) + 3
  | .sRegs => 3
  | .sBuild => 2
  | .sEmit => 1
  | .done => 0
  | .fault => 0

theorem stepsLeft_sHdr {s : State} (h : s.phase = .sHdr) : stepsLeft s = s.n + 4 := by
  simp only [stepsLeft, h]

theorem stepsLeft_sCode {s : State} (h : s.phase = .sCode) :
    stepsLeft s = (s.payLimit - s.cur) + (s.relLimit - s.relBase) + 3 := by
  simp only [stepsLeft, h]

theorem stepsLeft_sRel {s : State} (h : s.phase = .sRel) : stepsLeft s = (s.relLimit - s.rcur) + 3 := by
  simp only [stepsLeft, h]

theorem stepsLeft_sRegs {s : State} (h : s.phase = .sRegs) : stepsLeft s = 3 := by
  simp only [stepsLeft, h]

theorem stepsLeft_sBuild {s : State} (h : s.phase = .sBuild) : stepsLeft s = 2 := by
  simp only [stepsLeft, h]

theorem stepsLeft_sEmit {s : State} (h : s.phase = .sEmit) : stepsLeft s = 1 := by
  simp only [stepsLeft, h]

/-- No step is left exactly between jobs. -/
theorem stepsLeft_eq_zero_iff (s : State) :
    stepsLeft s = 0 ↔ s.phase = .idle ∨ s.phase = .done ∨ s.phase = .fault := by
  unfold stepsLeft
  cases s.phase <;> simp

/-- A job that has ended, in `FAULT` whatever its unit (R214), has no step left. -/
theorem stepsLeft_le_of_ended {s : State} (h : s.phase = .done ∨ s.phase = .fault) (k : Nat) : stepsLeft s ≤ k :=
  ((stepsLeft_eq_zero_iff s).2 (.inr h)).trans_le (Nat.zero_le k)

/-! ## Every step lowers the bound -/

/-- A code token is at least one byte long and lies inside the payload: its last read is a raw byte (R151). -/
theorem fetchCode_consumes {s t : State} {i : Instr} (h : fetchCode s = .ok (i, t)) :
    s.cur < t.cur ∧ t.cur ≤ t.payLimit := by
  refine readCodeToken_last_byte (I := fun a => s.cur ≤ a.cur) (F := fun a => s.cur < a.cur ∧ a.cur ≤ a.payLimit)
    (fun a b c hle hb => ?_) (fun a b c hle hb => ?_) (fun a hlt => hlt.1.le) (le_refl s.cur) h
  · obtain ⟨-, hforward, -⟩ := codeReads_nextBit hb
    exact hle.trans hforward
  · obtain ⟨hlimit, -, rfl⟩ := nextByte_ok hb
    exact ⟨Nat.lt_succ_of_le hle, hlimit⟩

/-- A step of the code stream reads at least one byte of the payload, or faults (R151, R255). -/
theorem codeStep_stepsLeft {s t : State} (hp : s.phase = .sCode) (h : runFetched (fetchCode s) = .next t) :
    stepsLeft t ≤ stepsLeft s - 1 := by
  rw [stepsLeft_sCode hp]
  obtain hf | ⟨i, s', hf, hx⟩ := runFetched_next h
  · obtain ⟨s', -, ho⟩ | ⟨f, ho⟩ := fetchCode_error hf
    · cases ho; exact stepsLeft_le_of_ended (.inr rfl) _
    · cases ho
  · obtain ⟨hforward, hinside⟩ := fetchCode_consumes hf
    obtain ⟨⟨hreads, -⟩, hst, -⟩ := fetchCode_ok hf
    have hlimit : s'.payLimit = s.payLimit := by rw [hreads]
    have hrel : s'.relLimit - s'.relBase = s.relLimit - s.relBase := by rw [hreads]
    obtain (rfl | rfl) | ⟨-, rfl⟩ | ⟨-, hout, -⟩ := exec_code_next hst hx
    · exact stepsLeft_le_of_ended (.inr rfl) _
    · exact stepsLeft_le_of_ended (.inr rfl) _
    · rw [stepsLeft_sRel rfl, enterReloc_relLimit, enterReloc_rcur]
      omega
    · have hleft : stepsLeft t = (s'.payLimit - s'.cur) + (s'.relLimit - s'.relBase) + 3 := by
        rw [hout]; exact stepsLeft_sCode (by rw [hreads]; exact hp)
      omega

/-- A step of the relocation stream reads at least one byte of its payload, or faults (R170, R255). -/
theorem relocStep_stepsLeft {s t : State} (hp : s.phase = .sRel) (h : runFetched (fetchReloc s) = .next t) :
    stepsLeft t ≤ stepsLeft s - 1 := by
  rw [stepsLeft_sRel hp]
  obtain hf | ⟨i, s', hf, hx⟩ := runFetched_next h
  · obtain ⟨s', -, ho⟩ | ⟨f, ho⟩ := fetchReloc_error hf
    · cases ho; exact stepsLeft_le_of_ended (.inr rfl) _
    · cases ho
  · obtain ⟨⟨hreads, hforward, hinside⟩, hst, -⟩ := fetchReloc_ok hf
    have hlimit : s'.relLimit = s.relLimit := by rw [hreads]
    obtain (rfl | rfl) | ⟨-, rfl⟩ | ⟨-, hrel, -⟩ := exec_reloc_next hst hx
    · exact stepsLeft_le_of_ended (.inr rfl) _
    · exact stepsLeft_le_of_ended (.inr rfl) _
    · rw [stepsLeft_sRegs rfl]
      omega
    · have hleft : stepsLeft t = (s'.relLimit - s'.rcur) + 3 := by
        rw [hrel]; exact stepsLeft_sRel (by rw [hreads]; exact hp)
      omega

/-- The two streams lie in disjoint parts of the input, so that together they hold fewer than `N` bytes (R191, R194). -/
theorem stepHdr_stepsLeft {s t : State} (hp : s.phase = .sHdr) (h : stepHdr s = .next t) :
    stepsLeft t ≤ stepsLeft s - 1 := by
  rw [stepsLeft_sHdr hp]
  obtain ⟨k, u, s', -, rfl⟩ | ⟨hd, w, hpay, -, hfits, rfl⟩ := stepHdr_next h
  · exact stepsLeft_le_of_ended (.inr rfl) _
  · rw [stepsLeft_sCode rfl]
    show (loaderOff hd - (payloadStart hd + 2)) + (s.n - (loaderOff hd + relTableOff)) + 3 ≤ s.n + 4 - 1
    omega

/-- Whatever its phase, a step of the block's own leaves one step less, or it waits (R255). -/
theorem blockStep_stepsLeft {s t : State} (h : blockStep s = .next t) : stepsLeft t ≤ stepsLeft s - 1 := by
  have hwait : (s.phase = .idle ∨ s.phase = .done ∨ s.phase = .fault) → stepsLeft t ≤ stepsLeft s - 1 := by
    intro hp
    cases (blockStep_waiting hp).symm.trans h
    rw [(stepsLeft_eq_zero_iff s).2 hp]
  cases hp : s.phase with
  | idle => exact hwait (.inl hp)
  | done => exact hwait (.inr (.inl hp))
  | fault => exact hwait (.inr (.inr hp))
  | sHdr => exact stepHdr_stepsLeft hp ((blockStep_sHdr hp).symm.trans h)
  | sCode => exact codeStep_stepsLeft hp ((blockStep_sCode hp).symm.trans h)
  | sRel => exact relocStep_stepsLeft hp ((blockStep_sRel hp).symm.trans h)
  | sRegs =>
    obtain ⟨ep, rfl⟩ := stepRegs_next ((blockStep_sRegs hp).symm.trans h)
    rw [stepsLeft_sRegs hp, stepsLeft_sBuild rfl]
  | sBuild =>
    obtain rfl | ⟨hd, rfl⟩ := stepBuild_next ((blockStep_sBuild hp).symm.trans h)
    · exact stepsLeft_le_of_ended (.inr rfl) _
    · rw [stepsLeft_sBuild hp, stepsLeft_sEmit rfl]
  | sEmit =>
    obtain ⟨rel, out, -, -, rfl⟩ := stepEmit_next ((blockStep_sEmit hp).symm.trans h)
    exact stepsLeft_le_of_ended (.inl rfl) _

/-! ## Every job ends -/

/-- A job on an input written whole, running or ended, that the host leaves alone (R243, R244). -/
def jobUnderDuty (s : State) : Prop :=
  s.inbox = [] ∧ s.phase ≠ .idle ∧ srcLoaded s ∧ blockInv s

/-- A job does not go back to `IDLE` (R193). -/
theorem phaseMoves_ne_idle {p q : Phase} (h : phaseMoves p q) (hp : p ≠ .idle) : q ≠ .idle := by
  obtain rfl | ⟨rfl, -⟩ | ⟨rfl, -⟩ := h
  · revert hp; cases p <;> decide
  · exact hp
  · decide

/-- A job under the host's duty takes its next step, which leaves one step less, and is still under that duty. -/
theorem jobUnderDuty_step {s : State} (h : jobUnderDuty s) :
    ∃ t, step s = .next t ∧ jobUnderDuty t ∧ stepsLeft t ≤ stepsLeft s - 1 := by
  obtain ⟨hbox, hidle, hsrc, hinv⟩ := h
  obtain ⟨t, ht⟩ := blockStep_completes hinv fun _ => hsrc
  obtain ⟨hsrcEq, hn, -, -, hboxEq⟩ := blockStep_keeps_input ht
  have hsrc' : srcLoaded t := by rw [srcLoaded, hsrcEq, hn]; exact hsrc
  exact ⟨t, (step_of_inbox_nil hbox).trans ht,
    ⟨hboxEq.trans hbox, phaseMoves_ne_idle (blockStep_phase ht) hidle, hsrc', blockStep_keeps_blockInv hinv ht⟩,
    blockStep_stepsLeft ht⟩

/-- A job under the host's duty has ended after as many steps as it has left, or more. -/
theorem jobUnderDuty_ends (k : Nat) : ∀ {s : State}, jobUnderDuty s → stepsLeft s ≤ k →
    ∃ t, runSteps k s = .next t ∧ (t.phase = .done ∨ t.phase = .fault) := by
  induction k with
  | zero =>
    intro s ⟨_, hidle, _⟩ hk
    have hended := (stepsLeft_eq_zero_iff s).1 (Nat.le_zero.1 hk)
    exact ⟨s, rfl, hended.resolve_left hidle⟩
  | succ k ih =>
    intro s hjob hk
    obtain ⟨t, hstep, hjob', hleft⟩ := jobUnderDuty_step hjob
    rw [runSteps_succ k hstep]
    exact ih hjob' (by omega)

/-- The cells of `SRC` below `N` in the order of their addresses are a memory in canonical form. -/
theorem inputCells_wf (src : Memory) (n : Nat) : memWf (inputCells src n) := by
  unfold inputCells
  rw [memWf, List.pairwise_map, List.pairwise_filterMap]
  refine List.pairwise_lt_range.imp fun {a b} hlt c hc d hd => ?_
  obtain ⟨_, -, rfl⟩ := Option.map_eq_some_iff.1 hc
  obtain ⟨_, -, rfl⟩ := Option.map_eq_some_iff.1 hd
  exact hlt

/-- A job that starts on a whole input in canonical form is under the host's duty from `START` on (R199, R243). -/
theorem jobUnderDuty_startJob {s : State} (hbox : s.inbox = []) (hsrc : srcLoaded s) (hwf : memWf s.src) :
    jobUnderDuty (startJob s) :=
  ⟨hbox, by rw [startJob_phase]; decide, hsrc, blockInv_startJob hwf⟩

theorem phase_eq_of_courseForm_eq {s t : State} (h : courseForm s = courseForm t) : s.phase = t.phase := by
  obtain ⟨hs, -⟩ := courseForm_keeps s
  obtain ⟨ht, -⟩ := courseForm_keeps t
  rw [← hs, h, ht]

/-- Settles O54. The statement does not ask that `SRC` is in canonical form, so the job is first followed on the
canonical form of its input, where the invariant holds; the job itself takes the same course. -/
theorem everyJobEnds : Obligations.EveryJobEnds := by
  intro s hbox hsrc
  let s' : State := { s with src := inputCells s.src s.n }
  have hsrc' : srcLoaded s' := fun a ha => by
    show (memRead (inputCells s.src s.n) a).isSome
    rw [memRead_inputCells ha]
    exact hsrc a ha
  have hjob : jobUnderDuty (startJob s') := jobUnderDuty_startJob hbox hsrc' (inputCells_wf s.src s.n)
  obtain ⟨t', hrun', hend⟩ := jobUnderDuty_ends (s.n + 4) hjob (stepsLeft_sHdr rfl).le
  have halike : inputAlike s s' := ⟨rfl, (inputCells_inputCells s.src s.n).symm, rfl, rfl, rfl⟩
  have hsame := runSteps_alike (s.n + 4) (s := startJob s) (t := startJob s') hbox hbox (courseForm_startJob halike)
  rw [hrun'] at hsame
  obtain ⟨t, hrun, hform⟩ := next_of_courseOutcome hsame
  exact ⟨t, hrun, by rw [phase_eq_of_courseForm_eq hform]; exact hend⟩

end Sys2Proof.Machine
end
